-- ==== Sys2Proof/Word.lean ====
section
/-! DEFINITION. The word and byte types of the block (`00_scope.md` section 6, R3; `20_memory.md` R61). -/

namespace Sys2Proof

/-- A 32-bit unsigned word. Its `+` is addition modulo 2^32, which is R3's. -/
abbrev Word := BitVec 32

/-- A byte of the message (R61). -/
abbrev Byte := BitVec 8

end Sys2Proof
end

