-- ==== Sys2Proof/Machine/State.lean ====
section
/-! DEFINITION. The state of the block (`10_state.md`), of its environment (R27, R107, R210, D8), and the model's own
fields, as plain data; its value right after reset (R260, R261); the reasons a step can stop. -/

namespace Sys2Proof.Machine

/-- The control state (R30): sixteen named states. Their codes are `fsmCode`. -/
inductive Fsm
  | idle | count | alloc | copy | tail | zero | lenhi | lenlo
  | init | next | load | sched | round | feed | release | fail
  deriving DecidableEq, Repr

/-- What `AllocOK` is (D8; `00_scope.md` section 5). -/
inductive AllocPolicy
  /-- The platform's open answer, `Config.allocOK`. -/
  | platform
  /-- A store of `PAD_CAP_WORDS = words` words: `AllocOK(n) = (n <= words)`. -/
  | capacity (words : Nat)
  /-- `PAD_CAP_WORDS` infinite. -/
  | unbounded
  deriving DecidableEq, Repr

/-- One turn of one agent (R210: the host and the block move one at a time, in any order). -/
inductive Turn
  /-- The block's: the micro-operation its control state selects, none in IDLE (R101). -/
  | block
  /-- The host's: one register access (R103). -/
  | access (hsel : BitVec 5) (data : Word)
  /-- The reset input changes to this level (R107, R262). -/
  | pin (level : Bool)
  /-- The platform puts these bytes in the message space, from offset 0 (R113 `MSG = ...`, R225, R263 step 2). -/
  | message (bytes : List Byte)
  deriving DecidableEq, Repr

structure State where
  /-- `H[0..4]`, the Hash (R20). -/
  H : Vector Word 5
  /-- The working registers (R21). -/
  A : Word
  B : Word
  C : Word
  D : Word
  E : Word
  /-- `W[0..15]`, the schedule ring (R22). -/
  W : Vector Word 16
  /-- The padded block sequence (R24): the words written so far, by rising index. A word not listed is `novalue`. -/
  P : List (Nat × Word)
  /-- The sequence is allocated (R24). -/
  PVALID : Bool
  /-- Its length in words, 0 while not allocated (R24). -/
  PLEN : Nat
  /-- iterationsNeeded (R25). -/
  N : Nat
  /-- The message length in bytes (R26). -/
  LEN : BitVec 61
  /-- The control state (R30). -/
  FSM : Fsm
  /-- The round index (R31). -/
  T : BitVec 7
  /-- The running word index (R32). -/
  IDX : Nat
  /-- The index of the next block to compress (R33). -/
  BLK : Nat
  /-- Status flags (R37). -/
  BUSY : Bool
  DONE : Bool
  ERR : Bool
  /-- 0 none, 1 ResourceExhausted (R37, R230). -/
  ERRCODE : BitVec 4
  /-- Environment: the message space, bytes by rising offset (R27, R61). A byte not listed is the platform's open one. -/
  msg : List Host.Cell
  /-- Environment: what `AllocOK` is (D8). -/
  alloc : AllocPolicy
  /-- Environment: the level of the reset input (R107, R262). -/
  rst : Bool
  /-- Environment: the turns still to come, next first; once it is empty every turn is the block's (R210, R276). -/
  inbox : List Turn
  /-- Environment: the data the latest host read returned (R214 to R220). -/
  rdata : Word
  /-- The model's own: `H` has been written since reset, so it is not `novalue` (R45). -/
  hashWritten : Bool
  /-- The model's own: how many H.START have been accepted; numbers the computations (R36, D8). -/
  calls : Nat
  /-- The model's own: how many free values have been drawn. -/
  draws : Nat
  deriving DecidableEq, Repr

/-- Right after reset. The control state, the flags, `P` and `LEN` are R260's. The data registers are `novalue` (R261)
and hold 0 here, the environment is empty: DESIGN CHOICE, unsafe (log entries 2, 4 to 10). -/
def State.reset : State where
  H := Vector.replicate 5 0
  A := 0
  B := 0
  C := 0
  D := 0
  E := 0
  W := Vector.replicate 16 0
  P := []
  PVALID := false
  PLEN := 0
  N := 0
  LEN := 0
  FSM := .idle
  T := 0
  IDX := 0
  BLK := 0
  BUSY := false
  DONE := false
  ERR := false
  ERRCODE := 0
  msg := []
  alloc := .platform
  rst := false
  inbox := []
  rdata := 0
  hashWritten := false
  calls := 0
  draws := 0

/-- Why the machine stops. The block's own exception is not here: it is a next state (R233). No fault is reachable
from reset. -/
inductive Fault
  /-- Raised by P.WORD and P.TAIL1..3: a message read at or beyond `LEN`, which R62 defines nowhere. Safe (log
  entry 17). -/
  | msgOutOfRange
  /-- Raised by the Padder's writes and by C.LOAD: a word of `P` outside `0 .. PLEN-1` or with `PVALID = 0`, which R64
  defines nowhere. Safe (log entry 17). -/
  | padOutOfRange
  /-- Raised by C.ROUND0..3: `T > 79`, for which R166 and R190 give no successor. Safe (log entry 17). -/
  | roundIndexOutOfRange
  deriving DecidableEq, Repr

/-- Why the model takes no step. -/
inductive Refusal
  /-- Raised by `exec` alone, for an instruction without a meaning yet. Safe. -/
  | notModelled (mnemonic : String)
  /-- Raised by `step`: `FSM = ROUND` with `T > 79`, where R100 gives `op_sel` no value. Not reachable. Safe (log
  entry 17). -/
  | noSelector
  /-- Raised by `step`: an agent changes the message while `BUSY = 1`, of which the spec says nothing (R270, U2,
  D20). Safe for a host that keeps the duty, and the only refusal a run can meet. DESIGN CHOICE (log entry 12). -/
  | messageChangedWhileBusy
  deriving DecidableEq, Repr

end Sys2Proof.Machine
end

