-- ==== Sys2Proof/Machine/Flags.lean ====
section
/-! DEFINITION. The status flags (`10_state.md` R37, R42). There are no arithmetic flags (R38). -/

namespace Sys2Proof.Machine

/-- STATUS: `{24'b0, ERRCODE[3:0], 1'b0, ERR, DONE, BUSY}` (R42, R215). -/
def statusWord (s : State) : Word :=
  (0 : BitVec 24) ++ s.ERRCODE ++ (0 : BitVec 1) ++ BitVec.ofBool s.ERR ++ BitVec.ofBool s.DONE ++ BitVec.ofBool s.BUSY

/-- The cause code of ResourceExhausted (R230). -/
def resourceExhaustedCode : BitVec 4 := 1

/-- An accepted START: `BUSY <- 1; DONE <- 0; ERR <- 0; ERRCODE <- 0` (R212). -/
def State.flagsBusy (s : State) : State := { s with BUSY := true, DONE := false, ERR := false, ERRCODE := 0 }

/-- Completion: `DONE <- 1; BUSY <- 0` (R194). -/
def State.flagsDone (s : State) : State := { s with DONE := true, BUSY := false }

/-- The exception reported: `ERR <- 1; ERRCODE <- 1; BUSY <- 0` (R233). -/
def State.flagsFailed (s : State) : State :=
  { s with ERR := true, ERRCODE := resourceExhaustedCode, BUSY := false }

/-- Reset: all flags 0 (R260). -/
def State.flagsCleared (s : State) : State := { s with BUSY := false, DONE := false, ERR := false, ERRCODE := 0 }

end Sys2Proof.Machine
end

