-- ==== Sys2Proof/Config.lean ====
section
/-! DEFINITION. What an implementation fixes, and the values the spec leaves open. Every `opaque` constant here is a
free value: it has no body, so nothing can be proved of which value it is, and a statement that mentions it holds
whatever it is. -/

namespace Sys2Proof.Config

/-- OPEN parameter `AllocOK` (`92_eei_decisions.md` D8): the platform's answer, in a given computation, to a request for
that many words. The computation's number is an argument because the answer may change from call to call. DESIGN CHOICE,
safe (log entry 5). -/
opaque allocOK (call words : Nat) : Bool

/-- The byte the platform holds at an offset of the message of a given computation, where the state does not list it:
the message is a total function the environment supplies (R27, R62; `93_implementation_defined.md` U1). DESIGN CHOICE,
safe (log entry 4). -/
opaque messageByte (call off : Nat) : Byte

/-- What a freshly allocated, not yet written word of `P` holds in a given computation: `novalue` (R24, D14). DESIGN
CHOICE, safe (log entry 11). -/
opaque padNovalue (call index : Nat) : Word

/-- What a 32-bit register holds after H.RESET where the spec gives `novalue` (R261): the draw, and which register (0 to
4 `H`, 5 to 9 `A` to `E`, 10 to 25 `W`). DESIGN CHOICE, safe (log entry 3). -/
opaque resetWord (draw reg : Nat) : Word

/-- What a natural-number register holds after H.RESET (R261): the draw, and which register (0 `N`, 1 `IDX`, 2 `BLK`).
DESIGN CHOICE, safe (log entry 3). -/
opaque resetNat (draw reg : Nat) : Nat

/-- What `T` holds after H.RESET (R261). DESIGN CHOICE, safe (log entry 3). -/
opaque resetRound (draw : Nat) : BitVec 7

/-- What a read of DIGESTi returns where the spec gives the read no value (R45, R220; U3, U4): the draw, and `i`. DESIGN
CHOICE, safe (log entry 9). -/
opaque digestRead (draw i : Nat) : Word

end Sys2Proof.Config
end

