-- ==== Sys2Proof/Machine/Operands.lean ====
section
/-! DEFINITION. How operands are formed: the constants (`30_encoding.md` R95 to R99), the data formats (R90 to R92),
the word primitives (R4, R163), the parts of `LEN` (R43, R44), and the operation selector (R100). -/

namespace Sys2Proof.Machine

/-! ### Constants -/

/-- The IV (R96). -/
def iv : Vector Word 5 := #v[0x67452301, 0xEFCDAB89, 0x98BADCFE, 0x10325476, 0xC3D2E1F0]

/-- The round constants of phases 0 to 3 (R97). -/
def k0 : Word := 0x5A827999
def k1 : Word := 0x6ED9EBA1
def k2 : Word := 0x8F1BBCDC
def k3 : Word := 0xCA62C1D6

/-! ### Data formats -/

/-- Format WORD (R90): `b0` in bits 31:24 down to `b3` in bits 7:0. -/
def messageWord (b0 b1 b2 b3 : Byte) : Word := b0 ++ b1 ++ b2 ++ b3

/-- Format TAILWORD (R91), `r = 0`: the marker byte 0x80 alone. -/
def tailWord0 : Word := 0x80000000

/-- Format TAILWORD (R91), `r = 1`. -/
def tailWord1 (b0 : Byte) : Word := messageWord b0 0x80 0x00 0x00

/-- Format TAILWORD (R91), `r = 2`. -/
def tailWord2 (b0 b1 : Byte) : Word := messageWord b0 b1 0x80 0x00

/-- Format TAILWORD (R91), `r = 3`. -/
def tailWord3 (b0 b1 b2 : Byte) : Word := messageWord b0 b1 b2 0x80

/-- The bit length `8 * LEN`, a natural below 2^64 (R92). -/
def bitLength (len : BitVec 61) : Nat := 8 * len.toNat

/-- `bitlen[63:32]` (R92), not truncated before the split (D7; log entry 19). -/
def lengthHigh (len : BitVec 61) : Word := BitVec.ofNat 32 (bitLength len / 2 ^ 32)

/-- `bitlen[31:0]` (R92). -/
def lengthLow (len : BitVec 61) : Word := BitVec.ofNat 32 (bitLength len)

/-- iterationsNeeded, by the source's own formula (R131). -/
def blockCount (len : Nat) : Nat :=
  if (len + 1) % 64 ≤ 56 then (len + 1) / 64 + 1 else (len + 1) / 64 + 2

/-! ### Word primitives -/

/-- `ROTL(x, n)` (R4), for `1 <= n <= 31` only: another `n` does not type-check (D24, U5). DEDUCED, safe (log
entry 13). -/
def rotl (x : Word) (n : Nat) (_h : 1 ≤ n ∧ n ≤ 31 := by decide) : Word := (x <<< n) ||| (x >>> (32 - n))

/-- `f_0` (R163). -/
def choose (b c d : Word) : Word := d ^^^ (b &&& (c ^^^ d))

/-- `f_1` and `f_3` (R163). -/
def parity (b c d : Word) : Word := b ^^^ c ^^^ d

/-- `f_2` (R163). -/
def majority (b c d : Word) : Word := (b &&& c) ^^^ (d &&& (b ^^^ c))

/-- Slot `i mod 16` of the ring (R22, R65). -/
def ringAt (w : Vector Word 16) (i : Nat) : Word := w[i % 16]'(Nat.mod_lt i (by decide))

/-- `W[i mod 16] <- v` (R22, R65). -/
def ringSet (w : Vector Word 16) (i : Nat) (v : Word) : Vector Word 16 :=
  w.set (i % 16) v (Nat.mod_lt i (by decide))

/-- The expanded word of round `t` (R162). The taps `t-3`, `t-8`, `t-14`, `t-16` are taken mod 16, so they are written
`t+13`, `t+8`, `t+2`, `t`. For a `t` outside 16 to 79, which no run has: DEDUCED, safe (log entry 16). -/
def scheduleWord (w : Vector Word 16) (t : Nat) : Word :=
  rotl (ringAt w (t + 13) ^^^ ringAt w (t + 8) ^^^ ringAt w (t + 2) ^^^ ringAt w t) 1

/-! ### The parts of `LEN` -/

/-- `LEN[31:0]` (R43). -/
def lenLow (len : BitVec 61) : Word := len.extractLsb' 0 32

/-- `LEN[60:32]` (R44). -/
def lenHigh (len : BitVec 61) : BitVec 29 := len.extractLsb' 32 29

/-- `LEN` with bits 31:0 replaced (R43, R216). -/
def withLenLow (len : BitVec 61) (data : Word) : BitVec 61 := lenHigh len ++ data

/-- `LEN` with bits 60:32 replaced by `data[28:0]`; `data[31:29]` is ignored (R44, R217). -/
def withLenHigh (len : BitVec 61) (data : Word) : BitVec 61 := data.extractLsb' 0 29 ++ lenLow len

/-- What LEN_HI reads as: `{0b000, LEN[60:32]}` (R44, R219). -/
def lenHighRead (len : BitVec 61) : Word := (lenHigh len).setWidth 32

/-! ### The control state -/

/-- The state codes (R30). -/
def fsmCode : Fsm → BitVec 4
  | .idle => 0 | .count => 1 | .alloc => 2 | .copy => 3 | .tail => 4 | .zero => 5 | .lenhi => 6 | .lenlo => 7
  | .init => 8 | .next => 9 | .load => 10 | .sched => 11 | .round => 12 | .feed => 13 | .release => 14 | .fail => 15

/-- `sel` (R100): `LEN mod 4` in TAIL, `T div 20` in ROUND, else 0. No value in ROUND with `T > 79`, where `T div 20`
is no 2-bit number: no such state is reached (R31, R105). -/
def subSelector (s : State) : Option (BitVec 2) :=
  match s.FSM with
  | .tail => some (BitVec.ofNat 2 (s.LEN.toNat % 4))
  | .round => if s.T.toNat < 80 then some (BitVec.ofNat 2 (s.T.toNat / 20)) else none
  | _ => some 0

/-- `op_sel = {FSM[3:0], sel[1:0]}` (R100). -/
def opSel (s : State) : Option (BitVec 6) := (subSelector s).map fun sel => fsmCode s.FSM ++ sel

/-! ### Successors that depend on a counter (R190; the counter's new value) -/

/-- After P.ALLOC: COPY if `q > 0`, else TAIL (R132). -/
def afterAlloc (len : Nat) : Fsm := if len / 4 > 0 then .copy else .tail

/-- After P.WORD: TAIL if `IDX = q`, else COPY (R133). -/
def afterWord (len idx : Nat) : Fsm := if idx = len / 4 then .tail else .copy

/-- After P.TAILr and P.ZERO: LENHI if `IDX mod 16 = 14`, else ZERO (R134 to R138). -/
def afterFill (idx : Nat) : Fsm := if idx % 16 = 14 then .lenhi else .zero

/-- After C.ROUNDp (R166): FEED if `T = 80`, SCHED if `16 <= T <= 79`, ROUND if `T <= 15`. -/
def afterRound (t : Nat) : Fsm := if t = 80 then .feed else if 16 ≤ t then .sched else .round

end Sys2Proof.Machine
end

