-- ==== Sys2Proof/Machine/Ops.lean ====
section
/-! DEFINITION. The named operations over memory, registers and control state that the meanings share
(`20_memory.md`), the exception (`60_exceptions.md` R230 to R236), and reset (R260 to R262). -/

namespace Sys2Proof.Machine

/-! ### Sparse memory: cells by strictly rising address, an unlisted address holding no value -/

/-- The value listed at an address. -/
def Memory.read {α : Type} : List (Nat × α) → Nat → Option α
  | [], _ => none
  | (k, v) :: m, a => if k = a then some v else Memory.read m a

/-- List a value at an address, in place of the one that was there. -/
def Memory.write {α : Type} : List (Nat × α) → Nat → α → List (Nat × α)
  | [], a, v => [(a, v)]
  | (k, w) :: m, a, v =>
    if a < k then (a, v) :: (k, w) :: m
    else if a = k then (a, v) :: m
    else (k, w) :: Memory.write m a v

/-- The canonical form: addresses strictly rising. An unlisted address reads as no value, so no entry can equal what an
unlisted address reads as. -/
abbrev Memory.wf {α : Type} (m : List (Nat × α)) : Prop := (m.map Prod.fst).Pairwise (· < ·)

/-- The cells of a list of values at consecutive addresses. -/
def Memory.ofList {α : Type} : Nat → List α → List (Nat × α)
  | _, [] => []
  | a, v :: vs => (a, v) :: Memory.ofList (a + 1) vs

/-! ### The message space (R61, R62) -/

/-- The message `M` of the current computation, a total function of the offset (R27): the byte listed, else the one
the platform holds (log entry 4). -/
def State.msgByte (s : State) (off : Nat) : Byte := (Memory.read s.msg off).getD (Config.messageByte s.calls off)

/-- `MemRead(MSG, off, 1)`: defined only for `off < LEN` (R62). -/
def State.readMsg (s : State) (off : Nat) : Except Fault Byte :=
  if off < s.LEN.toNat then .ok (s.msgByte off) else .error .msgOutOfRange

/-! ### The padded-sequence space (R63, R64) -/

/-- The content of word `i` of `P`: the word written, else `novalue` (R24), a free value (log entry 11). -/
def State.padWord (s : State) (i : Nat) : Word := (Memory.read s.P i).getD (Config.padNovalue s.calls i)

/-- Where PAD accesses are defined: `PVALID = 1` and `i < PLEN` (R64). -/
def State.padRoom (s : State) (i : Nat) : Bool := s.PVALID && decide (i < s.PLEN)

/-- `MemRead(PAD, i, 4)` (R64). -/
def State.readPad (s : State) (i : Nat) : Except Fault Word :=
  if s.padRoom i then .ok (s.padWord i) else .error .padOutOfRange

/-- `P[IDX] <- v; IDX <- IDX + 1; FSM <- f`. -/
def State.pushPad (s : State) (v : Word) (f : Fsm) : State :=
  { s with P := Memory.write s.P s.IDX v, IDX := s.IDX + 1, FSM := f }

/-- `MemWrite(PAD, IDX, 4, v); IDX <- IDX + 1; FSM <- next IDX` with the new `IDX`: what every Padder write does
(R133 to R140). -/
def State.storeNext (s : State) (v : Word) (next : Nat → Fsm) : Except Fault State :=
  if s.padRoom s.IDX then .ok (s.pushPad v (next (s.IDX + 1))) else .error .padOutOfRange

/-- The sixteen words of block `BLK` (R33, R161). -/
def State.readBlock (s : State) : Except Fault (Vector Word 16) :=
  if s.PVALID && decide (16 * s.BLK + 15 < s.PLEN) then .ok (Vector.ofFn fun j => s.padWord (16 * s.BLK + j))
  else .error .padOutOfRange

/-! ### Allocation and the exception -/

/-- `AllocOK(words)` for the current computation (D8; log entry 5). -/
def State.allocOK (s : State) (words : Nat) : Bool :=
  match s.alloc with
  | .platform => Config.allocOK s.calls words
  | .capacity cap => decide (words ≤ cap)
  | .unbounded => true

/-- Allocation granted (R132): `PVALID <- 1; PLEN <- 16 * N`, every word `novalue`, `IDX <- 0`. -/
def State.allocated (s : State) : State :=
  { s with PVALID := true, PLEN := 16 * s.N, P := [], IDX := 0, FSM := afterAlloc s.LEN.toNat }

/-- `raise ResourceExhausted()`: `FSM <- FAIL` and nothing else (R132, R233, R235). -/
def State.raiseResourceExhausted (s : State) : State := { s with FSM := .fail }

/-- Exception entry (R233): the flags report it and control goes to IDLE. Nothing is saved, nothing else changes. -/
def State.enterResourceExhausted (s : State) : State := { s.flagsFailed with FSM := .idle }

/-- An accepted H.START (R212). It is also the only recovery from the exception: there is no return operation and no
separate "clear error" command (R236). The model counts the computation (log entry 10). -/
def State.acceptStart (s : State) : State := { s.flagsBusy with FSM := .count, calls := s.calls + 1 }

/-! ### Control, Hash, working registers -/

/-- `FSM <- f`. -/
def State.goto (s : State) (f : Fsm) : State := { s with FSM := f }

/-- `N <- n; FSM <- ALLOC` (R131). -/
def State.counted (s : State) (n : Nat) : State := { s with N := n, FSM := .alloc }

/-- `H <- IV; BLK <- 0; FSM <- NEXT` (R192). From here `H` is no longer `novalue`. -/
def State.initHash (s : State) : State := { s with H := iv, BLK := 0, FSM := .next, hashWritten := true }

/-- `W <- w; A..E <- H; T <- 0; FSM <- ROUND` (R161). -/
def State.loadBlock (s : State) (w : Vector Word 16) : State :=
  { s with W := w, A := s.H[0], B := s.H[1], C := s.H[2], D := s.H[3], E := s.H[4], T := 0, FSM := .round }

/-- `W[T mod 16] <- v; FSM <- ROUND` (R162). -/
def State.putSchedule (s : State) (v : Word) : State :=
  { s with W := ringSet s.W s.T.toNat v, FSM := .round }

/-- The register shift of a round, simultaneously, and `T <- T + 1` (R166). -/
def State.shiftRound (s : State) (temp : Word) : State :=
  { s with E := s.D, D := s.C, C := rotl s.B 30, B := s.A, A := temp, T := s.T + 1,
           FSM := afterRound (s.T.toNat + 1) }

/-- `temp` of the round (R166). -/
def State.roundSum (s : State) (k : Word) (f : Word → Word → Word → Word) : Word :=
  k + s.E + rotl s.A 5 + f s.B s.C s.D + ringAt s.W s.T.toNat

/-- One round (R166), defined for `T <= 79`. -/
def State.round (s : State) (k : Word) (f : Word → Word → Word → Word) : Except Fault State :=
  if s.T.toNat < 80 then .ok (s.shiftRound (s.roundSum k f)) else .error .roundIndexOutOfRange

/-- `H[i] <- H[i] + (A..E)[i]; BLK <- BLK + 1; FSM <- NEXT` (R172). -/
def State.feedForward (s : State) : State :=
  { s with H := #v[s.H[0] + s.A, s.H[1] + s.B, s.H[2] + s.C, s.H[3] + s.D, s.H[4] + s.E],
           BLK := s.BLK + 1, FSM := .next }

/-- Release and report completion (R194): every word of `P` ceases to exist (log entry 21). -/
def State.releasePad (s : State) : State := { s.flagsDone with P := [], PVALID := false, PLEN := 0, FSM := .idle }

/-! ### Host accesses -/

/-- A host read returns `v`; no state of the block changes (R73; log entry 8). -/
def State.respond (s : State) (v : Word) : State := { s with rdata := v }

/-- A host read to which the spec gives no value: a free value, a fresh one each time (U3, U4; log entry 9). -/
def State.respondFree (s : State) (i : Nat) : State :=
  { s with rdata := Config.digestRead s.draws i, draws := s.draws + 1 }

/-- `LEN <- len`. -/
def State.setLen (s : State) (len : BitVec 61) : State := { s with LEN := len }

/-- A read of DIGESTi (R220): `H[i]` while `BUSY = 0` and `H` is not `novalue`; else no value is specified. -/
def State.readDigest (s : State) (i : Fin 5) : State :=
  if !s.BUSY && s.hashWritten then s.respond s.H[i] else s.respondFree i

/-- A write to LEN_LO or LEN_HI takes effect only while `BUSY = 0` (R216, R217; log entry 20). -/
def State.writeLen (s : State) (len : BitVec 61) : State := if s.BUSY then s else s.setLen len

/-! ### Reset (R262) -/

/-- All of R260 takes effect, everything in R261 becomes `novalue` (free values, log entry 3), and the padded sequence of
a running computation is released. The environment stays as it is. -/
def State.hardReset (s : State) : State :=
  { s.flagsCleared with
    FSM := .idle, PVALID := false, PLEN := 0, P := [], LEN := 0,
    H := Vector.ofFn fun i => Config.resetWord s.draws i,
    A := Config.resetWord s.draws 5, B := Config.resetWord s.draws 6, C := Config.resetWord s.draws 7,
    D := Config.resetWord s.draws 8, E := Config.resetWord s.draws 9,
    W := Vector.ofFn fun j => Config.resetWord s.draws (10 + j),
    N := Config.resetNat s.draws 0, IDX := Config.resetNat s.draws 1, BLK := Config.resetNat s.draws 2,
    T := Config.resetRound s.draws, hashWritten := false, draws := s.draws + 1 }

/-! ### The environment -/

/-- The turn at the head of the list has been taken. -/
def State.takeTurn (s : State) (rest : List Turn) : State := { s with inbox := rest }

/-- The reset input is at this level. -/
def State.setPin (s : State) (level : Bool) : State := { s with rst := level }

/-- The platform puts these bytes in the message space, from offset 0; what was there is gone (R225). -/
def State.placeMessage (s : State) (bytes : List Byte) : State := { s with msg := Memory.ofList 0 bytes }

/-! ### Outcomes -/

/-- What a computed state or fault is as the outcome of a step. -/
def outcome : Except Fault State → Host.Outcome State Fault Refusal
  | .ok s => .next s
  | .error e => .fault e

end Sys2Proof.Machine
end

