-- ==== Sys2Proof/Machine/Compressor.lean ====
section
/-! DEFINITION. The Compressor's micro-operations (`41_compressor.md` R161 to R172). -/

namespace Sys2Proof.Machine

/-- C.LOAD (R161). -/
def execCLoad (s : State) : Host.Outcome State Fault Refusal :=
  outcome do
    let w ← s.readBlock
    return s.loadBlock w

/-- C.SCHED (R162). The four reads use the old content, then the slot is overwritten. -/
def execCSched (s : State) : Host.Outcome State Fault Refusal :=
  .next (s.putSchedule (scheduleWord s.W s.T.toNat))

/-- C.ROUND0 (R167). -/
def execCRound0 (s : State) : Host.Outcome State Fault Refusal := outcome (s.round k0 choose)

/-- C.ROUND1 (R168). -/
def execCRound1 (s : State) : Host.Outcome State Fault Refusal := outcome (s.round k1 parity)

/-- C.ROUND2 (R169). -/
def execCRound2 (s : State) : Host.Outcome State Fault Refusal := outcome (s.round k2 majority)

/-- C.ROUND3 (R170). -/
def execCRound3 (s : State) : Host.Outcome State Fault Refusal := outcome (s.round k3 parity)

/-- C.FEED (R172). -/
def execCFeed (s : State) : Host.Outcome State Fault Refusal := .next s.feedForward

end Sys2Proof.Machine
end

