-- ==== Sys2Proof/Machine/HostInterface.lean ====
section
/-! DEFINITION. The host transactions (`43_host_interface.md` R212 to R221) and the reset input
(`70_reset_and_hazards.md` R262). -/

namespace Sys2Proof.Machine

/-- H.RDCTRL (R214): CTRL reads as 0, also while a computation runs. -/
def execHRdctrl (s : State) : Host.Outcome State Fault Refusal := .next (s.respond 0)

/-- H.RDSTATUS (R215). -/
def execHRdstatus (s : State) : Host.Outcome State Fault Refusal := .next (s.respond (statusWord s))

/-- H.RDLEN_LO (R218). -/
def execHRdlenLo (s : State) : Host.Outcome State Fault Refusal := .next (s.respond (lenLow s.LEN))

/-- H.RDLEN_HI (R219). -/
def execHRdlenHi (s : State) : Host.Outcome State Fault Refusal := .next (s.respond (lenHighRead s.LEN))

/-- H.RDDIGEST0 (R220). -/
def execHRddigest0 (s : State) : Host.Outcome State Fault Refusal := .next (s.readDigest 0)

/-- H.RDDIGEST1 (R220). -/
def execHRddigest1 (s : State) : Host.Outcome State Fault Refusal := .next (s.readDigest 1)

/-- H.RDDIGEST2 (R220). -/
def execHRddigest2 (s : State) : Host.Outcome State Fault Refusal := .next (s.readDigest 2)

/-- H.RDDIGEST3 (R220). -/
def execHRddigest3 (s : State) : Host.Outcome State Fault Refusal := .next (s.readDigest 3)

/-- H.RDDIGEST4 (R220). -/
def execHRddigest4 (s : State) : Host.Outcome State Fault Refusal := .next (s.readDigest 4)

/-- H.START: accepted while `BUSY = 0` (R212), ignored while `BUSY = 1` (R213). Data bits 31:1 are ignored, and bit 0
is what selected this row. -/
def execHStart (_data : Word) (s : State) : Host.Outcome State Fault Refusal :=
  .next (if s.BUSY then s else s.acceptStart)

/-- H.NOP (R221): no effect. -/
def execHNop (_data : Word) (s : State) : Host.Outcome State Fault Refusal := .next s

/-- H.WRLEN_LO (R216). -/
def execHWrlenLo (data : Word) (s : State) : Host.Outcome State Fault Refusal :=
  .next (s.writeLen (withLenLow s.LEN data))

/-- H.WRLEN_HI (R217). -/
def execHWrlenHi (data : Word) (s : State) : Host.Outcome State Fault Refusal :=
  .next (s.writeLen (withLenHigh s.LEN data))

/-- H.RESET (R262). -/
def execHReset (s : State) : Host.Outcome State Fault Refusal := .next s.hardReset

end Sys2Proof.Machine
end

