-- ==== Sys2Proof/Machine/Orchestrator.lean ====
section
/-! DEFINITION. The Orchestrator's micro-operations (`42_orchestrator.md` R192 to R194) and the exception's entry
(`60_exceptions.md` R233). -/

namespace Sys2Proof.Machine

/-- O.INIT (R192). -/
def execOInit (s : State) : Host.Outcome State Fault Refusal := .next s.initHash

/-- O.NEXT (R193): changes nothing but `FSM`. -/
def execONext (s : State) : Host.Outcome State Fault Refusal :=
  .next (s.goto (if s.BLK < s.N then .load else .release))

/-- O.RELEASE (R194). -/
def execORelease (s : State) : Host.Outcome State Fault Refusal := .next s.releasePad

/-- O.FAIL (R233). -/
def execOFail (s : State) : Host.Outcome State Fault Refusal := .next s.enterResourceExhausted

end Sys2Proof.Machine
end

