-- ==== Sys2Proof/Machine/Padder.lean ====
section
/-! DEFINITION. The Padder's micro-operations (`40_padder.md` R131 to R140). -/

namespace Sys2Proof.Machine

/-- P.COUNT (R131). -/
def execPCount (s : State) : Host.Outcome State Fault Refusal := .next (s.counted (blockCount s.LEN.toNat))

/-- P.ALLOC (R132): obtains the storage, or raises ResourceExhausted. -/
def execPAlloc (s : State) : Host.Outcome State Fault Refusal :=
  .next (if s.allocOK (16 * s.N) then s.allocated else s.raiseResourceExhausted)

/-- P.WORD (R133). -/
def execPWord (s : State) : Host.Outcome State Fault Refusal :=
  outcome do
    let b0 ← s.readMsg (4 * s.IDX)
    let b1 ← s.readMsg (4 * s.IDX + 1)
    let b2 ← s.readMsg (4 * s.IDX + 2)
    let b3 ← s.readMsg (4 * s.IDX + 3)
    s.storeNext (messageWord b0 b1 b2 b3) (afterWord s.LEN.toNat)

/-- P.TAIL0 (R134). Reads no message byte. -/
def execPTail0 (s : State) : Host.Outcome State Fault Refusal := outcome (s.storeNext tailWord0 afterFill)

/-- P.TAIL1 (R135). -/
def execPTail1 (s : State) : Host.Outcome State Fault Refusal :=
  outcome do
    let b0 ← s.readMsg (4 * s.IDX)
    s.storeNext (tailWord1 b0) afterFill

/-- P.TAIL2 (R136). -/
def execPTail2 (s : State) : Host.Outcome State Fault Refusal :=
  outcome do
    let b0 ← s.readMsg (4 * s.IDX)
    let b1 ← s.readMsg (4 * s.IDX + 1)
    s.storeNext (tailWord2 b0 b1) afterFill

/-- P.TAIL3 (R137). -/
def execPTail3 (s : State) : Host.Outcome State Fault Refusal :=
  outcome do
    let b0 ← s.readMsg (4 * s.IDX)
    let b1 ← s.readMsg (4 * s.IDX + 1)
    let b2 ← s.readMsg (4 * s.IDX + 2)
    s.storeNext (tailWord3 b0 b1 b2) afterFill

/-- P.ZERO (R138). -/
def execPZero (s : State) : Host.Outcome State Fault Refusal := outcome (s.storeNext 0 afterFill)

/-- P.LENHI (R139). -/
def execPLenhi (s : State) : Host.Outcome State Fault Refusal :=
  outcome (s.storeNext (lengthHigh s.LEN) fun _ => .lenlo)

/-- P.LENLO (R140). -/
def execPLenlo (s : State) : Host.Outcome State Fault Refusal :=
  outcome (s.storeNext (lengthLow s.LEN) fun _ => .init)

end Sys2Proof.Machine
end

