-- ==== Sys2Proof/Syntax.lean ====
section
/-! DEFINITION. The syntax: one constructor per row of spec/opcode_table.json, and the three selector formats of
`30_encoding.md` (UOP R100, HOST R103, PIN R107). -/

namespace Sys2Proof

/-- The micro-operations, host transactions and the reset input. Micro-operations and host reads have no operand
field; a host write carries its 32 bits of data (R103). -/
inductive Instr
  /-- P.COUNT: compute the number of blocks (R131). -/
  | pCount
  /-- P.ALLOC: obtain `16*N` words or fail (R132). -/
  | pAlloc
  /-- P.WORD: copy one full 4-byte group (R133). -/
  | pWord
  /-- P.TAIL0: marker word, no byte left over (R134). -/
  | pTail0
  /-- P.TAIL1: marker word, one byte left over (R135). -/
  | pTail1
  /-- P.TAIL2: marker word, two bytes left over (R136). -/
  | pTail2
  /-- P.TAIL3: marker word, three bytes left over (R137). -/
  | pTail3
  /-- P.ZERO: write one zero word (R138). -/
  | pZero
  /-- P.LENHI: write the high length word (R139). -/
  | pLenhi
  /-- P.LENLO: write the low length word (R140). -/
  | pLenlo
  /-- O.INIT: `H <- IV` (R192). -/
  | oInit
  /-- O.NEXT: another block, or finish (R193). -/
  | oNext
  /-- C.LOAD: block into the ring, `H` into `A..E` (R161). -/
  | cLoad
  /-- C.SCHED: expand one schedule word (R162). -/
  | cSched
  /-- C.ROUND0: a round of phase 0 (R167). -/
  | cRound0
  /-- C.ROUND1: a round of phase 1 (R168). -/
  | cRound1
  /-- C.ROUND2: a round of phase 2 (R169). -/
  | cRound2
  /-- C.ROUND3: a round of phase 3 (R170). -/
  | cRound3
  /-- C.FEED: feed-forward (R172). -/
  | cFeed
  /-- O.RELEASE: release `P`, report completion (R194). -/
  | oRelease
  /-- O.FAIL: report ResourceExhausted (R233). -/
  | oFail
  /-- H.RDCTRL: read CTRL (R214). -/
  | hRdctrl
  /-- H.RDSTATUS: read STATUS (R215). -/
  | hRdstatus
  /-- H.RDLEN_LO: read LEN_LO (R218). -/
  | hRdlenLo
  /-- H.RDLEN_HI: read LEN_HI (R219). -/
  | hRdlenHi
  /-- H.RDDIGEST0: read DIGEST0 (R220). -/
  | hRddigest0
  /-- H.RDDIGEST1: read DIGEST1 (R220). -/
  | hRddigest1
  /-- H.RDDIGEST2: read DIGEST2 (R220). -/
  | hRddigest2
  /-- H.RDDIGEST3: read DIGEST3 (R220). -/
  | hRddigest3
  /-- H.RDDIGEST4: read DIGEST4 (R220). -/
  | hRddigest4
  /-- H.START: write CTRL with bit 0 = 1 (R212, R213). -/
  | hStart (data : Word)
  /-- H.NOP: write CTRL with bit 0 = 0 (R221). -/
  | hNop (data : Word)
  /-- H.WRLEN_LO: write LEN_LO (R216). -/
  | hWrlenLo (data : Word)
  /-- H.WRLEN_HI: write LEN_HI (R217). -/
  | hWrlenHi (data : Word)
  /-- H.RESET: the reset input asserted (R262). -/
  | hReset
  deriving DecidableEq, Repr

/-- What selects an operation: the control state's `op_sel` (R100), a host access (R103), or the reset input (R107).
The three are separate channels of the block, so the same number means different things on different ones. -/
inductive Selector
  /-- Format UOP: `op_sel = {FSM[3:0], sel[1:0]}`. -/
  | uop (opSel : BitVec 6)
  /-- Format HOST: `hsel = {wr, reg[3:0]}`, with the write data (of no meaning when `wr = 0`). -/
  | host (hsel : BitVec 5) (data : Word)
  /-- Format PIN: the level of the reset input. -/
  | pin (rst : Bool)
  deriving DecidableEq, Repr

end Sys2Proof
end

