-- ==== Sys2Proof/Machine/Dispatch.lean ====
section
/-! DEFINITION. One arm per instruction. -/

namespace Sys2Proof.Machine

def exec (i : Instr) (s : State) : Host.Outcome State Fault Refusal :=
  match i with
  | .pCount => Sys2Proof.Machine.execPCount s
  | .pAlloc => Sys2Proof.Machine.execPAlloc s
  | .pWord => Sys2Proof.Machine.execPWord s
  | .pTail0 => Sys2Proof.Machine.execPTail0 s
  | .pTail1 => Sys2Proof.Machine.execPTail1 s
  | .pTail2 => Sys2Proof.Machine.execPTail2 s
  | .pTail3 => Sys2Proof.Machine.execPTail3 s
  | .pZero => Sys2Proof.Machine.execPZero s
  | .pLenhi => Sys2Proof.Machine.execPLenhi s
  | .pLenlo => Sys2Proof.Machine.execPLenlo s
  | .oInit => Sys2Proof.Machine.execOInit s
  | .oNext => Sys2Proof.Machine.execONext s
  | .cLoad => Sys2Proof.Machine.execCLoad s
  | .cSched => Sys2Proof.Machine.execCSched s
  | .cRound0 => Sys2Proof.Machine.execCRound0 s
  | .cRound1 => Sys2Proof.Machine.execCRound1 s
  | .cRound2 => Sys2Proof.Machine.execCRound2 s
  | .cRound3 => Sys2Proof.Machine.execCRound3 s
  | .cFeed => Sys2Proof.Machine.execCFeed s
  | .oRelease => Sys2Proof.Machine.execORelease s
  | .oFail => Sys2Proof.Machine.execOFail s
  | .hRdctrl => Sys2Proof.Machine.execHRdctrl s
  | .hRdstatus => Sys2Proof.Machine.execHRdstatus s
  | .hRdlenLo => Sys2Proof.Machine.execHRdlenLo s
  | .hRdlenHi => Sys2Proof.Machine.execHRdlenHi s
  | .hRddigest0 => Sys2Proof.Machine.execHRddigest0 s
  | .hRddigest1 => Sys2Proof.Machine.execHRddigest1 s
  | .hRddigest2 => Sys2Proof.Machine.execHRddigest2 s
  | .hRddigest3 => Sys2Proof.Machine.execHRddigest3 s
  | .hRddigest4 => Sys2Proof.Machine.execHRddigest4 s
  | .hStart data => Sys2Proof.Machine.execHStart data s
  | .hNop data => Sys2Proof.Machine.execHNop data s
  | .hWrlenLo data => Sys2Proof.Machine.execHWrlenLo data s
  | .hWrlenHi data => Sys2Proof.Machine.execHWrlenHi data s
  | .hReset => Sys2Proof.Machine.execHReset s

end Sys2Proof.Machine
end

