-- ==== Sys2Proof/WellFormed.lean ====
section
/-! DEFINITION. The checks on instructions: the write data of the two rows that share `hsel = 0x10` must have the
bit 0 that selects the row (`30_encoding.md` R104). No other row has a field that could be out of range. -/

namespace Sys2Proof

/-- R104: "For H.START the write data must have bit 0 = 1 (`data & 1 = 1`); a write to CTRL with bit 0 = 0 is
H.NOP." -/
def Instr.wellFormed : Instr → Bool
  | .hStart data => data.getLsbD 0
  | .hNop data => !data.getLsbD 0
  | _ => true

end Sys2Proof
end

