-- ==== Sys2Proof/Decode.lean ====
section
/-! DEFINITION. The decoder, total on every selector and rejecting by name, then the encoder, both written from the
opcode maps of `30_encoding.md` (R102 micro-operations, R104 host transactions, R107 reset). -/

namespace Sys2Proof

/-- Why a selector stands for no instruction. -/
inductive DecodeError
  /-- `op_sel = 0x00`: the block is IDLE and performs no micro-operation (R101). -/
  | idle
  /-- One of the 42 `op_sel` values no state produces (R105). -/
  | unreachableSelector (opSel : BitVec 6)
  /-- A read of a reserved register number: returns 0, changes nothing (R46, R106, R221). -/
  | reservedRead (hsel : BitVec 5)
  /-- A write to a read-only or reserved register number: ignored (R45, R46, R106, R221). -/
  | ignoredWrite (hsel : BitVec 5)
  /-- The reset input is not asserted (R107). -/
  | resetReleased
  deriving DecidableEq, Repr

/-- The opcode map of micro-operations, in `op_sel` order (R102); every other value is rejected (R101, R105). -/
def decodeUop (opSel : BitVec 6) : Except DecodeError Instr :=
  match opSel.toNat with
  | 0x00 => .error .idle
  | 0x04 => .ok .pCount
  | 0x08 => .ok .pAlloc
  | 0x0C => .ok .pWord
  | 0x10 => .ok .pTail0
  | 0x11 => .ok .pTail1
  | 0x12 => .ok .pTail2
  | 0x13 => .ok .pTail3
  | 0x14 => .ok .pZero
  | 0x18 => .ok .pLenhi
  | 0x1C => .ok .pLenlo
  | 0x20 => .ok .oInit
  | 0x24 => .ok .oNext
  | 0x28 => .ok .cLoad
  | 0x2C => .ok .cSched
  | 0x30 => .ok .cRound0
  | 0x31 => .ok .cRound1
  | 0x32 => .ok .cRound2
  | 0x33 => .ok .cRound3
  | 0x34 => .ok .cFeed
  | 0x38 => .ok .oRelease
  | 0x3C => .ok .oFail
  | _ => .error (.unreachableSelector opSel)

/-- The opcode map of host transactions (R104). Only a write to CTRL looks at the data to choose its row. Bit 4 of
`hsel` is `wr`; the accesses without a row are told apart by it (R106). -/
def decodeHost (hsel : BitVec 5) (data : Word) : Except DecodeError Instr :=
  match hsel.toNat with
  | 0x00 => .ok .hRdctrl
  | 0x01 => .ok .hRdstatus
  | 0x02 => .ok .hRdlenLo
  | 0x03 => .ok .hRdlenHi
  | 0x08 => .ok .hRddigest0
  | 0x09 => .ok .hRddigest1
  | 0x0A => .ok .hRddigest2
  | 0x0B => .ok .hRddigest3
  | 0x0C => .ok .hRddigest4
  | 0x10 => .ok (if data.getLsbD 0 then .hStart data else .hNop data)
  | 0x12 => .ok (.hWrlenLo data)
  | 0x13 => .ok (.hWrlenHi data)
  | _ => .error (if hsel.getLsbD 4 then .ignoredWrite hsel else .reservedRead hsel)

/-- R107: H.RESET is `rst = 1`. -/
def decodePin (rst : Bool) : Except DecodeError Instr :=
  if rst then .ok .hReset else .error .resetReleased

/-- The instruction a selector stands for. -/
def decode : Selector → Except DecodeError Instr
  | .uop opSel => decodeUop opSel
  | .host hsel data => decodeHost hsel data
  | .pin rst => decodePin rst

/-- The selector of an instruction: `op_sel` by R102, `hsel` with the write data by R104 (data of a read is of no
meaning and is written as 0), the reset input by R107. -/
def encode : Instr → Selector
  | .pCount => .uop 0x04
  | .pAlloc => .uop 0x08
  | .pWord => .uop 0x0C
  | .pTail0 => .uop 0x10
  | .pTail1 => .uop 0x11
  | .pTail2 => .uop 0x12
  | .pTail3 => .uop 0x13
  | .pZero => .uop 0x14
  | .pLenhi => .uop 0x18
  | .pLenlo => .uop 0x1C
  | .oInit => .uop 0x20
  | .oNext => .uop 0x24
  | .cLoad => .uop 0x28
  | .cSched => .uop 0x2C
  | .cRound0 => .uop 0x30
  | .cRound1 => .uop 0x31
  | .cRound2 => .uop 0x32
  | .cRound3 => .uop 0x33
  | .cFeed => .uop 0x34
  | .oRelease => .uop 0x38
  | .oFail => .uop 0x3C
  | .hRdctrl => .host 0x00 0
  | .hRdstatus => .host 0x01 0
  | .hRdlenLo => .host 0x02 0
  | .hRdlenHi => .host 0x03 0
  | .hRddigest0 => .host 0x08 0
  | .hRddigest1 => .host 0x09 0
  | .hRddigest2 => .host 0x0A 0
  | .hRddigest3 => .host 0x0B 0
  | .hRddigest4 => .host 0x0C 0
  | .hStart data => .host 0x10 data
  | .hNop data => .host 0x10 data
  | .hWrlenLo data => .host 0x12 data
  | .hWrlenHi data => .host 0x13 data
  | .hReset => .pin true

/-- A word of spec/opcode_table.json as a selector. The table gives each row a number within its own format, 6 bits
for UOP, the 6 bits `{data[0], hsel}` for HOST (R104), 1 bit for PIN, and the number alone does not say the format.
DESIGN CHOICE (log entry 15): fewer than 6 bits is PIN; of the rest, a number that is a micro-operation's `op_sel` is
UOP; any other is HOST, with bits above 5 continuing the write data. -/
def tableSelector (nbits w : Nat) : Selector :=
  if nbits < 6 then .pin (w.testBit 0)
  else if w < 64 && (decodeUop (BitVec.ofNat 6 w)).toBool then .uop (BitVec.ofNat 6 w)
  else .host (BitVec.ofNat 5 w) (BitVec.ofNat 32 (w / 32))

/-- The instruction the decoder reads from a word numbered as spec/opcode_table.json numbers it. -/
def decodeTableWord (nbits w : Nat) : Option Instr :=
  (decode (tableSelector nbits w)).toOption

end Sys2Proof
end

