-- ==== Sys2Proof/Machine/Fetch.lean ====
section
/-! DEFINITION. Which operation the next step performs: whose turn it is (`43_host_interface.md` R210), what its
selector stands for (`30_encoding.md` R101, R106), and the reset input held (`70_reset_and_hazards.md` R262). There is
no instruction memory and no fetch from one (R80). -/

namespace Sys2Proof.Machine

/-- What the turn comes to. -/
inductive Fetched
  /-- An instruction, to be executed in this state. -/
  | run (i : Instr) (s : State)
  /-- No instruction; the turn leaves this state. -/
  | done (s : State)
  /-- The model takes no step. -/
  | refuse (r : Refusal)

/-- The operation a selector stands for, and what the accesses without a row do: a reserved register reads as 0, a
write to a read-only or reserved register is ignored (R106, R221). In IDLE, and on release of reset, nothing is
performed (R101; log entries 1 and 7). The 42 selectors no state produces are never asked for (R105). -/
def select (sel : Selector) (s : State) : Fetched :=
  match decode sel with
  | .ok i => .run i s
  | .error .idle => .done s
  | .error .resetReleased => .done s
  | .error (.reservedRead _) => .done (s.respond 0)
  | .error (.ignoredWrite _) => .done s
  | .error (.unreachableSelector _) => .refuse .noSelector

/-- The block's turn (R101). While reset stays asserted no micro-operation takes effect (R262). -/
def blockTurn (s : State) : Fetched :=
  if s.rst then .done s
  else match opSel s with
    | some op => select (.uop op) s
    | none => .refuse .noSelector

/-- The host's turn (R103). While reset stays asserted no host transaction takes effect (R262). -/
def accessTurn (hsel : BitVec 5) (data : Word) (s : State) : Fetched :=
  if s.rst then .done s else select (.host hsel data) s

/-- The reset input changes (R107, R262; DESIGN CHOICE, log entry 7). -/
def pinTurn (level : Bool) (s : State) : Fetched := select (.pin level) (s.setPin level)

/-- The platform places a message. No agent has a move that changes the message while `BUSY = 1` (R270, U2;
DESIGN CHOICE, safe: log entry 12). -/
def messageTurn (bytes : List Byte) (s : State) : Fetched :=
  if s.BUSY then .refuse .messageChangedWhileBusy else .done (s.placeMessage bytes)

/-- The next turn. Once the list is empty every turn is the block's (R276; DESIGN CHOICE, log entry 6). -/
def fetch (s : State) : Fetched :=
  match s.inbox with
  | [] => blockTurn s
  | .block :: rest => blockTurn (s.takeTurn rest)
  | .access hsel data :: rest => accessTurn hsel data (s.takeTurn rest)
  | .pin level :: rest => pinTurn level (s.takeTurn rest)
  | .message bytes :: rest => messageTurn bytes (s.takeTurn rest)

/-- It is the block's turn. -/
def State.blocksTurn (s : State) : Prop := s.inbox = [] ∨ ∃ rest, s.inbox = .block :: rest

/-- The state once the turn at the head of the list, if there is one, has been taken. -/
def State.afterTurn (s : State) : State := s.takeTurn s.inbox.tail

/-! ### Placing an operation to be performed next

A host transaction or the reset input is a turn put at the head of the list. A micro-operation is not stored anywhere: it
is selected by the control state, so placing it is putting the block in the control state that selects it (R100, R101),
computation in progress, with the counters its rule says it executes only with. DESIGN CHOICE (log entry 6). -/

/-- A computation over one block is in progress, its message `len` bytes long, `P` allocated and `idx` reached. -/
def State.inOneBlock (s : State) (len : BitVec 61) (idx : Nat) : State :=
  { s with LEN := len, N := 1, P := [], PVALID := true, PLEN := 16, IDX := idx, BLK := 0 }

/-- At COPY, with `IDX < q` (R133). -/
def State.atWord (s : State) : State :=
  let s := s.goto .copy
  if s.padRoom s.IDX && decide (s.IDX < s.LEN.toNat / 4) then s else s.inOneBlock 4 0

/-- At TAIL, with `LEN mod 4 = r` and `IDX = q` (R134 to R137). -/
def State.atTail (s : State) (r : Nat) : State :=
  let s := s.goto .tail
  if s.padRoom s.IDX && decide (s.LEN.toNat % 4 = r) && decide (s.IDX = s.LEN.toNat / 4) then s
  else s.inOneBlock (BitVec.ofNat 61 r) 0

/-- At one of the fill states, with `IDX` at a position `ok` accepts (R138 to R140). -/
def State.atFill (s : State) (f : Fsm) (ok : Nat → Bool) (idx : Nat) : State :=
  let s := s.goto f
  if s.padRoom s.IDX && ok (s.IDX % 16) then s else s.inOneBlock s.LEN idx

/-- At LOAD, with `BLK < N` (R161). -/
def State.atLoad (s : State) : State :=
  let s := s.goto .load
  if s.PVALID && decide (16 * s.BLK + 15 < s.PLEN) && decide (s.BLK < s.N) then s else s.inOneBlock s.LEN 16

/-- At a state that depends on `T`, with `T` where `ok` says (R162, R167 to R172). -/
def State.atRound (s : State) (f : Fsm) (ok : Nat → Bool) (t : BitVec 7) : State :=
  let s := s.goto f
  if ok s.T.toNat then s else { s with T := t }

/-- The control state that selects a micro-operation. -/
def State.controlFor (s : State) : Instr → State
  | .pCount => s.goto .count
  | .pAlloc => s.goto .alloc
  | .pWord => s.atWord
  | .pTail0 => s.atTail 0
  | .pTail1 => s.atTail 1
  | .pTail2 => s.atTail 2
  | .pTail3 => s.atTail 3
  | .pZero => s.atFill .zero (· != 14) 1
  | .pLenhi => s.atFill .lenhi (· == 14) 14
  | .pLenlo => s.atFill .lenlo (· == 15) 15
  | .oInit => s.goto .init
  | .oNext => s.goto .next
  | .cLoad => s.atLoad
  | .cSched => s.atRound .sched (fun t => decide (16 ≤ t ∧ t ≤ 79)) 16
  | .cRound0 => s.atRound .round (fun t => t / 20 == 0) 0
  | .cRound1 => s.atRound .round (fun t => t / 20 == 1) 20
  | .cRound2 => s.atRound .round (fun t => t / 20 == 2) 40
  | .cRound3 => s.atRound .round (fun t => t / 20 == 3) 60
  | .cFeed => s.atRound .feed (fun t => t == 80) 80
  | .oRelease => s.goto .release
  | .oFail => s.goto .fail
  | _ => s

/-- A micro-operation is next: it is the block's turn, reset is released, the control state selects it. -/
def State.placeUop (s : State) (i : Instr) : State :=
  { s.controlFor i with BUSY := true, rst := false, inbox := .block :: s.inbox }

/-- A selector is next. -/
def State.placeSelector (s : State) : Selector → State
  | .uop opSel =>
    match decodeUop opSel with
    | .ok i => s.placeUop i
    | .error _ => s
  | .host hsel data => { s with rst := false, inbox := .access hsel data :: s.inbox }
  | .pin level => { s with inbox := .pin level :: s.inbox }

end Sys2Proof.Machine
end

