-- ==== Sys2Proof/Machine/Step.lean ====
section
/-! DEFINITION. One step: one turn of one agent (`20_memory.md` R72, `43_host_interface.md` R210). -/

namespace Sys2Proof.Machine

/-- The operation the next turn comes to, executed. -/
def step (s : State) : Host.Outcome State Fault Refusal :=
  match fetch s with
  | .run i s => exec i s
  | .done s => .next s
  | .refuse r => .refused r

/-- The state in which the very next step performs the instruction of this word of spec/opcode_table.json (log entry
15 says how the table's numbers are read, log entry 6 how a program comes to run). -/
def State.withFetchWord (s : State) (nbits w : Nat) : State := s.placeSelector (tableSelector nbits w)

end Sys2Proof.Machine
end

