-- ==== Sys2Proof/Contract.lean ====
section
/-! DEFINITION. The contracts of the three components as plain functions, written apart from the machine: what the
Padder produces (R130, R144), what the Compressor computes (R160, R173), what the Orchestrator returns (R191). Statements
compare the machine with them. The constants are the machine's (R96, R97). -/

namespace Sys2Proof.Contract

open Machine

/-- The block count in closed form (R141). -/
def blocks (L : Nat) : Nat := (L + 72) / 64

/-- The finished sequence as a byte string (R144): the message, the marker 0x80, zeros, and the eight bytes of the bit
length, most significant first. -/
def paddedByte (M : Nat → Byte) (L k : Nat) : Byte :=
  if k < L then M k
  else if k = L then 0x80
  else if k + 8 < 64 * blocks L then 0
  else BitVec.ofNat 8 (8 * L / 2 ^ (8 * (64 * blocks L - 1 - k)))

/-- Word `i` of the finished sequence: its four bytes assembled big-endian, as the sum of R66. -/
def paddedWord (M : Nat → Byte) (L i : Nat) : Word :=
  BitVec.ofNat 32
    ((paddedByte M L (4 * i)).toNat * 2 ^ 24 + (paddedByte M L (4 * i + 1)).toNat * 2 ^ 16 +
      (paddedByte M L (4 * i + 2)).toNat * 2 ^ 8 + (paddedByte M L (4 * i + 3)).toNat)

/-- The next word of the logical schedule, from the words before it, newest first (R173). -/
def nextScheduleWord (l : List Word) : Word :=
  (l.getD 2 0 ^^^ l.getD 7 0 ^^^ l.getD 13 0 ^^^ l.getD 15 0).rotateLeft 1

/-- The logical schedule (R173) after `n` expansions, newest word first. -/
def scheduleRev (block : Nat → Word) : Nat → List Word
  | 0 => (List.range 16).reverse.map block
  | n + 1 => nextScheduleWord (scheduleRev block n) :: scheduleRev block n

/-- `w_t` (R173). -/
def schedule (block : Nat → Word) (t : Nat) : Word :=
  if t < 16 then block t else (scheduleRev block (t - 15)).headD 0

/-- `K[p]` of round `t` (R163). -/
def roundConstant (t : Nat) : Word :=
  if t < 20 then k0 else if t < 40 then k1 else if t < 60 then k2 else k3

/-- `f_p` of round `t`, spelled as R164 does: choose, parity, majority. -/
def roundFunction (t : Nat) (b c d : Word) : Word :=
  if t < 20 then (b &&& c) ||| (~~~b &&& d)
  else if t < 40 then b ^^^ c ^^^ d
  else if t < 60 then (b &&& c) ||| (b &&& d) ||| (c &&& d)
  else b ^^^ c ^^^ d

/-- Round `t` on the working registers (R160). -/
def round (block : Nat → Word) (t : Nat) (v : Vector Word 5) : Vector Word 5 :=
  #v[roundConstant t + v[4] + v[0].rotateLeft 5 + roundFunction t v[1] v[2] v[3] + schedule block t,
    v[0], v[1].rotateLeft 30, v[2], v[3]]

/-- The working registers after the first `t` rounds (R160). -/
def rounds (block : Nat → Word) (h : Vector Word 5) : Nat → Vector Word 5
  | 0 => h
  | t + 1 => round block t (rounds block h t)

/-- The feed-forward, componentwise modulo 2^32 (R160, R172). -/
def feedForward (h v : Vector Word 5) : Vector Word 5 :=
  #v[h[0] + v[0], h[1] + v[1], h[2] + v[2], h[3] + v[3], h[4] + v[4]]

/-- `COMPRESS(block, h)` (R160). -/
def compress (block : Nat → Word) (h : Vector Word 5) : Vector Word 5 := feedForward h (rounds block h 80)

/-- The sixteen words of block `k` of the finished sequence. -/
def block (M : Nat → Byte) (L k : Nat) : Nat → Word := fun j => paddedWord M L (16 * k + j)

/-- The Hash after the first `k` blocks (R191). -/
def chain (M : Nat → Byte) (L : Nat) : Nat → Vector Word 5
  | 0 => iv
  | k + 1 => compress (block M L k) (chain M L k)

/-- `DIGEST(M, L)` when the storage is granted (R191). -/
def digest (M : Nat → Byte) (L : Nat) : Vector Word 5 := chain M L (blocks L)

end Sys2Proof.Contract
end

