-- ==== Sys2Proof/Safety.lean ====
section
/-! DEFINITION. What counts as a sound state and a safe step, in the terms the statements use: the control invariant,
the data invariant, and the environment's duty. -/

namespace Sys2Proof.Machine

/-- From the grant of the storage to its release (R24, R195). -/
def Fsm.holdsPad : Fsm → Bool
  | .idle | .count | .alloc | .fail => false
  | .copy | .tail | .zero | .lenhi | .lenlo | .init | .next | .load | .sched | .round | .feed | .release => true

/-- From O.INIT to the release: `H` is the running Hash of this computation (R191). -/
def Fsm.hashing : Fsm → Bool
  | .next | .load | .sched | .round | .feed | .release => true
  | _ => false

/-- Where the running word index stands in each control state (R132 to R140, R143). -/
def State.indexInPlace (s : State) : Prop :=
  match s.FSM with
  | .copy => s.IDX < s.LEN.toNat / 4
  | .tail => s.IDX = s.LEN.toNat / 4
  | .zero => s.LEN.toNat / 4 < s.IDX ∧ s.IDX + 2 < 16 * s.N ∧ s.IDX % 16 ≠ 14
  | .lenhi => s.IDX + 2 = 16 * s.N
  | .lenlo => s.IDX + 1 = 16 * s.N
  | .init | .next | .load | .sched | .round | .feed | .release => s.IDX = 16 * s.N
  | .idle | .count | .alloc | .fail => True

/-- Where the block index and the round index stand in each control state (R31, R33, R161, R162, R172, R193). -/
def State.roundsInPlace (s : State) : Prop :=
  match s.FSM with
  | .next => s.BLK ≤ s.N
  | .load => s.BLK < s.N
  | .sched => s.BLK < s.N ∧ 16 ≤ s.T.toNat ∧ s.T.toNat ≤ 79
  | .round => s.BLK < s.N ∧ s.T.toNat ≤ 79
  | .feed => s.BLK < s.N ∧ s.T.toNat = 80
  | .release => s.BLK = s.N
  | _ => True

/-- The control invariant. No data word of the block is mentioned (R34). -/
structure State.Inv (s : State) : Prop where
  /-- `BUSY = 1` exactly when `FSM != IDLE` (R37). -/
  busy : s.BUSY = true ↔ s.FSM ≠ .idle
  /-- At most one of `BUSY`, `DONE`, `ERR` is 1 (R37). -/
  busy_clears : s.BUSY = true → s.DONE = false ∧ s.ERR = false
  done_or_err : ¬(s.DONE = true ∧ s.ERR = true)
  /-- `ERRCODE` is 1 when `ERR = 1` and 0 when `ERR = 0` (R42). -/
  code_err : s.ERR = true → s.ERRCODE = resourceExhaustedCode
  code_none : s.ERR = false → s.ERRCODE = 0
  /-- The padded sequence exists from P.ALLOC to O.RELEASE and at no other time (R24, R195). -/
  pvalid : s.PVALID = s.FSM.holdsPad
  /-- `PLEN = 16 * N` while `PVALID = 1`, else 0 (R24). -/
  plen_held : s.PVALID = true → s.PLEN = 16 * s.N
  plen_free : s.PVALID = false → s.PLEN = 0
  /-- From P.COUNT on, `N` is the block count of `LEN` (R25, R131). -/
  counted : s.FSM ≠ .idle → s.FSM ≠ .count → s.N = blockCount s.LEN.toNat
  index : s.indexInPlace
  rounds : s.roundsInPlace
  /-- The words written so far are those below `IDX`, each once, in order (R35, R143). -/
  written : ∀ i, (Memory.read s.P i).isSome = true ↔ s.PVALID = true ∧ i < s.IDX
  /-- Both memories keep their canonical form. -/
  pad_wf : Memory.wf s.P
  msg_wf : Memory.wf s.msg
  /-- A Hash being computed, or a digest reported, is not `novalue` (R35, R45). -/
  hash : s.FSM.hashing = true ∨ s.DONE = true → s.hashWritten = true

/-- The block now being compressed, as the contract gives it. -/
def State.currentBlock (s : State) : Nat → Word := Contract.block s.msgByte s.LEN.toNat s.BLK

/-- The last round whose schedule word the ring already holds (R173): round 15 after C.LOAD, round `T - 1` when C.SCHED
is due, round `T` once it has run. -/
def State.lastScheduled (s : State) : Nat :=
  match s.FSM with
  | .sched => s.T.toNat - 1
  | _ => max s.T.toNat 15

/-- The data invariant: at every moment of a computation the data registers hold what the contracts say. -/
structure State.DataInv (s : State) : Prop where
  /-- Every word written so far is the finished sequence's (R93, R144). -/
  pad : s.PVALID = true → ∀ i, i < s.IDX → s.padWord i = Contract.paddedWord s.msgByte s.LEN.toNat i
  /-- `H` is the Hash after the first `BLK` blocks (R191). -/
  hash : s.FSM.hashing = true → s.H = Contract.chain s.msgByte s.LEN.toNat s.BLK
  /-- `A..E` are the working registers after the first `T` rounds of the block (R160). -/
  work : s.FSM = .sched ∨ s.FSM = .round ∨ s.FSM = .feed →
    #v[s.A, s.B, s.C, s.D, s.E] = Contract.rounds s.currentBlock s.H s.T.toNat
  /-- The ring holds the sixteen latest words of the logical schedule, each in its slot (R173). -/
  ring : s.FSM = .sched ∨ s.FSM = .round →
    ∀ u, u ≤ s.lastScheduled → s.lastScheduled < u + 16 → ringAt s.W u = Contract.schedule s.currentBlock u

/-- The environment keeps its duty in the next step: it does not change the message while `BUSY = 1` (R270). -/
def State.dutyKept (s : State) : Prop :=
  s.BUSY = true → ∀ bytes rest, s.inbox ≠ .message bytes :: rest

/-- The block is left to itself: reset is released and the environment takes no turn. -/
def State.undisturbed (s : State) : Prop := s.rst = false ∧ s.inbox = []

/-! ### The transition table (R190), as the spec lays it out -/

/-- Column "micro-operation" of R190: what a control state selects, `r = LEN mod 4` in TAIL, `p = T div 20` in ROUND. -/
def State.microOp (s : State) : Option Instr :=
  match s.FSM with
  | .idle => none
  | .count => some .pCount
  | .alloc => some .pAlloc
  | .copy => some .pWord
  | .tail =>
    match s.LEN.toNat % 4 with
    | 0 => some .pTail0
    | 1 => some .pTail1
    | 2 => some .pTail2
    | _ => some .pTail3
  | .zero => some .pZero
  | .lenhi => some .pLenhi
  | .lenlo => some .pLenlo
  | .init => some .oInit
  | .next => some .oNext
  | .load => some .cLoad
  | .sched => some .cSched
  | .round =>
    match s.T.toNat / 20 with
    | 0 => some .cRound0
    | 1 => some .cRound1
    | 2 => some .cRound2
    | 3 => some .cRound3
    | _ => none
  | .feed => some .cFeed
  | .release => some .oRelease
  | .fail => some .oFail

/-- Column "successor and condition" of R190, from the state before (`s`) and the counters after the micro-operation's own
update (`t`). IDLE's row is about the host and stands in the statements. -/
def State.successor (s t : State) : Fsm :=
  match s.FSM with
  | .idle => .idle
  | .count => .alloc
  | .alloc => if s.allocOK (16 * s.N) then (if s.LEN.toNat / 4 > 0 then .copy else .tail) else .fail
  | .copy => if t.IDX = s.LEN.toNat / 4 then .tail else .copy
  | .tail => if t.IDX % 16 = 14 then .lenhi else .zero
  | .zero => if t.IDX % 16 = 14 then .lenhi else .zero
  | .lenhi => .lenlo
  | .lenlo => .init
  | .init => .next
  | .next => if s.BLK < s.N then .load else .release
  | .load => .round
  | .sched => .round
  | .round => if t.T.toNat = 80 then .feed else if 16 ≤ t.T.toNat then .sched else .round
  | .feed => .next
  | .release => .idle
  | .fail => .idle

/-! ### Relations between two states -/

/-- `t` is `s` after the word `v` has been written at `P[IDX]`, `IDX` has moved on by one, and control has gone to `f`:
every other word of `P` reads as before, and no other field of the state has changed. -/
def State.PadStore (s t : State) (v : Word) (f : Fsm) : Prop :=
  (∀ j, Memory.read t.P j = if j = s.IDX then some v else Memory.read s.P j) ∧
    t = { s with P := t.P, IDX := s.IDX + 1, FSM := f }

/-- The two states agree on everything but data words: the message, `P`, `W`, `H`, `A..E`, and the latest read's data.
What is left is the control state, the counters, `LEN`, the flags, the allocation, the rest of the environment and the
model's own fields. -/
def State.SameControl (s u : State) : Prop :=
  u = { s with H := u.H, A := u.A, B := u.B, C := u.C, D := u.D, E := u.E, W := u.W, P := u.P, msg := u.msg,
               rdata := u.rdata }

/-- The two states agree on everything a host can see: the hidden state of R48 may differ, `FSM` as far as `BUSY` does not
show it. -/
def State.SameForHost (s u : State) : Prop :=
  u = { s with A := u.A, B := u.B, C := u.C, D := u.D, E := u.E, W := u.W, P := u.P, PVALID := u.PVALID,
               PLEN := u.PLEN, N := u.N, FSM := u.FSM, T := u.T, IDX := u.IDX, BLK := u.BLK }

/-- Only the host's accesses and the block's own turns are still to come: no reset, no message. -/
def State.hostOnly (s : State) : Prop :=
  ∀ turn, turn ∈ s.inbox → turn = .block ∨ ∃ hsel data, turn = .access hsel data

end Sys2Proof.Machine
end

