-- ==== Sys2Proof/Certificates/Slice0/Obligations.lean ====
section
/-! DEFINITION. The statements for the provers, in the order of the spec's files. `{ s with ... }` in a conclusion is the
whole next state: the fields listed have the values the rule gives, and every other field, of the block and of its
environment, is unchanged (the frame). Where a statement rests on a choice of the model, its docstring names the log entry. -/

open Sys2Proof Sys2Proof.Machine

/-! ### Encodings (`30_encoding.md`) -/

/-- Decoding the selector of a well-formed instruction gives that instruction, with every value of the write data. The
encodings are R102, R104, R107. -/
def Obligations.EncodeDecodeRoundTrip : Prop :=
  ∀ i : Instr, i.wellFormed = true → decode (encode i) = .ok i

/-- Each selector that decodes has one meaning: the instruction is well-formed, it encodes back to that selector (the data
lines of a read, which carry nothing, written as 0), and no other instruction has that encoding. -/
def Obligations.DecodeThenEncodeGivesTheSelectorBack : Prop :=
  ∀ (sel : Selector) (i : Instr), decode sel = .ok i →
    i.wellFormed = true ∧
    (∀ op, sel = .uop op → encode i = .uop op) ∧
    (∀ hsel data, sel = .host hsel data →
      encode i = .host hsel (if 16 ≤ hsel.toNat then data else 0)) ∧
    (∀ level, sel = .pin level → encode i = .pin level) ∧
    (∀ j : Instr, j.wellFormed = true → encode j = encode i → j = i)

/-- Words written out from the tables of R102, R104 and R107, one or more of each family. -/
def Obligations.WordsOfTheSpecDecode : Prop :=
  decode (.uop 0b000100) = .ok .pCount ∧
  decode (.uop 0b010010) = .ok .pTail2 ∧
  decode (.uop 0b011100) = .ok .pLenlo ∧
  decode (.uop 0b101000) = .ok .cLoad ∧
  decode (.uop 0b110011) = .ok .cRound3 ∧
  decode (.uop 0b100100) = .ok .oNext ∧
  decode (.uop 0b111100) = .ok .oFail ∧
  decode (.host 0b00001 0) = .ok .hRdstatus ∧
  decode (.host 0b01100 0) = .ok .hRddigest4 ∧
  decode (.host 0b10000 0x00000003) = .ok (.hStart 0x00000003) ∧
  decode (.host 0b10000 0xfffffffe) = .ok (.hNop 0xfffffffe) ∧
  decode (.host 0b10011 0xe0000001) = .ok (.hWrlenHi 0xe0000001) ∧
  decode (.pin true) = .ok .hReset

/-- R105: 0x00 is no micro-operation, 21 values are micro-operations, the other 42 are answered "invalid", and no state of
the block asks for one of those. -/
def Obligations.UnreachableSelectorsAreRejected : Prop :=
  decode (.uop 0x00) = .error .idle ∧
  (∀ op : BitVec 6,
    op ∈ [0x04, 0x08, 0x0C, 0x10, 0x11, 0x12, 0x13, 0x14, 0x18, 0x1C, 0x20, 0x24, 0x28, 0x2C, 0x30, 0x31, 0x32, 0x33,
      0x34, 0x38, 0x3C] ↔ ∃ i, decode (.uop op) = .ok i) ∧
  (∀ op : BitVec 6,
    op ∈ [0x01, 0x02, 0x03, 0x05, 0x06, 0x07, 0x09, 0x0A, 0x0B, 0x0D, 0x0E, 0x0F, 0x15, 0x16, 0x17, 0x19, 0x1A, 0x1B,
      0x1D, 0x1E, 0x1F, 0x21, 0x22, 0x23, 0x25, 0x26, 0x27, 0x29, 0x2A, 0x2B, 0x2D, 0x2E, 0x2F, 0x35, 0x36, 0x37, 0x39,
      0x3A, 0x3B, 0x3D, 0x3E, 0x3F] ↔ decode (.uop op) = .error (.unreachableSelector op)) ∧
  (∀ (s : State) (op : BitVec 6), opSel s = some op → decode (.uop op) ≠ .error (.unreachableSelector op))

/-- The selector a control state has (R100) stands for the micro-operation the transition table gives it (R190), in every
state but a ROUND beyond round 79, which no run reaches. -/
def Obligations.ControlStateSelectsItsMicroOperation : Prop :=
  ∀ s : State, (s.FSM = .round → s.T.toNat ≤ 79) →
    ∃ op : BitVec 6, opSel s = some op ∧
      op.toNat = 4 * (fsmCode s.FSM).toNat +
        (if s.FSM = .tail then s.LEN.toNat % 4 else if s.FSM = .round then s.T.toNat / 20 else 0) ∧
      (decode (.uop op)).toOption = s.microOp ∧ (s.microOp = none ↔ s.FSM = .idle)

/-! ### What a step performs -/

/-- On the block's turn, reset released: the micro-operation `op_sel` stands for is executed, in the state from which the
turn has been taken; in IDLE nothing is performed; while reset is asserted nothing is performed. -/
def Obligations.StepRunsTheSelectedMicroOperation : Prop :=
  (∀ (s : State) (op : BitVec 6) (i : Instr), s.blocksTurn → s.rst = false → opSel s = some op →
    decode (.uop op) = .ok i → step s = exec i s.afterTurn) ∧
  (∀ s : State, s.blocksTurn → s.FSM = .idle → step s = .next s.afterTurn) ∧
  (∀ s : State, s.blocksTurn → s.rst = true → step s = .next s.afterTurn)

/-- On the host's turn the transaction its selector stands for is executed, unless reset is asserted; the reset input
asserted executes H.RESET at whatever state. How the agents' turns are held is the model's (log entries 6, 7). -/
def Obligations.StepPerformsTheTransaction : Prop :=
  (∀ (s : State) hsel data rest i, s.inbox = .access hsel data :: rest → s.rst = false →
    decode (.host hsel data) = .ok i → step s = exec i { s with inbox := rest }) ∧
  (∀ (s : State) hsel data rest, s.inbox = .access hsel data :: rest → s.rst = true →
    step s = .next { s with inbox := rest }) ∧
  (∀ (s : State) rest, s.inbox = .pin true :: rest → step s = exec .hReset { s with inbox := rest, rst := true }) ∧
  (∀ (s : State) rest, s.inbox = .pin false :: rest → step s = .next { s with inbox := rest, rst := false }) ∧
  (∀ (s : State) bytes rest, s.inbox = .message bytes :: rest → s.BUSY = false →
    ∃ t, step s = .next t ∧ t = { s with inbox := rest, msg := t.msg } ∧ ∀ off, Memory.read t.msg off = bytes[off]?)

/-- Every well-formed instruction can be put next, whatever the state, and then the very next step fetches exactly it and
goes on. This is about the model's own way of placing an instruction (log entry 6). -/
def Obligations.PlacedInstructionRuns : Prop :=
  ∀ (s : State) (i : Instr), i.wellFormed = true →
    ∃ u t, fetch (s.placeSelector (encode i)) = .run i u ∧ step (s.placeSelector (encode i)) = .next t

/-! ### Reset (`70_reset_and_hazards.md`) -/

/-- R260, of the reset state and of every state H.RESET leaves: IDLE, all flags 0, STATUS, LEN_LO, LEN_HI and CTRL read 0,
nothing allocated; and the block does nothing until the first H.START: on its turn nothing changes. -/
def Obligations.ResetLeavesTheBlockIdle : Prop :=
  ∀ r : State, (r = State.reset ∨ ∃ s, exec .hReset s = .next r) →
    r.FSM = .idle ∧ r.BUSY = false ∧ r.DONE = false ∧ r.ERR = false ∧ r.ERRCODE = 0 ∧
    r.PVALID = false ∧ r.PLEN = 0 ∧ (∀ i, Memory.read r.P i = none) ∧ r.LEN = 0 ∧
    exec .hRdstatus r = .next { r with rdata := 0 } ∧
    exec .hRdlenLo r = .next { r with rdata := 0 } ∧
    exec .hRdlenHi r = .next { r with rdata := 0 } ∧
    exec .hRdctrl r = .next { r with rdata := 0 } ∧
    (r.blocksTurn → step r = .next r.afterTurn)

/-- R262. H.RESET takes effect in every state, abandons the computation, releases the padded sequence, and leaves the
environment alone. The data registers become `novalue`: what they hold afterwards does not depend on what they held, only on
which draw it is (free values, log entry 3). While reset stays asserted nothing but the reset input's own release and the
platform's placing of a message has an effect. -/
def Obligations.ResetAbandonsEverything : Prop :=
  (∀ s : State, ∃ t, exec .hReset s = .next t ∧
    t = { s with FSM := .idle, BUSY := false, DONE := false, ERR := false, ERRCODE := 0, PVALID := false, PLEN := 0,
                 P := [], LEN := 0, H := t.H, A := t.A, B := t.B, C := t.C, D := t.D, E := t.E, W := t.W, N := t.N,
                 IDX := t.IDX, BLK := t.BLK, T := t.T, hashWritten := false, draws := t.draws }) ∧
  (∀ s u t v : State, s.draws = u.draws → exec .hReset s = .next t → exec .hReset u = .next v →
    t.H = v.H ∧ t.A = v.A ∧ t.B = v.B ∧ t.C = v.C ∧ t.D = v.D ∧ t.E = v.E ∧ t.W = v.W ∧ t.N = v.N ∧ t.IDX = v.IDX ∧
    t.BLK = v.BLK ∧ t.T = v.T) ∧
  (∀ s : State, s.rst = true → (s.blocksTurn ∨ ∃ hsel data rest, s.inbox = .access hsel data :: rest) →
    step s = .next { s with inbox := s.inbox.tail })

/-! ### Host transactions (`43_host_interface.md`) -/

/-- R212: a write to CTRL with bit 0 = 1, whatever bits 31:1 are, is H.START, and while `BUSY = 0` it is accepted whatever
`DONE` and `ERR` are. `calls` is the model's own count of computations (log entry 10). -/
def Obligations.StartBeginsAComputation : Prop :=
  ∀ (s : State) (data : Word), data.toNat % 2 = 1 → decode (.host 0b10000 data) = .ok (.hStart data) ∧
    (s.BUSY = false →
      ∃ k, exec (.hStart data) s =
        .next { s with BUSY := true, DONE := false, ERR := false, ERRCODE := 0, FSM := .count, calls := k })

/-- R213 and R273: while `BUSY = 1` no access of the host's disturbs the computation. Writes to CTRL, LEN_LO and LEN_HI are
lost, and of any access at all nothing is left but its own turn gone and the data a read returned (`rdata`, `draws`: log
entries 8, 9). -/
def Obligations.HostCannotDisturbAComputation : Prop :=
  (∀ (s : State) (data : Word), s.BUSY = true →
    exec (.hStart data) s = .next s ∧ exec (.hNop data) s = .next s ∧ exec (.hWrlenLo data) s = .next s ∧
    exec (.hWrlenHi data) s = .next s) ∧
  (∀ (s : State) hsel data rest, s.BUSY = true → s.inbox = .access hsel data :: rest →
    ∃ r k, step s = .next { s with inbox := rest, rdata := r, draws := k })

/-- R214, R218, R219: what reads of CTRL, LEN_LO and LEN_HI return, at any time, changing no state. -/
def Obligations.LengthAndControlReadsReturnTheRegister : Prop :=
  ∀ s : State,
    exec .hRdctrl s = .next { s with rdata := 0x00000000 } ∧
    exec .hRdlenLo s = .next { s with rdata := BitVec.ofNat 32 (s.LEN.toNat % 2 ^ 32) } ∧
    exec .hRdlenHi s = .next { s with rdata := BitVec.ofNat 32 (s.LEN.toNat / 2 ^ 32) } ∧
    s.LEN.toNat / 2 ^ 32 < 2 ^ 29

/-- R215, R42: STATUS returns BUSY in bit 0, DONE in bit 1, ERR in bit 2, ERRCODE in bits 7:4, changes no state, and in a
sound state has only the four values of the rule. -/
def Obligations.StatusReadsTheFlags : Prop :=
  ∀ s : State, ∃ v : Word,
    exec .hRdstatus s = .next { s with rdata := v } ∧
    v.toNat = s.BUSY.toNat + 2 * s.DONE.toNat + 4 * s.ERR.toNat + 16 * s.ERRCODE.toNat ∧
    (s.Inv →
      (v = 0x00000000 ∧ s.FSM = .idle ∧ s.DONE = false ∧ s.ERR = false) ∨
      (v = 0x00000001 ∧ s.FSM ≠ .idle) ∨
      (v = 0x00000002 ∧ s.FSM = .idle ∧ s.DONE = true) ∨
      (v = 0x00000014 ∧ s.FSM = .idle ∧ s.ERR = true))

/-- R216, R217 (and R43, R44): the effect of writing LEN_LO and LEN_HI, as numbers. -/
def Obligations.LengthWritesReplaceTheirPart : Prop :=
  ∀ (s : State) (data : Word),
    (s.BUSY = false →
      exec (.hWrlenLo data) s =
        .next { s with LEN := BitVec.ofNat 61 (s.LEN.toNat / 2 ^ 32 * 2 ^ 32 + data.toNat) } ∧
      exec (.hWrlenHi data) s =
        .next { s with LEN := BitVec.ofNat 61 (data.toNat % 2 ^ 29 * 2 ^ 32 + s.LEN.toNat % 2 ^ 32) }) ∧
    (s.BUSY = true → exec (.hWrlenLo data) s = .next s ∧ exec (.hWrlenHi data) s = .next s)

/-- R220: a read of DIGESTi always completes and changes no state but the returned data. It returns `H[i]` where the rule
gives it a value: `BUSY = 0` and `H` written since reset, in particular when `DONE = 1` in a sound state. Elsewhere the
returned word is free. That "`H` is not `novalue`" is kept in `hashWritten`, and free words in `draws`, is the model's (log
entry 9). -/
def Obligations.DigestReadsReturnTheHash : Prop :=
  ∀ (s : State) (i : Fin 5), ∃ r k,
    exec (match i with | 0 => .hRddigest0 | 1 => .hRddigest1 | 2 => .hRddigest2 | 3 => .hRddigest3 | 4 => .hRddigest4) s =
      .next { s with rdata := r, draws := k } ∧
    (s.BUSY = false → s.hashWritten = true → r = s.H[i] ∧ k = s.draws) ∧
    (s.Inv → s.DONE = true → r = s.H[i])

/-- R221, R46: H.NOP, and the accesses that have no row: writes to read-only and reserved registers are ignored, reads of
reserved registers return 0. -/
def Obligations.IgnoredAccessesChangeNothing : Prop :=
  (∀ (s : State) (data : Word), exec (.hNop data) s = .next s) ∧
  (∀ (s : State) hsel data rest, s.inbox = .access hsel data :: rest → s.rst = false →
    ((hsel = 0x10 ∧ data.toNat % 2 = 0) ∨
      hsel ∈ [0x11, 0x14, 0x15, 0x16, 0x17, 0x18, 0x19, 0x1A, 0x1B, 0x1C, 0x1D, 0x1E, 0x1F]) →
    step s = .next { s with inbox := rest }) ∧
  (∀ (s : State) hsel data rest, s.inbox = .access hsel data :: rest → s.rst = false →
    hsel ∈ [0x04, 0x05, 0x06, 0x07, 0x0D, 0x0E, 0x0F] →
    step s = .next { s with inbox := rest, rdata := 0x00000000 })

/-- R48: the hidden state cannot be observed. Two states that a host cannot tell apart answer any access alike, and the host
still cannot tell the results apart. -/
def Obligations.HiddenStateIsNotReadable : Prop :=
  ∀ (s u : State) hsel data rest, s.SameForHost u → s.inbox = .access hsel data :: rest →
    ∃ t v, step s = .next t ∧ step u = .next v ∧ t.SameForHost v

/-! ### The Padder (`40_padder.md`) -/

/-- R131 and R141: P.COUNT stores the source's count, which is the closed form, the least number of 64-byte blocks with room
for the message, the marker and the length. -/
def Obligations.CountStoresTheLeastNumberOfBlocks : Prop :=
  (∀ s : State, exec .pCount s = .next { s with N := (s.LEN.toNat + 72) / 64, FSM := .alloc }) ∧
  (∀ L : Nat,
    (L + 72) / 64 = (if (L + 1) % 64 ≤ 56 then (L + 1) / 64 + 1 else (L + 1) / 64 + 2) ∧
    1 ≤ (L + 72) / 64 ∧
    (∀ n, L + 9 ≤ 64 * n ↔ (L + 72) / 64 ≤ n))

/-- R132: with the storage granted, P.ALLOC sets up a sequence no word of which holds a value (an empty list of written
words) and goes to COPY or TAIL; with it refused, P.ALLOC raises ResourceExhausted, which changes `FSM` alone. -/
def Obligations.AllocObtainsTheStorageOrRaises : Prop :=
  (∀ s : State, s.allocOK (16 * s.N) = true →
    exec .pAlloc s =
      .next { s with PVALID := true, PLEN := 16 * s.N, P := [], IDX := 0,
                     FSM := if s.LEN.toNat / 4 > 0 then .copy else .tail }) ∧
  (∀ s : State, s.allocOK (16 * s.N) = false → exec .pAlloc s = .next { s with FSM := .fail })

/-- What a capacity of words means (`00_scope.md` section 5, D8): exactly the requests that fit are granted, and only those
messages whose blocks fit get their storage. The policies are log entry 5. -/
def Obligations.CapacityDecidesAllocation : Prop :=
  ∀ (s : State) (cap : Nat), s.alloc = .capacity cap → s.N = (s.LEN.toNat + 72) / 64 →
    ∃ t, exec .pAlloc s = .next t ∧
      (t.FSM = .fail ↔ cap < 16 * ((s.LEN.toNat + 72) / 64)) ∧ (t.FSM ≠ .fail → t.PVALID = true ∧ t.PLEN ≤ cap)

/-- R133: P.WORD, with `IDX < q` and `P[IDX]` within bounds, as the sum of the four bytes' places. -/
def Obligations.WordCopiesFourBytesBigEndian : Prop :=
  ∀ s : State, s.PVALID = true → s.IDX < s.PLEN → s.IDX < s.LEN.toNat / 4 →
    ∃ t, exec .pWord s = .next t ∧
      s.PadStore t
        (BitVec.ofNat 32 ((s.msgByte (4 * s.IDX)).toNat * 2 ^ 24 + (s.msgByte (4 * s.IDX + 1)).toNat * 2 ^ 16 +
          (s.msgByte (4 * s.IDX + 2)).toNat * 2 ^ 8 + (s.msgByte (4 * s.IDX + 3)).toNat))
        (if s.IDX + 1 = s.LEN.toNat / 4 then .tail else .copy)

/-- R134 to R137: the marker word, with `r` message bytes before the marker. The bytes read must be below `LEN`. -/
def Obligations.TailWritesTheMarkerWord : Prop :=
  ∀ s : State, s.PVALID = true → s.IDX < s.PLEN →
    (∃ t, exec .pTail0 s = .next t ∧ s.PadStore t 0x80000000 (if (s.IDX + 1) % 16 = 14 then .lenhi else .zero)) ∧
    (4 * s.IDX + 1 ≤ s.LEN.toNat → ∃ t, exec .pTail1 s = .next t ∧
      s.PadStore t (BitVec.ofNat 32 ((s.msgByte (4 * s.IDX)).toNat * 2 ^ 24 + 0x00800000))
        (if (s.IDX + 1) % 16 = 14 then .lenhi else .zero)) ∧
    (4 * s.IDX + 2 ≤ s.LEN.toNat → ∃ t, exec .pTail2 s = .next t ∧
      s.PadStore t
        (BitVec.ofNat 32 ((s.msgByte (4 * s.IDX)).toNat * 2 ^ 24 + (s.msgByte (4 * s.IDX + 1)).toNat * 2 ^ 16 +
          0x00008000))
        (if (s.IDX + 1) % 16 = 14 then .lenhi else .zero)) ∧
    (4 * s.IDX + 3 ≤ s.LEN.toNat → ∃ t, exec .pTail3 s = .next t ∧
      s.PadStore t
        (BitVec.ofNat 32 ((s.msgByte (4 * s.IDX)).toNat * 2 ^ 24 + (s.msgByte (4 * s.IDX + 1)).toNat * 2 ^ 16 +
          (s.msgByte (4 * s.IDX + 2)).toNat * 2 ^ 8 + 0x00000080))
        (if (s.IDX + 1) % 16 = 14 then .lenhi else .zero))

/-- R138 to R140: the zero word and the two words of the bit length, `LEN[60:29]` and `(LEN mod 2^29) * 8`, which are the
halves of `8 * LEN`. -/
def Obligations.FillWritesZerosAndTheBitLength : Prop :=
  ∀ s : State, s.PVALID = true → s.IDX < s.PLEN →
    (∃ t, exec .pZero s = .next t ∧ s.PadStore t 0x00000000 (if (s.IDX + 1) % 16 = 14 then .lenhi else .zero)) ∧
    (∃ t, exec .pLenhi s = .next t ∧ s.PadStore t (BitVec.ofNat 32 (s.LEN.toNat / 2 ^ 29)) .lenlo) ∧
    (∃ t, exec .pLenlo s = .next t ∧ s.PadStore t (BitVec.ofNat 32 (s.LEN.toNat % 2 ^ 29 * 8)) .init) ∧
    8 * s.LEN.toNat = s.LEN.toNat / 2 ^ 29 * 2 ^ 32 + s.LEN.toNat % 2 ^ 29 * 8

/-- Where the spec defines no access, the model stops by name: a message byte at or beyond `LEN` (R62), a word of `P` outside
the allocation (R64), a round beyond 79 (R31), and the selector such a ROUND would have (R100). No run comes there. -/
def Obligations.UndefinedAccessesStop : Prop :=
  (∀ s : State, s.LEN.toNat ≤ 4 * s.IDX + 3 → exec .pWord s = .fault .msgOutOfRange) ∧
  (∀ s : State, s.LEN.toNat ≤ 4 * s.IDX → exec .pTail1 s = .fault .msgOutOfRange) ∧
  (∀ s : State, s.LEN.toNat ≤ 4 * s.IDX + 1 → exec .pTail2 s = .fault .msgOutOfRange) ∧
  (∀ s : State, s.LEN.toNat ≤ 4 * s.IDX + 2 → exec .pTail3 s = .fault .msgOutOfRange) ∧
  (∀ s : State, s.PVALID = false ∨ s.PLEN ≤ s.IDX →
    (∀ i : Instr, i ∈ [Instr.pTail0, .pZero, .pLenhi, .pLenlo] → exec i s = .fault .padOutOfRange) ∧
    (4 * s.IDX + 3 < s.LEN.toNat → exec .pWord s = .fault .padOutOfRange) ∧
    (4 * s.IDX < s.LEN.toNat → exec .pTail1 s = .fault .padOutOfRange) ∧
    (4 * s.IDX + 1 < s.LEN.toNat → exec .pTail2 s = .fault .padOutOfRange) ∧
    (4 * s.IDX + 2 < s.LEN.toNat → exec .pTail3 s = .fault .padOutOfRange)) ∧
  (∀ s : State, s.PVALID = false ∨ s.PLEN ≤ 16 * s.BLK + 15 → exec .cLoad s = .fault .padOutOfRange) ∧
  (∀ (s : State) (i : Instr), i ∈ [Instr.cRound0, .cRound1, .cRound2, .cRound3] → 79 < s.T.toNat →
    exec i s = .fault .roundIndexOutOfRange) ∧
  (∀ s : State, s.FSM = .round → 79 < s.T.toNat → s.blocksTurn → s.rst = false → step s = .refused .noSelector)

/-- Read as a byte string, most significant byte of each word first, the finished sequence is the message, the marker 0x80,
zeros, and the eight bytes of the bit length (R144); byte `M(o)` stands in word `o div 4` at bits `31 - 8*(o mod 4)` down
(R142). This is about the contract the runs below are compared with. -/
def Obligations.SequenceReadsAsTheByteString : Prop :=
  ∀ (M : Nat → Byte) (L k : Nat),
    (Contract.paddedWord M L (k / 4)).extractLsb' (24 - 8 * (k % 4)) 8 = Contract.paddedByte M L k ∧
    (k < L → Contract.paddedByte M L k = M k) ∧
    Contract.paddedByte M L L = 0x80 ∧
    (L < k → k + 8 < 64 * ((L + 72) / 64) → Contract.paddedByte M L k = 0x00) ∧
    (L < 2 ^ 61 →
      (Contract.paddedWord M L (16 * ((L + 72) / 64) - 2)).toNat * 2 ^ 32 +
        (Contract.paddedWord M L (16 * ((L + 72) / 64) - 1)).toNat = 8 * L)

/-- R130, R144: from COUNT, undisturbed and with the storage granted, the Padder ends after `16 * N + 2` micro-operations at
INIT with the finished sequence of the message, `16 * N` words, and has changed nothing else. -/
def Obligations.PadderProducesThePaddedSequence : Prop :=
  ∀ (s : State) (M : Nat → Byte) (n : Nat), s.FSM = .count → s.undisturbed → n = (s.LEN.toNat + 72) / 64 →
    s.allocOK (16 * n) = true → (∀ off, off < s.LEN.toNat → s.msgByte off = M off) →
    ∃ t, Host.Core.run core (16 * n + 2) s = .next t ∧
      t = { s with N := n, PVALID := true, PLEN := 16 * n, IDX := 16 * n, P := t.P, FSM := .init } ∧
      (∀ i, Memory.read t.P i = if i < 16 * n then some (Contract.paddedWord M s.LEN.toNat i) else none)

/-! ### The Compressor (`41_compressor.md`) -/

/-- R4, on 1 to 31: the rotation as the rule writes it, on naturals, and by bits as R165(b) does. -/
def Obligations.RotationIsTheRulesFormula : Prop :=
  ∀ (x : Word) (n : Nat) (h : 1 ≤ n ∧ n ≤ 31),
    rotl x n h = BitVec.ofNat 32 ((x.toNat * 2 ^ n) ||| (x.toNat / 2 ^ (32 - n))) ∧
    (∀ i, i < 32 → (rotl x n h).getLsbD i = x.getLsbD ((i + 32 - n) % 32))

/-- R164: the three mixing functions bit by bit, and in the other spelling. -/
def Obligations.MixingFunctionsFollowTheirTable : Prop :=
  ∀ (b c d : Word),
    (∀ i, i < 32 →
      (choose b c d).getLsbD i = (if b.getLsbD i then c.getLsbD i else d.getLsbD i) ∧
      (parity b c d).getLsbD i =
        decide (((b.getLsbD i).toNat + (c.getLsbD i).toNat + (d.getLsbD i).toNat) % 2 = 1) ∧
      (majority b c d).getLsbD i =
        decide (2 ≤ (b.getLsbD i).toNat + (c.getLsbD i).toNat + (d.getLsbD i).toNat)) ∧
    choose b c d = (b &&& c) ||| (~~~b &&& d) ∧
    majority b c d = (b &&& c) ||| (b &&& d) ||| (c &&& d)

/-- R161: C.LOAD, with the block's sixteen words within bounds. `H` is kept. -/
def Obligations.LoadTakesTheBlockAndTheHash : Prop :=
  ∀ s : State, s.PVALID = true → 16 * s.BLK + 15 < s.PLEN →
    exec .cLoad s =
      .next { s with W := Vector.ofFn fun j => s.padWord (16 * s.BLK + j), A := s.H[0], B := s.H[1], C := s.H[2],
                     D := s.H[3], E := s.H[4], T := 0, FSM := .round }

/-- R162: C.SCHED, for `16 <= T <= 79`, with the four taps as the rule writes them, reading the old content. -/
def Obligations.SchedExpandsOneWord : Prop :=
  ∀ s : State, 16 ≤ s.T.toNat → s.T.toNat ≤ 79 →
    ∃ t, exec .cSched s = .next t ∧ t = { s with W := t.W, FSM := .round } ∧
      (∀ j : Fin 16, t.W[j] =
        if j.val = s.T.toNat % 16 then
          (ringAt s.W (s.T.toNat - 3) ^^^ ringAt s.W (s.T.toNat - 8) ^^^ ringAt s.W (s.T.toNat - 14) ^^^
            ringAt s.W (s.T.toNat - 16)).rotateLeft 1
        else s.W[j])

/-- R166 to R170 with the functions and constants of R163: the round of each phase, for every `T <= 79`. -/
def Obligations.RoundsMixAndShift : Prop :=
  ∀ s : State, s.T.toNat ≤ 79 →
    ∀ (i : Instr) (k f : Word),
      (i = .cRound0 ∧ k = 0x5A827999 ∧ f = s.D ^^^ (s.B &&& (s.C ^^^ s.D))) ∨
      (i = .cRound1 ∧ k = 0x6ED9EBA1 ∧ f = s.B ^^^ s.C ^^^ s.D) ∨
      (i = .cRound2 ∧ k = 0x8F1BBCDC ∧ f = (s.B &&& s.C) ^^^ (s.D &&& (s.B ^^^ s.C))) ∨
      (i = .cRound3 ∧ k = 0xCA62C1D6 ∧ f = s.B ^^^ s.C ^^^ s.D) →
      exec i s =
        .next { s with A := k + s.E + s.A.rotateLeft 5 + f + ringAt s.W s.T.toNat, B := s.A, C := s.B.rotateLeft 30,
                       D := s.C, E := s.D, T := BitVec.ofNat 7 (s.T.toNat + 1),
                       FSM := if s.T.toNat + 1 = 80 then .feed
                              else if 16 ≤ s.T.toNat + 1 ∧ s.T.toNat + 1 ≤ 79 then .sched else .round }

/-- R172: C.FEED adds the working registers to the Hash, word by word modulo 2^32. -/
def Obligations.FeedAddsTheWorkingRegisters : Prop :=
  ∀ s : State, exec .cFeed s =
    .next { s with H := #v[BitVec.ofNat 32 (s.H[0].toNat + s.A.toNat), BitVec.ofNat 32 (s.H[1].toNat + s.B.toNat),
                           BitVec.ofNat 32 (s.H[2].toNat + s.C.toNat), BitVec.ofNat 32 (s.H[3].toNat + s.D.toNat),
                           BitVec.ofNat 32 (s.H[4].toNat + s.E.toNat)],
                   BLK := s.BLK + 1, FSM := .next }

/-- R173. The logical schedule is the rule's recursion. From every undisturbed state in LOAD with the block within bounds,
after each number `k` of micro-operations short of the whole block: which round and control state the machine is at, and that
the ring then holds the sixteen latest words of that block's schedule, each in its slot: up to `w_s`, `s = max(T, 15)`, when a
round is due (just after C.LOAD or C.SCHED), up to `w_(T-1)` when C.SCHED or C.FEED is due. And in every interleaving with the
other agents: a step from a sound state to a next state leaves the ring so. -/
def Obligations.RingHoldsTheLogicalSchedule : Prop :=
  (∀ (b : Nat → Word) (t : Nat), t ≤ 15 → Contract.schedule b t = b t) ∧
  (∀ (b : Nat → Word) (t : Nat), 16 ≤ t →
    Contract.schedule b t =
      (Contract.schedule b (t - 3) ^^^ Contract.schedule b (t - 8) ^^^ Contract.schedule b (t - 14) ^^^
        Contract.schedule b (t - 16)).rotateLeft 1) ∧
  (∀ (s : State) (k : Nat), s.FSM = .load → s.undisturbed → s.PVALID = true → 16 * s.BLK + 15 < s.PLEN →
    0 < k → k < 146 →
    ∃ u, Host.Core.run core k s = .next u ∧
      u.T.toNat = (if k ≤ 16 then k - 1 else 16 + (k - 17) / 2) ∧
      u.FSM = (if k = 145 then .feed else if 16 < k ∧ k % 2 = 1 then .sched else .round) ∧
      (u.FSM = .round → ∀ j, j ≤ max u.T.toNat 15 → max u.T.toNat 15 < j + 16 →
        ringAt u.W j = Contract.schedule (fun i => s.padWord (16 * s.BLK + i)) j) ∧
      (u.FSM ≠ .round → ∀ j, j < u.T.toNat → u.T.toNat ≤ j + 16 →
        ringAt u.W j = Contract.schedule (fun i => s.padWord (16 * s.BLK + i)) j)) ∧
  (∀ s t : State, s.Inv → s.DataInv → step s = .next t →
    (t.FSM = .round → ∀ j, j ≤ max t.T.toNat 15 → max t.T.toNat 15 < j + 16 →
      ringAt t.W j = Contract.schedule (Contract.block t.msgByte t.LEN.toNat t.BLK) j) ∧
    (t.FSM = .sched → ∀ j, j < t.T.toNat → t.T.toNat ≤ j + 16 →
      ringAt t.W j = Contract.schedule (Contract.block t.msgByte t.LEN.toNat t.BLK) j))

/-- R160, R174: from LOAD, undisturbed, the Compressor ends after exactly 146 micro-operations at NEXT with COMPRESS of the
block and the Hash in `H`, whatever the data, and has written nothing but `W`, `A..E`, `T`, `H`, `BLK` and `FSM`. -/
def Obligations.CompressorComputesCompress : Prop :=
  ∀ s : State, s.FSM = .load → s.undisturbed → s.PVALID = true → 16 * s.BLK + 15 < s.PLEN →
    (∃ t, Host.Core.run core 146 s = .next t ∧
      t = { s with H := Contract.compress (fun j => s.padWord (16 * s.BLK + j)) s.H, BLK := s.BLK + 1, FSM := .next,
                   T := 80, W := t.W, A := t.A, B := t.B, C := t.C, D := t.D, E := t.E }) ∧
    (∀ k, 0 < k → k < 146 → ∃ u, Host.Core.run core k s = .next u ∧
      (u.FSM = .round ∨ u.FSM = .sched ∨ u.FSM = .feed) ∧ (u.FSM = .feed ↔ k = 145) ∧ u.H = s.H)

/-! ### The Orchestrator and the exception (`42_orchestrator.md`, `60_exceptions.md`) -/

/-- R192: O.INIT. That `H` is from here on no longer `novalue` is kept in `hashWritten` (log entry 9). -/
def Obligations.InitLoadsTheInitialHash : Prop :=
  ∀ s : State, ∃ b, exec .oInit s =
    .next { s with H := #v[0x67452301, 0xEFCDAB89, 0x98BADCFE, 0x10325476, 0xC3D2E1F0], BLK := 0, FSM := .next,
                   hashWritten := b }

/-- R193: O.NEXT changes nothing but `FSM`. -/
def Obligations.NextChoosesAnotherBlockOrTheEnd : Prop :=
  (∀ s : State, s.BLK < s.N → exec .oNext s = .next { s with FSM := .load }) ∧
  (∀ s : State, s.N ≤ s.BLK → exec .oNext s = .next { s with FSM := .release })

/-- R194: O.RELEASE. -/
def Obligations.ReleaseReportsCompletion : Prop :=
  ∀ s : State, exec .oRelease s =
    .next { s with PVALID := false, PLEN := 0, P := [], DONE := true, BUSY := false, FSM := .idle }

/-- R233: raising the exception changes `FSM` alone; O.FAIL reports it and goes to IDLE, saving nothing; FAIL is entered
from P.ALLOC alone. -/
def Obligations.FailReportsResourceExhausted : Prop :=
  (∀ s : State, s.allocOK (16 * s.N) = false → exec .pAlloc s = .next { s with FSM := .fail }) ∧
  (∀ s : State, exec .oFail s = .next { s with ERR := true, ERRCODE := 1, BUSY := false, FSM := .idle }) ∧
  (∀ (s t : State) (i : Instr), exec i s = .next t → t.FSM = .fail → s.FSM ≠ .fail → i = .pAlloc)

/-- R231: the exception is raised by P.ALLOC and by no other micro-operation, when and only when `AllocOK(16 * N)` is false,
and then no word of `P` or `H` has been written. -/
def Obligations.OnlyARefusedAllocationRaises : Prop :=
  ∀ s t : State, s.Inv → s.FSM ≠ .fail → step s = .next t →
    (t.FSM = .fail ↔ s.FSM = .alloc ∧ s.blocksTurn ∧ s.rst = false ∧ s.allocOK (16 * s.N) = false) ∧
    (t.FSM = .fail → t.H = s.H ∧ t.PVALID = false ∧ ∀ i, Memory.read t.P i = none)

/-- R190: the whole of the control flow. On its turn a block that is not idle and not held by reset executes the
micro-operation of its state's row and goes where the row says; nothing but an accepted H.START leaves IDLE; reset takes
every state to IDLE; there are no other transitions. -/
def Obligations.ControlFollowsTheTransitionTable : Prop :=
  ∀ s t : State, s.Inv → step s = .next t →
    (s.blocksTurn → s.rst = false → s.FSM ≠ .idle →
      (∃ i, s.microOp = some i ∧ exec i s.afterTurn = .next t) ∧ t.FSM = s.successor t) ∧
    (s.blocksTurn → s.rst = true ∨ s.FSM = .idle → t.FSM = s.FSM) ∧
    (∀ hsel data rest, s.inbox = .access hsel data :: rest →
      t.FSM = if s.FSM = .idle ∧ s.rst = false ∧ hsel = 0x10 ∧ data.toNat % 2 = 1 then .count else s.FSM) ∧
    (∀ level rest, s.inbox = .pin level :: rest → t.FSM = if level = true then .idle else s.FSM) ∧
    (∀ bytes rest, s.inbox = .message bytes :: rest → t.FSM = s.FSM)

/-- R246: in IDLE all state is retained on the block's turn, and the only event that leaves IDLE is an accepted H.START,
which a host may issue at any moment of it. -/
def Obligations.OnlyAStartLeavesIdle : Prop :=
  (∀ s : State, s.FSM = .idle → s.blocksTurn → step s = .next s.afterTurn) ∧
  (∀ s t : State, s.FSM = .idle → step s = .next t →
    (t.FSM ≠ .idle ↔ s.BUSY = false ∧ s.rst = false ∧
      ∃ data rest, s.inbox = .access 0x10 data :: rest ∧ data.toNat % 2 = 1))

/-! ### What each instruction leaves alone (the frame) -/

/-- Whatever state an instruction is executed in, where it answers a next state it has written no register but those its
rule names, and no byte of the message. Of `P`, a word other than `P[IDX]` changes only in P.ALLOC, O.RELEASE and H.RESET,
and any word at all only in these and the Padder's eight writes. `hashWritten`, `calls` and `draws` are the model's own. -/
def Obligations.InstructionsWriteOnlyTheirRegisters : Prop :=
  ∀ (i : Instr) (s t : State), exec i s = .next t →
    (i ∉ [Instr.oInit, .cFeed, .hReset] → t.H = s.H ∧ t.BLK = s.BLK) ∧
    (i ∉ [Instr.cLoad, .cRound0, .cRound1, .cRound2, .cRound3, .hReset] →
      t.A = s.A ∧ t.B = s.B ∧ t.C = s.C ∧ t.D = s.D ∧ t.E = s.E ∧ t.T = s.T) ∧
    (i ∉ [Instr.cLoad, .cSched, .hReset] → t.W = s.W) ∧
    (i ∉ [Instr.pCount, .hReset] → t.N = s.N) ∧
    (i ∉ [Instr.pAlloc, .oRelease, .hReset] → t.PVALID = s.PVALID ∧ t.PLEN = s.PLEN) ∧
    (i ∉ [Instr.pAlloc, .pWord, .pTail0, .pTail1, .pTail2, .pTail3, .pZero, .pLenhi, .pLenlo, .hReset] →
      t.IDX = s.IDX) ∧
    (i ∉ [Instr.pAlloc, .pWord, .pTail0, .pTail1, .pTail2, .pTail3, .pZero, .pLenhi, .pLenlo, .oRelease, .hReset] →
      ∀ j, Memory.read t.P j = Memory.read s.P j) ∧
    (i ∉ [Instr.pAlloc, .oRelease, .hReset] → ∀ j, j ≠ s.IDX → Memory.read t.P j = Memory.read s.P j) ∧
    (i ≠ .hReset → (∀ data, i ≠ .hWrlenLo data ∧ i ≠ .hWrlenHi data) → t.LEN = s.LEN) ∧
    (i ∉ [Instr.oRelease, .oFail, .hReset] → (∀ data, i ≠ .hStart data) →
      t.BUSY = s.BUSY ∧ t.DONE = s.DONE ∧ t.ERR = s.ERR ∧ t.ERRCODE = s.ERRCODE) ∧
    (i ∉ [Instr.hRdctrl, .hRdstatus, .hRdlenLo, .hRdlenHi, .hRddigest0, .hRddigest1, .hRddigest2, .hRddigest3,
      .hRddigest4] → t.rdata = s.rdata) ∧
    (∀ off, Memory.read t.msg off = Memory.read s.msg off) ∧
    t.alloc = s.alloc ∧ t.rst = s.rst ∧ t.inbox = s.inbox

/-- For the whole of a computation the length and the message are fixed (R26, R27): no step between two busy states of one
computation changes `LEN`, the message space, or what any offset of the message reads as. -/
def Obligations.MessageAndLengthAreFixedWhileBusy : Prop :=
  ∀ s t : State, step s = .next t → s.BUSY = true →
    t.msg = s.msg ∧ (∀ off, t.msgByte off = s.msgByte off) ∧
      (t.LEN = s.LEN ∨ ∃ rest, s.inbox = .pin true :: rest ∧ t.LEN = 0 ∧ t.BUSY = false)

/-- No micro-operation reads `novalue` or outside the bounds (R35, R62, R64): in a sound state the word the Padder is about
to write has not been written and is within the allocation, the message bytes it is about to read are below `LEN`, and each
word C.LOAD is about to read has been written and is within the allocation. -/
def Obligations.AccessesAreDefinedAndWordsWrittenOnce : Prop :=
  ∀ s : State, s.Inv →
    (s.FSM ∈ [Fsm.copy, .tail, .zero, .lenhi, .lenlo] →
      s.PVALID = true ∧ s.IDX < s.PLEN ∧ Memory.read s.P s.IDX = none ∧
        ∀ i, i < s.IDX → (Memory.read s.P i).isSome = true) ∧
    (s.FSM = .copy → 4 * s.IDX + 3 < s.LEN.toNat) ∧
    (s.FSM = .tail → 4 * s.IDX + s.LEN.toNat % 4 = s.LEN.toNat) ∧
    (s.FSM = .load → ∀ j, j < 16 →
      s.PVALID = true ∧ 16 * s.BLK + j < s.PLEN ∧ (Memory.read s.P (16 * s.BLK + j)).isSome = true)

/-- R195: in a sound state nothing is allocated while IDLE, and the only ways back to IDLE are O.RELEASE, which clears
`PVALID`, O.FAIL, where it was never set, and reset. -/
def Obligations.NoSequenceSurvivesItsComputation : Prop :=
  (∀ s : State, s.Inv → s.FSM = .idle → s.PVALID = false ∧ s.PLEN = 0 ∧ ∀ i, Memory.read s.P i = none) ∧
  (∀ s t : State, s.Inv → step s = .next t → s.FSM ≠ .idle → t.FSM = .idle →
    t.PVALID = false ∧
    ((∃ rest, s.inbox = .pin true :: rest) ∨
      (s.blocksTurn ∧ s.FSM = .release ∧ exec .oRelease s.afterTurn = .next t) ∨
      (s.blocksTurn ∧ s.FSM = .fail ∧ s.PVALID = false ∧ exec .oFail s.afterTurn = .next t)))

/-- The completion of a computation, in every interleaving with the host (R198): where a step makes `DONE` 1, the Hash is the
digest of the message and nothing is left allocated. -/
def Obligations.DoneMeansTheDigestIsReady : Prop :=
  ∀ s t : State, s.Inv → s.DataInv → step s = .next t → s.DONE = false → t.DONE = true →
    t.FSM = .idle ∧ t.BUSY = false ∧ t.ERR = false ∧ t.PVALID = false ∧
      t.H = Contract.digest s.msgByte s.LEN.toNat

/-- While `BUSY = 0` the Hash cannot change, and a result stays reported, until the host starts again or resets (R220,
R225). -/
def Obligations.ResultStaysUntilTheNextStart : Prop :=
  ∀ s t : State, s.Inv → s.BUSY = false → step s = .next t → (∀ rest, s.inbox ≠ .pin true :: rest) →
    t.H = s.H ∧ (t.BUSY = false → t.DONE = s.DONE ∧ t.ERR = s.ERR ∧ t.ERRCODE = s.ERRCODE)

/-! ### Noninterference -/

/-- R34: control flow is data-independent. States that agree on everything but data words take steps that agree on everything
but data words: the same control state, counters and flags, or the same stop. -/
def Obligations.ControlIgnoresTheData : Prop :=
  ∀ s u : State, s.SameControl u →
    (∀ t, step s = .next t → ∃ v, step u = .next v ∧ t.SameControl v) ∧
    (∀ f, step s = .fault f → step u = .fault f) ∧
    (∀ r, step s = .refused r → step u = .refused r)

/-- R36, R197: the result of a computation is a function of the message, `LEN` and the allocation's answer. Two blocks,
whatever they held before the START, that are started on equal inputs end after the same number of steps with the same
`DONE`, `ERR` and digest; on failure each has its own earlier Hash. -/
def Obligations.EqualInputsGiveEqualResults : Prop :=
  ∀ (s0 u0 s u : State) (d e : Word), s0.BUSY = false → u0.BUSY = false →
    exec (.hStart d) s0 = .next s → exec (.hStart e) u0 = .next u → s.undisturbed → u.undisturbed →
    s.LEN = u.LEN → (∀ off, off < s.LEN.toNat → s.msgByte off = u.msgByte off) →
    s.allocOK (16 * ((s.LEN.toNat + 72) / 64)) = u.allocOK (16 * ((s.LEN.toNat + 72) / 64)) →
    ∃ n t v, Host.Core.run core n s = .next t ∧ Host.Core.run core n u = .next v ∧
      t.BUSY = false ∧ v.BUSY = false ∧ (t.DONE = true ∨ t.ERR = true) ∧
      t.DONE = v.DONE ∧ t.ERR = v.ERR ∧ t.ERRCODE = v.ERRCODE ∧ (t.DONE = true → t.H = v.H) ∧
      (t.ERR = true → t.H = s0.H ∧ v.H = u0.H)

/-! ### Invariants -/

/-- The reset state meets both invariants. The values its data registers hold are the model's choice (log entry 2); neither
invariant mentions them. -/
def Obligations.ResetStateIsSound : Prop :=
  State.reset.Inv ∧ State.reset.DataInv

/-- Every step, of whichever agent, keeps the control invariant: the flags (R37, R42), the padded sequence's lifetime and
size (R24), the block count (R131), where every counter stands (R31, R32, R33), which words of `P` are written (R35), and
the canonical form of both memories. -/
def Obligations.EveryStepKeepsTheControlInvariant : Prop :=
  ∀ s t : State, s.Inv → step s = .next t → t.Inv

/-- Every step keeps the data invariant: at every moment of every computation `P`, `H`, `A..E` and `W` hold what the contracts
of the three components say (R93, R144, R160, R173, R191). -/
def Obligations.EveryStepKeepsTheDataInvariant : Prop :=
  ∀ s t : State, s.Inv → s.DataInv → step s = .next t → t.DataInv

/-- Any number of steps from a sound state leads to a sound state, and a completed computation's digest is right there. -/
def Obligations.RunsStaySound : Prop :=
  ∀ (n : Nat) (s t : State), s.Inv → s.DataInv → Host.Core.run core n s = .next t →
    t.Inv ∧ t.DataInv ∧
      (t.FSM = .release → t.H = Contract.digest t.msgByte t.LEN.toNat)

/-- In a sound state every micro-operation and every transaction answers a next state: the only step that stops is the
environment's breach of its duty not to change the message while `BUSY = 1` (R270; log entry 12). -/
def Obligations.SoundStatesNeverStop : Prop :=
  (∀ s : State, s.Inv → s.dutyKept → ∃ t, step s = .next t) ∧
  (∀ (s : State) bytes rest, s.BUSY = true → s.inbox = .message bytes :: rest →
    step s = .refused .messageChangedWhileBusy)

/-! ### Whole computations -/

/-- The three digests the source itself gives (`95_test_vectors.md` section 2), of the contract the runs below are compared
with. -/
def Obligations.ContractGivesTheSourcesDigests : Prop :=
  Contract.digest (fun _ => 0) 0 = #v[0xda39a3ee, 0x5e6b4b0d, 0x3255bfef, 0x95601890, 0xafd80709] ∧
  Contract.digest (fun o => [0x61, 0x6e, 0x61, 0x6e, 0x61, 0x73].getD o 0) 6 =
    #v[0x755bd810, 0xd2be0ebc, 0xbb6ce6f5, 0x32b3d9cf, 0xcf9d9695] ∧
  Contract.digest (fun o => [0x70, 0x61, 0x73, 0x73, 0x77, 0x64].getD o 0) 6 =
    #v[0x30274c47, 0x903bd1ba, 0xc7633bbf, 0x09743149, 0xebab805f]

/-- R234: a failed computation is atomic. From the accepted START three steps lead back to IDLE; `H`, `LEN`, the padded
sequence and everything else are what they were before the START, but for the flags and the hidden `N`; no partial sequence
exists at any moment of it. -/
def Obligations.FailureIsAtomic : Prop :=
  ∀ (s0 s : State) (data : Word), s0.BUSY = false → exec (.hStart data) s0 = .next s → s.undisturbed →
    s.allocOK (16 * ((s.LEN.toNat + 72) / 64)) = false →
    Host.Core.run core 3 s =
      .next { s0 with FSM := .idle, BUSY := false, DONE := false, ERR := true, ERRCODE := 1,
                      N := (s0.LEN.toNat + 72) / 64, calls := s.calls } ∧
    (∀ k, k ≤ 3 → ∃ u, Host.Core.run core k s = .next u ∧ u.H = s0.H ∧ u.P = s0.P ∧ u.PVALID = s0.PVALID ∧
      (u.FSM = .idle → k = 3))

/-- R191, R196: the contract of the whole block. Started on a message of `LEN` bytes and left undisturbed, it returns to IDLE
after exactly `163 * N + 5` micro-operations with `DONE = 1` and the digest in `H` if the storage is granted, and after
exactly 3 with `ERR = 1`, `ERRCODE = 1` and `H` untouched if it is refused. -/
def Obligations.ComputationReturnsTheDigest : Prop :=
  ∀ (s0 s : State) (data : Word) (M : Nat → Byte) (n : Nat), s0.BUSY = false → exec (.hStart data) s0 = .next s →
    s.undisturbed → (∀ off, off < s.LEN.toNat → s.msgByte off = M off) → n = (s.LEN.toNat + 72) / 64 →
    (s.allocOK (16 * n) = true →
      (∃ t, Host.Core.run core (163 * n + 5) s = .next t ∧
        t.FSM = .idle ∧ t.BUSY = false ∧ t.DONE = true ∧ t.ERR = false ∧ t.ERRCODE = 0 ∧ t.PVALID = false ∧
        t.PLEN = 0 ∧ t.LEN = s0.LEN ∧ t.msg = s0.msg ∧ t.H = Contract.digest M s0.LEN.toNat) ∧
      (∀ k, k < 163 * n + 5 → ∃ u, Host.Core.run core k s = .next u ∧ u.FSM ≠ .idle)) ∧
    (s.allocOK (16 * n) = false →
      (∃ t, Host.Core.run core 3 s = .next t ∧
        t.FSM = .idle ∧ t.BUSY = false ∧ t.DONE = false ∧ t.ERR = true ∧ t.ERRCODE = 1 ∧ t.H = s0.H) ∧
      (∀ k, k < 3 → ∃ u, Host.Core.run core k s = .next u ∧ u.FSM ≠ .idle))

/-- Every computation ends, however the host interleaves its accesses (R210, R276): from any sound busy state with only host
accesses and the block's own turns to come, `BUSY` is 0 again within as many steps as there are turns to come plus
`163 * N + 5`. That the turns to come are a finite list is the model's form of fairness (log entry 6). -/
def Obligations.EveryComputationEnds : Prop :=
  ∀ s : State, s.Inv → s.BUSY = true → s.rst = false → s.hostOnly →
    ∃ n t, n ≤ s.inbox.length + (163 * ((s.LEN.toNat + 72) / 64) + 5) ∧ Host.Core.run core n s = .next t ∧
      t.BUSY = false ∧ t.FSM = .idle ∧ (t.DONE = true ∨ t.ERR = true)
end

