-- ==== Sys2Proof/Laws/Memory.lean ====
section
/-! SUPPORT. The laws of the sparse memory: read after write, the canonical form kept by every operation, and that
equal memories are equal data. -/

namespace Sys2Proof.Machine

variable {α : Type}

/-- A read after a write: the value written at its address, what was there before everywhere else. -/
theorem Memory.read_write (m : List (Nat × α)) (a b : Nat) (v : α) :
    Memory.read (Memory.write m a v) b = if b = a then some v else Memory.read m b := by
  induction m with
  | nil => simp only [write, read, eq_comm]
  | cons c m ih =>
    obtain ⟨k, w⟩ := c
    simp only [write]
    split
    · simp only [read, eq_comm]
    · split
      · rename_i h; subst h
        simp only [read]
        by_cases hb : b = a
        · simp [hb]
        · simp [hb, Ne.symm hb]
      · rename_i h
        simp only [read, ih]
        by_cases hb : b = a
        · subst hb; simp [Ne.symm h]
        · simp [hb]

@[simp] theorem Memory.read_write_same (m : List (Nat × α)) (a : Nat) (v : α) :
    Memory.read (Memory.write m a v) a = some v := by
  simp [Memory.read_write]

@[simp] theorem Memory.read_nil (a : Nat) : Memory.read ([] : List (Nat × α)) a = none := rfl

theorem Memory.wf_nil : Memory.wf ([] : List (Nat × α)) := List.Pairwise.nil

/-- Every address a write leaves listed was listed before, or is the one written. -/
theorem Memory.mem_addresses_write {m : List (Nat × α)} {a b : Nat} {v : α}
    (h : b ∈ (Memory.write m a v).map Prod.fst) : b = a ∨ b ∈ m.map Prod.fst := by
  induction m with
  | nil => simpa [write] using h
  | cons c m ih =>
    obtain ⟨k, w⟩ := c
    simp only [write] at h
    split at h
    · simpa using h
    · split at h
      · rename_i hk; subst hk
        simpa using h
      · simp only [List.map_cons, List.mem_cons] at h ⊢
        rcases h with h | h
        · exact .inr (.inl h)
        · exact (ih h).imp_right .inr

/-- A write keeps the canonical form. -/
theorem Memory.write_wf {m : List (Nat × α)} (h : Memory.wf m) (a : Nat) (v : α) : Memory.wf (Memory.write m a v) := by
  induction m with
  | nil => simp [write, wf]
  | cons c m ih =>
    obtain ⟨k, w⟩ := c
    have hk := List.pairwise_cons.1 h
    simp only [write]
    split
    · rename_i ha
      refine List.pairwise_cons.2 ⟨?_, h⟩
      intro b hb
      rcases List.mem_cons.1 hb with rfl | hb
      · exact ha
      · exact Nat.lt_trans ha (hk.1 b hb)
    · split
      · rename_i ha; subst ha; exact h
      · refine List.pairwise_cons.2 ⟨?_, ih hk.2⟩
        intro b hb
        rcases mem_addresses_write hb with rfl | hb
        · show k < b; omega
        · exact hk.1 b hb

/-- Every address of consecutive cells is at or after the first. -/
theorem Memory.le_of_mem_ofList {a b : Nat} {vs : List α} (h : b ∈ (Memory.ofList a vs).map Prod.fst) : a ≤ b := by
  induction vs generalizing a with
  | nil => simp [ofList] at h
  | cons v vs ih =>
    rcases List.mem_cons.1 h with rfl | h
    · exact Nat.le_refl _
    · exact Nat.le_of_succ_le (ih h)

/-- Consecutive cells are in canonical form. -/
theorem Memory.ofList_wf (a : Nat) (vs : List α) : Memory.wf (Memory.ofList a vs) := by
  induction vs generalizing a with
  | nil => exact wf_nil
  | cons v vs ih => exact List.pairwise_cons.2 ⟨fun _ h => le_of_mem_ofList h, ih (a + 1)⟩

/-- Reading consecutive cells. -/
theorem Memory.read_ofList (a i : Nat) (vs : List α) :
    Memory.read (Memory.ofList a vs) i = if a ≤ i then vs[i - a]? else none := by
  induction vs generalizing a with
  | nil => simp [ofList]
  | cons v vs ih =>
    simp only [ofList, read, ih]
    rcases Nat.lt_trichotomy a i with h | h | h
    · have hs : i - a = (i - (a + 1)) + 1 := by omega
      rw [if_neg (by omega), if_pos (by omega), if_pos (by omega), hs, List.getElem?_cons_succ]
    · subst h; simp
    · rw [if_neg (by omega), if_neg (by omega), if_neg (by omega)]

/-- In canonical form nothing is listed below the first address. -/
theorem Memory.read_eq_none_of_lt {m : List (Nat × α)} {a : Nat} (h : ∀ b ∈ m.map Prod.fst, a < b) :
    Memory.read m a = none := by
  induction m with
  | nil => rfl
  | cons c m ih =>
    obtain ⟨k, w⟩ := c
    have hk : a < k := h k (by simp)
    rw [read, if_neg (by omega)]
    exact ih fun b hb => h b (List.mem_cons_of_mem _ hb)

/-- Memories in canonical form that read alike are equal. -/
theorem Memory.eq_of_read_eq {m m' : List (Nat × α)} (h : Memory.wf m) (h' : Memory.wf m')
    (hr : ∀ a, Memory.read m a = Memory.read m' a) : m = m' := by
  induction m generalizing m' with
  | nil =>
    cases m' with
    | nil => rfl
    | cons c m' => have := hr c.1; simp [read] at this
  | cons c m ih =>
    obtain ⟨k, w⟩ := c
    cases m' with
    | nil => have := hr k; simp [read] at this
    | cons c' m' =>
      obtain ⟨k', w'⟩ := c'
      have p := List.pairwise_cons.1 h
      have p' := List.pairwise_cons.1 h'
      have hkk : k = k' := by
        rcases Nat.lt_trichotomy k k' with hl | he | hl
        · have hn : Memory.read ((k', w') :: m') k = none :=
            read_eq_none_of_lt fun b hb => by
              rcases List.mem_cons.1 hb with rfl | hb
              · exact hl
              · exact Nat.lt_trans hl (p'.1 b hb)
          have := hr k; rw [hn] at this; simp [read] at this
        · exact he
        · have hn : Memory.read ((k, w) :: m) k' = none :=
            read_eq_none_of_lt fun b hb => by
              rcases List.mem_cons.1 hb with rfl | hb
              · exact hl
              · exact Nat.lt_trans hl (p.1 b hb)
          have := hr k'; rw [hn] at this; simp [read] at this
      subst hkk
      have hw : w = w' := by have := hr k; simpa [read] using this
      subst hw
      congr 1
      refine ih p.2 p'.2 fun a => ?_
      by_cases ha : a = k
      · subst ha; rw [read_eq_none_of_lt p.1, read_eq_none_of_lt p'.1]
      · have := hr a
        simpa [read, Ne.symm ha] using this

/-- Every operation on the padded sequence keeps its canonical form. -/
theorem State.pushPad_wf {s : State} (h : Memory.wf s.P) (v : Word) (f : Fsm) : Memory.wf (s.pushPad v f).P :=
  Memory.write_wf h _ _

theorem State.allocated_wf (s : State) : Memory.wf s.allocated.P := Memory.wf_nil

theorem State.releasePad_wf (s : State) : Memory.wf s.releasePad.P := Memory.wf_nil

theorem State.hardReset_wf (s : State) : Memory.wf s.hardReset.P := Memory.wf_nil

/-- Placing a message gives a memory in canonical form. -/
theorem State.placeMessage_wf (s : State) (bytes : List Byte) : Memory.wf (s.placeMessage bytes).msg :=
  Memory.ofList_wf 0 bytes

/-- The memories of the reset state are in canonical form. -/
theorem State.reset_memory_wf : Memory.wf State.reset.P ∧ Memory.wf State.reset.msg := ⟨Memory.wf_nil, Memory.wf_nil⟩

end Sys2Proof.Machine
end

