-- ==== Sys2Proof/Laws/State.lean ====
section
/-! SUPPORT. One lemma per field per state update, true by `rfl`, so that no later proof unfolds a record update. -/

namespace Sys2Proof.Machine

variable (s : State)

/-! ### flagsBusy: an accepted START sets the flags (R212) -/

@[simp] theorem State.flagsBusy_H : (s.flagsBusy).H = s.H := rfl
@[simp] theorem State.flagsBusy_A : (s.flagsBusy).A = s.A := rfl
@[simp] theorem State.flagsBusy_B : (s.flagsBusy).B = s.B := rfl
@[simp] theorem State.flagsBusy_C : (s.flagsBusy).C = s.C := rfl
@[simp] theorem State.flagsBusy_D : (s.flagsBusy).D = s.D := rfl
@[simp] theorem State.flagsBusy_E : (s.flagsBusy).E = s.E := rfl
@[simp] theorem State.flagsBusy_W : (s.flagsBusy).W = s.W := rfl
@[simp] theorem State.flagsBusy_P : (s.flagsBusy).P = s.P := rfl
@[simp] theorem State.flagsBusy_PVALID : (s.flagsBusy).PVALID = s.PVALID := rfl
@[simp] theorem State.flagsBusy_PLEN : (s.flagsBusy).PLEN = s.PLEN := rfl
@[simp] theorem State.flagsBusy_N : (s.flagsBusy).N = s.N := rfl
@[simp] theorem State.flagsBusy_LEN : (s.flagsBusy).LEN = s.LEN := rfl
@[simp] theorem State.flagsBusy_FSM : (s.flagsBusy).FSM = s.FSM := rfl
@[simp] theorem State.flagsBusy_T : (s.flagsBusy).T = s.T := rfl
@[simp] theorem State.flagsBusy_IDX : (s.flagsBusy).IDX = s.IDX := rfl
@[simp] theorem State.flagsBusy_BLK : (s.flagsBusy).BLK = s.BLK := rfl
@[simp] theorem State.flagsBusy_BUSY : (s.flagsBusy).BUSY = true := rfl
@[simp] theorem State.flagsBusy_DONE : (s.flagsBusy).DONE = false := rfl
@[simp] theorem State.flagsBusy_ERR : (s.flagsBusy).ERR = false := rfl
@[simp] theorem State.flagsBusy_ERRCODE : (s.flagsBusy).ERRCODE = 0 := rfl
@[simp] theorem State.flagsBusy_msg : (s.flagsBusy).msg = s.msg := rfl
@[simp] theorem State.flagsBusy_alloc : (s.flagsBusy).alloc = s.alloc := rfl
@[simp] theorem State.flagsBusy_rst : (s.flagsBusy).rst = s.rst := rfl
@[simp] theorem State.flagsBusy_inbox : (s.flagsBusy).inbox = s.inbox := rfl
@[simp] theorem State.flagsBusy_rdata : (s.flagsBusy).rdata = s.rdata := rfl
@[simp] theorem State.flagsBusy_hashWritten : (s.flagsBusy).hashWritten = s.hashWritten := rfl
@[simp] theorem State.flagsBusy_calls : (s.flagsBusy).calls = s.calls := rfl
@[simp] theorem State.flagsBusy_draws : (s.flagsBusy).draws = s.draws := rfl

/-! ### flagsDone: completion sets the flags (R194) -/

@[simp] theorem State.flagsDone_H : (s.flagsDone).H = s.H := rfl
@[simp] theorem State.flagsDone_A : (s.flagsDone).A = s.A := rfl
@[simp] theorem State.flagsDone_B : (s.flagsDone).B = s.B := rfl
@[simp] theorem State.flagsDone_C : (s.flagsDone).C = s.C := rfl
@[simp] theorem State.flagsDone_D : (s.flagsDone).D = s.D := rfl
@[simp] theorem State.flagsDone_E : (s.flagsDone).E = s.E := rfl
@[simp] theorem State.flagsDone_W : (s.flagsDone).W = s.W := rfl
@[simp] theorem State.flagsDone_P : (s.flagsDone).P = s.P := rfl
@[simp] theorem State.flagsDone_PVALID : (s.flagsDone).PVALID = s.PVALID := rfl
@[simp] theorem State.flagsDone_PLEN : (s.flagsDone).PLEN = s.PLEN := rfl
@[simp] theorem State.flagsDone_N : (s.flagsDone).N = s.N := rfl
@[simp] theorem State.flagsDone_LEN : (s.flagsDone).LEN = s.LEN := rfl
@[simp] theorem State.flagsDone_FSM : (s.flagsDone).FSM = s.FSM := rfl
@[simp] theorem State.flagsDone_T : (s.flagsDone).T = s.T := rfl
@[simp] theorem State.flagsDone_IDX : (s.flagsDone).IDX = s.IDX := rfl
@[simp] theorem State.flagsDone_BLK : (s.flagsDone).BLK = s.BLK := rfl
@[simp] theorem State.flagsDone_BUSY : (s.flagsDone).BUSY = false := rfl
@[simp] theorem State.flagsDone_DONE : (s.flagsDone).DONE = true := rfl
@[simp] theorem State.flagsDone_ERR : (s.flagsDone).ERR = s.ERR := rfl
@[simp] theorem State.flagsDone_ERRCODE : (s.flagsDone).ERRCODE = s.ERRCODE := rfl
@[simp] theorem State.flagsDone_msg : (s.flagsDone).msg = s.msg := rfl
@[simp] theorem State.flagsDone_alloc : (s.flagsDone).alloc = s.alloc := rfl
@[simp] theorem State.flagsDone_rst : (s.flagsDone).rst = s.rst := rfl
@[simp] theorem State.flagsDone_inbox : (s.flagsDone).inbox = s.inbox := rfl
@[simp] theorem State.flagsDone_rdata : (s.flagsDone).rdata = s.rdata := rfl
@[simp] theorem State.flagsDone_hashWritten : (s.flagsDone).hashWritten = s.hashWritten := rfl
@[simp] theorem State.flagsDone_calls : (s.flagsDone).calls = s.calls := rfl
@[simp] theorem State.flagsDone_draws : (s.flagsDone).draws = s.draws := rfl

/-! ### flagsFailed: the exception sets the flags (R233) -/

@[simp] theorem State.flagsFailed_H : (s.flagsFailed).H = s.H := rfl
@[simp] theorem State.flagsFailed_A : (s.flagsFailed).A = s.A := rfl
@[simp] theorem State.flagsFailed_B : (s.flagsFailed).B = s.B := rfl
@[simp] theorem State.flagsFailed_C : (s.flagsFailed).C = s.C := rfl
@[simp] theorem State.flagsFailed_D : (s.flagsFailed).D = s.D := rfl
@[simp] theorem State.flagsFailed_E : (s.flagsFailed).E = s.E := rfl
@[simp] theorem State.flagsFailed_W : (s.flagsFailed).W = s.W := rfl
@[simp] theorem State.flagsFailed_P : (s.flagsFailed).P = s.P := rfl
@[simp] theorem State.flagsFailed_PVALID : (s.flagsFailed).PVALID = s.PVALID := rfl
@[simp] theorem State.flagsFailed_PLEN : (s.flagsFailed).PLEN = s.PLEN := rfl
@[simp] theorem State.flagsFailed_N : (s.flagsFailed).N = s.N := rfl
@[simp] theorem State.flagsFailed_LEN : (s.flagsFailed).LEN = s.LEN := rfl
@[simp] theorem State.flagsFailed_FSM : (s.flagsFailed).FSM = s.FSM := rfl
@[simp] theorem State.flagsFailed_T : (s.flagsFailed).T = s.T := rfl
@[simp] theorem State.flagsFailed_IDX : (s.flagsFailed).IDX = s.IDX := rfl
@[simp] theorem State.flagsFailed_BLK : (s.flagsFailed).BLK = s.BLK := rfl
@[simp] theorem State.flagsFailed_BUSY : (s.flagsFailed).BUSY = false := rfl
@[simp] theorem State.flagsFailed_DONE : (s.flagsFailed).DONE = s.DONE := rfl
@[simp] theorem State.flagsFailed_ERR : (s.flagsFailed).ERR = true := rfl
@[simp] theorem State.flagsFailed_ERRCODE : (s.flagsFailed).ERRCODE = resourceExhaustedCode := rfl
@[simp] theorem State.flagsFailed_msg : (s.flagsFailed).msg = s.msg := rfl
@[simp] theorem State.flagsFailed_alloc : (s.flagsFailed).alloc = s.alloc := rfl
@[simp] theorem State.flagsFailed_rst : (s.flagsFailed).rst = s.rst := rfl
@[simp] theorem State.flagsFailed_inbox : (s.flagsFailed).inbox = s.inbox := rfl
@[simp] theorem State.flagsFailed_rdata : (s.flagsFailed).rdata = s.rdata := rfl
@[simp] theorem State.flagsFailed_hashWritten : (s.flagsFailed).hashWritten = s.hashWritten := rfl
@[simp] theorem State.flagsFailed_calls : (s.flagsFailed).calls = s.calls := rfl
@[simp] theorem State.flagsFailed_draws : (s.flagsFailed).draws = s.draws := rfl

/-! ### flagsCleared: reset clears the flags (R260) -/

@[simp] theorem State.flagsCleared_H : (s.flagsCleared).H = s.H := rfl
@[simp] theorem State.flagsCleared_A : (s.flagsCleared).A = s.A := rfl
@[simp] theorem State.flagsCleared_B : (s.flagsCleared).B = s.B := rfl
@[simp] theorem State.flagsCleared_C : (s.flagsCleared).C = s.C := rfl
@[simp] theorem State.flagsCleared_D : (s.flagsCleared).D = s.D := rfl
@[simp] theorem State.flagsCleared_E : (s.flagsCleared).E = s.E := rfl
@[simp] theorem State.flagsCleared_W : (s.flagsCleared).W = s.W := rfl
@[simp] theorem State.flagsCleared_P : (s.flagsCleared).P = s.P := rfl
@[simp] theorem State.flagsCleared_PVALID : (s.flagsCleared).PVALID = s.PVALID := rfl
@[simp] theorem State.flagsCleared_PLEN : (s.flagsCleared).PLEN = s.PLEN := rfl
@[simp] theorem State.flagsCleared_N : (s.flagsCleared).N = s.N := rfl
@[simp] theorem State.flagsCleared_LEN : (s.flagsCleared).LEN = s.LEN := rfl
@[simp] theorem State.flagsCleared_FSM : (s.flagsCleared).FSM = s.FSM := rfl
@[simp] theorem State.flagsCleared_T : (s.flagsCleared).T = s.T := rfl
@[simp] theorem State.flagsCleared_IDX : (s.flagsCleared).IDX = s.IDX := rfl
@[simp] theorem State.flagsCleared_BLK : (s.flagsCleared).BLK = s.BLK := rfl
@[simp] theorem State.flagsCleared_BUSY : (s.flagsCleared).BUSY = false := rfl
@[simp] theorem State.flagsCleared_DONE : (s.flagsCleared).DONE = false := rfl
@[simp] theorem State.flagsCleared_ERR : (s.flagsCleared).ERR = false := rfl
@[simp] theorem State.flagsCleared_ERRCODE : (s.flagsCleared).ERRCODE = 0 := rfl
@[simp] theorem State.flagsCleared_msg : (s.flagsCleared).msg = s.msg := rfl
@[simp] theorem State.flagsCleared_alloc : (s.flagsCleared).alloc = s.alloc := rfl
@[simp] theorem State.flagsCleared_rst : (s.flagsCleared).rst = s.rst := rfl
@[simp] theorem State.flagsCleared_inbox : (s.flagsCleared).inbox = s.inbox := rfl
@[simp] theorem State.flagsCleared_rdata : (s.flagsCleared).rdata = s.rdata := rfl
@[simp] theorem State.flagsCleared_hashWritten : (s.flagsCleared).hashWritten = s.hashWritten := rfl
@[simp] theorem State.flagsCleared_calls : (s.flagsCleared).calls = s.calls := rfl
@[simp] theorem State.flagsCleared_draws : (s.flagsCleared).draws = s.draws := rfl

/-! ### pushPad: a word written to the padded sequence -/

@[simp] theorem State.pushPad_H (v : Word) (f : Fsm) : (s.pushPad v f).H = s.H := rfl
@[simp] theorem State.pushPad_A (v : Word) (f : Fsm) : (s.pushPad v f).A = s.A := rfl
@[simp] theorem State.pushPad_B (v : Word) (f : Fsm) : (s.pushPad v f).B = s.B := rfl
@[simp] theorem State.pushPad_C (v : Word) (f : Fsm) : (s.pushPad v f).C = s.C := rfl
@[simp] theorem State.pushPad_D (v : Word) (f : Fsm) : (s.pushPad v f).D = s.D := rfl
@[simp] theorem State.pushPad_E (v : Word) (f : Fsm) : (s.pushPad v f).E = s.E := rfl
@[simp] theorem State.pushPad_W (v : Word) (f : Fsm) : (s.pushPad v f).W = s.W := rfl
@[simp] theorem State.pushPad_P (v : Word) (f : Fsm) : (s.pushPad v f).P = Memory.write s.P s.IDX v := rfl
@[simp] theorem State.pushPad_PVALID (v : Word) (f : Fsm) : (s.pushPad v f).PVALID = s.PVALID := rfl
@[simp] theorem State.pushPad_PLEN (v : Word) (f : Fsm) : (s.pushPad v f).PLEN = s.PLEN := rfl
@[simp] theorem State.pushPad_N (v : Word) (f : Fsm) : (s.pushPad v f).N = s.N := rfl
@[simp] theorem State.pushPad_LEN (v : Word) (f : Fsm) : (s.pushPad v f).LEN = s.LEN := rfl
@[simp] theorem State.pushPad_FSM (v : Word) (f : Fsm) : (s.pushPad v f).FSM = f := rfl
@[simp] theorem State.pushPad_T (v : Word) (f : Fsm) : (s.pushPad v f).T = s.T := rfl
@[simp] theorem State.pushPad_IDX (v : Word) (f : Fsm) : (s.pushPad v f).IDX = s.IDX + 1 := rfl
@[simp] theorem State.pushPad_BLK (v : Word) (f : Fsm) : (s.pushPad v f).BLK = s.BLK := rfl
@[simp] theorem State.pushPad_BUSY (v : Word) (f : Fsm) : (s.pushPad v f).BUSY = s.BUSY := rfl
@[simp] theorem State.pushPad_DONE (v : Word) (f : Fsm) : (s.pushPad v f).DONE = s.DONE := rfl
@[simp] theorem State.pushPad_ERR (v : Word) (f : Fsm) : (s.pushPad v f).ERR = s.ERR := rfl
@[simp] theorem State.pushPad_ERRCODE (v : Word) (f : Fsm) : (s.pushPad v f).ERRCODE = s.ERRCODE := rfl
@[simp] theorem State.pushPad_msg (v : Word) (f : Fsm) : (s.pushPad v f).msg = s.msg := rfl
@[simp] theorem State.pushPad_alloc (v : Word) (f : Fsm) : (s.pushPad v f).alloc = s.alloc := rfl
@[simp] theorem State.pushPad_rst (v : Word) (f : Fsm) : (s.pushPad v f).rst = s.rst := rfl
@[simp] theorem State.pushPad_inbox (v : Word) (f : Fsm) : (s.pushPad v f).inbox = s.inbox := rfl
@[simp] theorem State.pushPad_rdata (v : Word) (f : Fsm) : (s.pushPad v f).rdata = s.rdata := rfl
@[simp] theorem State.pushPad_hashWritten (v : Word) (f : Fsm) : (s.pushPad v f).hashWritten = s.hashWritten := rfl
@[simp] theorem State.pushPad_calls (v : Word) (f : Fsm) : (s.pushPad v f).calls = s.calls := rfl
@[simp] theorem State.pushPad_draws (v : Word) (f : Fsm) : (s.pushPad v f).draws = s.draws := rfl

/-! ### allocated: allocation granted (R132) -/

@[simp] theorem State.allocated_H : (s.allocated).H = s.H := rfl
@[simp] theorem State.allocated_A : (s.allocated).A = s.A := rfl
@[simp] theorem State.allocated_B : (s.allocated).B = s.B := rfl
@[simp] theorem State.allocated_C : (s.allocated).C = s.C := rfl
@[simp] theorem State.allocated_D : (s.allocated).D = s.D := rfl
@[simp] theorem State.allocated_E : (s.allocated).E = s.E := rfl
@[simp] theorem State.allocated_W : (s.allocated).W = s.W := rfl
@[simp] theorem State.allocated_P : (s.allocated).P = [] := rfl
@[simp] theorem State.allocated_PVALID : (s.allocated).PVALID = true := rfl
@[simp] theorem State.allocated_PLEN : (s.allocated).PLEN = 16 * s.N := rfl
@[simp] theorem State.allocated_N : (s.allocated).N = s.N := rfl
@[simp] theorem State.allocated_LEN : (s.allocated).LEN = s.LEN := rfl
@[simp] theorem State.allocated_FSM : (s.allocated).FSM = afterAlloc s.LEN.toNat := rfl
@[simp] theorem State.allocated_T : (s.allocated).T = s.T := rfl
@[simp] theorem State.allocated_IDX : (s.allocated).IDX = 0 := rfl
@[simp] theorem State.allocated_BLK : (s.allocated).BLK = s.BLK := rfl
@[simp] theorem State.allocated_BUSY : (s.allocated).BUSY = s.BUSY := rfl
@[simp] theorem State.allocated_DONE : (s.allocated).DONE = s.DONE := rfl
@[simp] theorem State.allocated_ERR : (s.allocated).ERR = s.ERR := rfl
@[simp] theorem State.allocated_ERRCODE : (s.allocated).ERRCODE = s.ERRCODE := rfl
@[simp] theorem State.allocated_msg : (s.allocated).msg = s.msg := rfl
@[simp] theorem State.allocated_alloc : (s.allocated).alloc = s.alloc := rfl
@[simp] theorem State.allocated_rst : (s.allocated).rst = s.rst := rfl
@[simp] theorem State.allocated_inbox : (s.allocated).inbox = s.inbox := rfl
@[simp] theorem State.allocated_rdata : (s.allocated).rdata = s.rdata := rfl
@[simp] theorem State.allocated_hashWritten : (s.allocated).hashWritten = s.hashWritten := rfl
@[simp] theorem State.allocated_calls : (s.allocated).calls = s.calls := rfl
@[simp] theorem State.allocated_draws : (s.allocated).draws = s.draws := rfl

/-! ### raiseResourceExhausted: the exception raised (R132) -/

@[simp] theorem State.raiseResourceExhausted_H : (s.raiseResourceExhausted).H = s.H := rfl
@[simp] theorem State.raiseResourceExhausted_A : (s.raiseResourceExhausted).A = s.A := rfl
@[simp] theorem State.raiseResourceExhausted_B : (s.raiseResourceExhausted).B = s.B := rfl
@[simp] theorem State.raiseResourceExhausted_C : (s.raiseResourceExhausted).C = s.C := rfl
@[simp] theorem State.raiseResourceExhausted_D : (s.raiseResourceExhausted).D = s.D := rfl
@[simp] theorem State.raiseResourceExhausted_E : (s.raiseResourceExhausted).E = s.E := rfl
@[simp] theorem State.raiseResourceExhausted_W : (s.raiseResourceExhausted).W = s.W := rfl
@[simp] theorem State.raiseResourceExhausted_P : (s.raiseResourceExhausted).P = s.P := rfl
@[simp] theorem State.raiseResourceExhausted_PVALID : (s.raiseResourceExhausted).PVALID = s.PVALID := rfl
@[simp] theorem State.raiseResourceExhausted_PLEN : (s.raiseResourceExhausted).PLEN = s.PLEN := rfl
@[simp] theorem State.raiseResourceExhausted_N : (s.raiseResourceExhausted).N = s.N := rfl
@[simp] theorem State.raiseResourceExhausted_LEN : (s.raiseResourceExhausted).LEN = s.LEN := rfl
@[simp] theorem State.raiseResourceExhausted_FSM : (s.raiseResourceExhausted).FSM = .fail := rfl
@[simp] theorem State.raiseResourceExhausted_T : (s.raiseResourceExhausted).T = s.T := rfl
@[simp] theorem State.raiseResourceExhausted_IDX : (s.raiseResourceExhausted).IDX = s.IDX := rfl
@[simp] theorem State.raiseResourceExhausted_BLK : (s.raiseResourceExhausted).BLK = s.BLK := rfl
@[simp] theorem State.raiseResourceExhausted_BUSY : (s.raiseResourceExhausted).BUSY = s.BUSY := rfl
@[simp] theorem State.raiseResourceExhausted_DONE : (s.raiseResourceExhausted).DONE = s.DONE := rfl
@[simp] theorem State.raiseResourceExhausted_ERR : (s.raiseResourceExhausted).ERR = s.ERR := rfl
@[simp] theorem State.raiseResourceExhausted_ERRCODE : (s.raiseResourceExhausted).ERRCODE = s.ERRCODE := rfl
@[simp] theorem State.raiseResourceExhausted_msg : (s.raiseResourceExhausted).msg = s.msg := rfl
@[simp] theorem State.raiseResourceExhausted_alloc : (s.raiseResourceExhausted).alloc = s.alloc := rfl
@[simp] theorem State.raiseResourceExhausted_rst : (s.raiseResourceExhausted).rst = s.rst := rfl
@[simp] theorem State.raiseResourceExhausted_inbox : (s.raiseResourceExhausted).inbox = s.inbox := rfl
@[simp] theorem State.raiseResourceExhausted_rdata : (s.raiseResourceExhausted).rdata = s.rdata := rfl
@[simp] theorem State.raiseResourceExhausted_hashWritten : (s.raiseResourceExhausted).hashWritten = s.hashWritten := rfl
@[simp] theorem State.raiseResourceExhausted_calls : (s.raiseResourceExhausted).calls = s.calls := rfl
@[simp] theorem State.raiseResourceExhausted_draws : (s.raiseResourceExhausted).draws = s.draws := rfl

/-! ### enterResourceExhausted: the exception entered (R233) -/

@[simp] theorem State.enterResourceExhausted_H : (s.enterResourceExhausted).H = s.H := rfl
@[simp] theorem State.enterResourceExhausted_A : (s.enterResourceExhausted).A = s.A := rfl
@[simp] theorem State.enterResourceExhausted_B : (s.enterResourceExhausted).B = s.B := rfl
@[simp] theorem State.enterResourceExhausted_C : (s.enterResourceExhausted).C = s.C := rfl
@[simp] theorem State.enterResourceExhausted_D : (s.enterResourceExhausted).D = s.D := rfl
@[simp] theorem State.enterResourceExhausted_E : (s.enterResourceExhausted).E = s.E := rfl
@[simp] theorem State.enterResourceExhausted_W : (s.enterResourceExhausted).W = s.W := rfl
@[simp] theorem State.enterResourceExhausted_P : (s.enterResourceExhausted).P = s.P := rfl
@[simp] theorem State.enterResourceExhausted_PVALID : (s.enterResourceExhausted).PVALID = s.PVALID := rfl
@[simp] theorem State.enterResourceExhausted_PLEN : (s.enterResourceExhausted).PLEN = s.PLEN := rfl
@[simp] theorem State.enterResourceExhausted_N : (s.enterResourceExhausted).N = s.N := rfl
@[simp] theorem State.enterResourceExhausted_LEN : (s.enterResourceExhausted).LEN = s.LEN := rfl
@[simp] theorem State.enterResourceExhausted_FSM : (s.enterResourceExhausted).FSM = .idle := rfl
@[simp] theorem State.enterResourceExhausted_T : (s.enterResourceExhausted).T = s.T := rfl
@[simp] theorem State.enterResourceExhausted_IDX : (s.enterResourceExhausted).IDX = s.IDX := rfl
@[simp] theorem State.enterResourceExhausted_BLK : (s.enterResourceExhausted).BLK = s.BLK := rfl
@[simp] theorem State.enterResourceExhausted_BUSY : (s.enterResourceExhausted).BUSY = false := rfl
@[simp] theorem State.enterResourceExhausted_DONE : (s.enterResourceExhausted).DONE = s.DONE := rfl
@[simp] theorem State.enterResourceExhausted_ERR : (s.enterResourceExhausted).ERR = true := rfl
@[simp] theorem State.enterResourceExhausted_ERRCODE : (s.enterResourceExhausted).ERRCODE = resourceExhaustedCode := rfl
@[simp] theorem State.enterResourceExhausted_msg : (s.enterResourceExhausted).msg = s.msg := rfl
@[simp] theorem State.enterResourceExhausted_alloc : (s.enterResourceExhausted).alloc = s.alloc := rfl
@[simp] theorem State.enterResourceExhausted_rst : (s.enterResourceExhausted).rst = s.rst := rfl
@[simp] theorem State.enterResourceExhausted_inbox : (s.enterResourceExhausted).inbox = s.inbox := rfl
@[simp] theorem State.enterResourceExhausted_rdata : (s.enterResourceExhausted).rdata = s.rdata := rfl
@[simp] theorem State.enterResourceExhausted_hashWritten : (s.enterResourceExhausted).hashWritten = s.hashWritten := rfl
@[simp] theorem State.enterResourceExhausted_calls : (s.enterResourceExhausted).calls = s.calls := rfl
@[simp] theorem State.enterResourceExhausted_draws : (s.enterResourceExhausted).draws = s.draws := rfl

/-! ### acceptStart: an accepted START (R212) -/

@[simp] theorem State.acceptStart_H : (s.acceptStart).H = s.H := rfl
@[simp] theorem State.acceptStart_A : (s.acceptStart).A = s.A := rfl
@[simp] theorem State.acceptStart_B : (s.acceptStart).B = s.B := rfl
@[simp] theorem State.acceptStart_C : (s.acceptStart).C = s.C := rfl
@[simp] theorem State.acceptStart_D : (s.acceptStart).D = s.D := rfl
@[simp] theorem State.acceptStart_E : (s.acceptStart).E = s.E := rfl
@[simp] theorem State.acceptStart_W : (s.acceptStart).W = s.W := rfl
@[simp] theorem State.acceptStart_P : (s.acceptStart).P = s.P := rfl
@[simp] theorem State.acceptStart_PVALID : (s.acceptStart).PVALID = s.PVALID := rfl
@[simp] theorem State.acceptStart_PLEN : (s.acceptStart).PLEN = s.PLEN := rfl
@[simp] theorem State.acceptStart_N : (s.acceptStart).N = s.N := rfl
@[simp] theorem State.acceptStart_LEN : (s.acceptStart).LEN = s.LEN := rfl
@[simp] theorem State.acceptStart_FSM : (s.acceptStart).FSM = .count := rfl
@[simp] theorem State.acceptStart_T : (s.acceptStart).T = s.T := rfl
@[simp] theorem State.acceptStart_IDX : (s.acceptStart).IDX = s.IDX := rfl
@[simp] theorem State.acceptStart_BLK : (s.acceptStart).BLK = s.BLK := rfl
@[simp] theorem State.acceptStart_BUSY : (s.acceptStart).BUSY = true := rfl
@[simp] theorem State.acceptStart_DONE : (s.acceptStart).DONE = false := rfl
@[simp] theorem State.acceptStart_ERR : (s.acceptStart).ERR = false := rfl
@[simp] theorem State.acceptStart_ERRCODE : (s.acceptStart).ERRCODE = 0 := rfl
@[simp] theorem State.acceptStart_msg : (s.acceptStart).msg = s.msg := rfl
@[simp] theorem State.acceptStart_alloc : (s.acceptStart).alloc = s.alloc := rfl
@[simp] theorem State.acceptStart_rst : (s.acceptStart).rst = s.rst := rfl
@[simp] theorem State.acceptStart_inbox : (s.acceptStart).inbox = s.inbox := rfl
@[simp] theorem State.acceptStart_rdata : (s.acceptStart).rdata = s.rdata := rfl
@[simp] theorem State.acceptStart_hashWritten : (s.acceptStart).hashWritten = s.hashWritten := rfl
@[simp] theorem State.acceptStart_calls : (s.acceptStart).calls = s.calls + 1 := rfl
@[simp] theorem State.acceptStart_draws : (s.acceptStart).draws = s.draws := rfl

/-! ### goto: control transfer -/

@[simp] theorem State.goto_H (f : Fsm) : (s.goto f).H = s.H := rfl
@[simp] theorem State.goto_A (f : Fsm) : (s.goto f).A = s.A := rfl
@[simp] theorem State.goto_B (f : Fsm) : (s.goto f).B = s.B := rfl
@[simp] theorem State.goto_C (f : Fsm) : (s.goto f).C = s.C := rfl
@[simp] theorem State.goto_D (f : Fsm) : (s.goto f).D = s.D := rfl
@[simp] theorem State.goto_E (f : Fsm) : (s.goto f).E = s.E := rfl
@[simp] theorem State.goto_W (f : Fsm) : (s.goto f).W = s.W := rfl
@[simp] theorem State.goto_P (f : Fsm) : (s.goto f).P = s.P := rfl
@[simp] theorem State.goto_PVALID (f : Fsm) : (s.goto f).PVALID = s.PVALID := rfl
@[simp] theorem State.goto_PLEN (f : Fsm) : (s.goto f).PLEN = s.PLEN := rfl
@[simp] theorem State.goto_N (f : Fsm) : (s.goto f).N = s.N := rfl
@[simp] theorem State.goto_LEN (f : Fsm) : (s.goto f).LEN = s.LEN := rfl
@[simp] theorem State.goto_FSM (f : Fsm) : (s.goto f).FSM = f := rfl
@[simp] theorem State.goto_T (f : Fsm) : (s.goto f).T = s.T := rfl
@[simp] theorem State.goto_IDX (f : Fsm) : (s.goto f).IDX = s.IDX := rfl
@[simp] theorem State.goto_BLK (f : Fsm) : (s.goto f).BLK = s.BLK := rfl
@[simp] theorem State.goto_BUSY (f : Fsm) : (s.goto f).BUSY = s.BUSY := rfl
@[simp] theorem State.goto_DONE (f : Fsm) : (s.goto f).DONE = s.DONE := rfl
@[simp] theorem State.goto_ERR (f : Fsm) : (s.goto f).ERR = s.ERR := rfl
@[simp] theorem State.goto_ERRCODE (f : Fsm) : (s.goto f).ERRCODE = s.ERRCODE := rfl
@[simp] theorem State.goto_msg (f : Fsm) : (s.goto f).msg = s.msg := rfl
@[simp] theorem State.goto_alloc (f : Fsm) : (s.goto f).alloc = s.alloc := rfl
@[simp] theorem State.goto_rst (f : Fsm) : (s.goto f).rst = s.rst := rfl
@[simp] theorem State.goto_inbox (f : Fsm) : (s.goto f).inbox = s.inbox := rfl
@[simp] theorem State.goto_rdata (f : Fsm) : (s.goto f).rdata = s.rdata := rfl
@[simp] theorem State.goto_hashWritten (f : Fsm) : (s.goto f).hashWritten = s.hashWritten := rfl
@[simp] theorem State.goto_calls (f : Fsm) : (s.goto f).calls = s.calls := rfl
@[simp] theorem State.goto_draws (f : Fsm) : (s.goto f).draws = s.draws := rfl

/-! ### counted: the block count written (R131) -/

@[simp] theorem State.counted_H (n : Nat) : (s.counted n).H = s.H := rfl
@[simp] theorem State.counted_A (n : Nat) : (s.counted n).A = s.A := rfl
@[simp] theorem State.counted_B (n : Nat) : (s.counted n).B = s.B := rfl
@[simp] theorem State.counted_C (n : Nat) : (s.counted n).C = s.C := rfl
@[simp] theorem State.counted_D (n : Nat) : (s.counted n).D = s.D := rfl
@[simp] theorem State.counted_E (n : Nat) : (s.counted n).E = s.E := rfl
@[simp] theorem State.counted_W (n : Nat) : (s.counted n).W = s.W := rfl
@[simp] theorem State.counted_P (n : Nat) : (s.counted n).P = s.P := rfl
@[simp] theorem State.counted_PVALID (n : Nat) : (s.counted n).PVALID = s.PVALID := rfl
@[simp] theorem State.counted_PLEN (n : Nat) : (s.counted n).PLEN = s.PLEN := rfl
@[simp] theorem State.counted_N (n : Nat) : (s.counted n).N = n := rfl
@[simp] theorem State.counted_LEN (n : Nat) : (s.counted n).LEN = s.LEN := rfl
@[simp] theorem State.counted_FSM (n : Nat) : (s.counted n).FSM = .alloc := rfl
@[simp] theorem State.counted_T (n : Nat) : (s.counted n).T = s.T := rfl
@[simp] theorem State.counted_IDX (n : Nat) : (s.counted n).IDX = s.IDX := rfl
@[simp] theorem State.counted_BLK (n : Nat) : (s.counted n).BLK = s.BLK := rfl
@[simp] theorem State.counted_BUSY (n : Nat) : (s.counted n).BUSY = s.BUSY := rfl
@[simp] theorem State.counted_DONE (n : Nat) : (s.counted n).DONE = s.DONE := rfl
@[simp] theorem State.counted_ERR (n : Nat) : (s.counted n).ERR = s.ERR := rfl
@[simp] theorem State.counted_ERRCODE (n : Nat) : (s.counted n).ERRCODE = s.ERRCODE := rfl
@[simp] theorem State.counted_msg (n : Nat) : (s.counted n).msg = s.msg := rfl
@[simp] theorem State.counted_alloc (n : Nat) : (s.counted n).alloc = s.alloc := rfl
@[simp] theorem State.counted_rst (n : Nat) : (s.counted n).rst = s.rst := rfl
@[simp] theorem State.counted_inbox (n : Nat) : (s.counted n).inbox = s.inbox := rfl
@[simp] theorem State.counted_rdata (n : Nat) : (s.counted n).rdata = s.rdata := rfl
@[simp] theorem State.counted_hashWritten (n : Nat) : (s.counted n).hashWritten = s.hashWritten := rfl
@[simp] theorem State.counted_calls (n : Nat) : (s.counted n).calls = s.calls := rfl
@[simp] theorem State.counted_draws (n : Nat) : (s.counted n).draws = s.draws := rfl

/-! ### initHash: the Hash initialised (R192) -/

@[simp] theorem State.initHash_H : (s.initHash).H = iv := rfl
@[simp] theorem State.initHash_A : (s.initHash).A = s.A := rfl
@[simp] theorem State.initHash_B : (s.initHash).B = s.B := rfl
@[simp] theorem State.initHash_C : (s.initHash).C = s.C := rfl
@[simp] theorem State.initHash_D : (s.initHash).D = s.D := rfl
@[simp] theorem State.initHash_E : (s.initHash).E = s.E := rfl
@[simp] theorem State.initHash_W : (s.initHash).W = s.W := rfl
@[simp] theorem State.initHash_P : (s.initHash).P = s.P := rfl
@[simp] theorem State.initHash_PVALID : (s.initHash).PVALID = s.PVALID := rfl
@[simp] theorem State.initHash_PLEN : (s.initHash).PLEN = s.PLEN := rfl
@[simp] theorem State.initHash_N : (s.initHash).N = s.N := rfl
@[simp] theorem State.initHash_LEN : (s.initHash).LEN = s.LEN := rfl
@[simp] theorem State.initHash_FSM : (s.initHash).FSM = .next := rfl
@[simp] theorem State.initHash_T : (s.initHash).T = s.T := rfl
@[simp] theorem State.initHash_IDX : (s.initHash).IDX = s.IDX := rfl
@[simp] theorem State.initHash_BLK : (s.initHash).BLK = 0 := rfl
@[simp] theorem State.initHash_BUSY : (s.initHash).BUSY = s.BUSY := rfl
@[simp] theorem State.initHash_DONE : (s.initHash).DONE = s.DONE := rfl
@[simp] theorem State.initHash_ERR : (s.initHash).ERR = s.ERR := rfl
@[simp] theorem State.initHash_ERRCODE : (s.initHash).ERRCODE = s.ERRCODE := rfl
@[simp] theorem State.initHash_msg : (s.initHash).msg = s.msg := rfl
@[simp] theorem State.initHash_alloc : (s.initHash).alloc = s.alloc := rfl
@[simp] theorem State.initHash_rst : (s.initHash).rst = s.rst := rfl
@[simp] theorem State.initHash_inbox : (s.initHash).inbox = s.inbox := rfl
@[simp] theorem State.initHash_rdata : (s.initHash).rdata = s.rdata := rfl
@[simp] theorem State.initHash_hashWritten : (s.initHash).hashWritten = true := rfl
@[simp] theorem State.initHash_calls : (s.initHash).calls = s.calls := rfl
@[simp] theorem State.initHash_draws : (s.initHash).draws = s.draws := rfl

/-! ### loadBlock: a block loaded (R161) -/

@[simp] theorem State.loadBlock_H (w : Vector Word 16) : (s.loadBlock w).H = s.H := rfl
@[simp] theorem State.loadBlock_A (w : Vector Word 16) : (s.loadBlock w).A = s.H[0] := rfl
@[simp] theorem State.loadBlock_B (w : Vector Word 16) : (s.loadBlock w).B = s.H[1] := rfl
@[simp] theorem State.loadBlock_C (w : Vector Word 16) : (s.loadBlock w).C = s.H[2] := rfl
@[simp] theorem State.loadBlock_D (w : Vector Word 16) : (s.loadBlock w).D = s.H[3] := rfl
@[simp] theorem State.loadBlock_E (w : Vector Word 16) : (s.loadBlock w).E = s.H[4] := rfl
@[simp] theorem State.loadBlock_W (w : Vector Word 16) : (s.loadBlock w).W = w := rfl
@[simp] theorem State.loadBlock_P (w : Vector Word 16) : (s.loadBlock w).P = s.P := rfl
@[simp] theorem State.loadBlock_PVALID (w : Vector Word 16) : (s.loadBlock w).PVALID = s.PVALID := rfl
@[simp] theorem State.loadBlock_PLEN (w : Vector Word 16) : (s.loadBlock w).PLEN = s.PLEN := rfl
@[simp] theorem State.loadBlock_N (w : Vector Word 16) : (s.loadBlock w).N = s.N := rfl
@[simp] theorem State.loadBlock_LEN (w : Vector Word 16) : (s.loadBlock w).LEN = s.LEN := rfl
@[simp] theorem State.loadBlock_FSM (w : Vector Word 16) : (s.loadBlock w).FSM = .round := rfl
@[simp] theorem State.loadBlock_T (w : Vector Word 16) : (s.loadBlock w).T = 0 := rfl
@[simp] theorem State.loadBlock_IDX (w : Vector Word 16) : (s.loadBlock w).IDX = s.IDX := rfl
@[simp] theorem State.loadBlock_BLK (w : Vector Word 16) : (s.loadBlock w).BLK = s.BLK := rfl
@[simp] theorem State.loadBlock_BUSY (w : Vector Word 16) : (s.loadBlock w).BUSY = s.BUSY := rfl
@[simp] theorem State.loadBlock_DONE (w : Vector Word 16) : (s.loadBlock w).DONE = s.DONE := rfl
@[simp] theorem State.loadBlock_ERR (w : Vector Word 16) : (s.loadBlock w).ERR = s.ERR := rfl
@[simp] theorem State.loadBlock_ERRCODE (w : Vector Word 16) : (s.loadBlock w).ERRCODE = s.ERRCODE := rfl
@[simp] theorem State.loadBlock_msg (w : Vector Word 16) : (s.loadBlock w).msg = s.msg := rfl
@[simp] theorem State.loadBlock_alloc (w : Vector Word 16) : (s.loadBlock w).alloc = s.alloc := rfl
@[simp] theorem State.loadBlock_rst (w : Vector Word 16) : (s.loadBlock w).rst = s.rst := rfl
@[simp] theorem State.loadBlock_inbox (w : Vector Word 16) : (s.loadBlock w).inbox = s.inbox := rfl
@[simp] theorem State.loadBlock_rdata (w : Vector Word 16) : (s.loadBlock w).rdata = s.rdata := rfl
@[simp] theorem State.loadBlock_hashWritten (w : Vector Word 16) : (s.loadBlock w).hashWritten = s.hashWritten := rfl
@[simp] theorem State.loadBlock_calls (w : Vector Word 16) : (s.loadBlock w).calls = s.calls := rfl
@[simp] theorem State.loadBlock_draws (w : Vector Word 16) : (s.loadBlock w).draws = s.draws := rfl

/-! ### putSchedule: a schedule word written (R162) -/

@[simp] theorem State.putSchedule_H (v : Word) : (s.putSchedule v).H = s.H := rfl
@[simp] theorem State.putSchedule_A (v : Word) : (s.putSchedule v).A = s.A := rfl
@[simp] theorem State.putSchedule_B (v : Word) : (s.putSchedule v).B = s.B := rfl
@[simp] theorem State.putSchedule_C (v : Word) : (s.putSchedule v).C = s.C := rfl
@[simp] theorem State.putSchedule_D (v : Word) : (s.putSchedule v).D = s.D := rfl
@[simp] theorem State.putSchedule_E (v : Word) : (s.putSchedule v).E = s.E := rfl
@[simp] theorem State.putSchedule_W (v : Word) : (s.putSchedule v).W = ringSet s.W s.T.toNat v := rfl
@[simp] theorem State.putSchedule_P (v : Word) : (s.putSchedule v).P = s.P := rfl
@[simp] theorem State.putSchedule_PVALID (v : Word) : (s.putSchedule v).PVALID = s.PVALID := rfl
@[simp] theorem State.putSchedule_PLEN (v : Word) : (s.putSchedule v).PLEN = s.PLEN := rfl
@[simp] theorem State.putSchedule_N (v : Word) : (s.putSchedule v).N = s.N := rfl
@[simp] theorem State.putSchedule_LEN (v : Word) : (s.putSchedule v).LEN = s.LEN := rfl
@[simp] theorem State.putSchedule_FSM (v : Word) : (s.putSchedule v).FSM = .round := rfl
@[simp] theorem State.putSchedule_T (v : Word) : (s.putSchedule v).T = s.T := rfl
@[simp] theorem State.putSchedule_IDX (v : Word) : (s.putSchedule v).IDX = s.IDX := rfl
@[simp] theorem State.putSchedule_BLK (v : Word) : (s.putSchedule v).BLK = s.BLK := rfl
@[simp] theorem State.putSchedule_BUSY (v : Word) : (s.putSchedule v).BUSY = s.BUSY := rfl
@[simp] theorem State.putSchedule_DONE (v : Word) : (s.putSchedule v).DONE = s.DONE := rfl
@[simp] theorem State.putSchedule_ERR (v : Word) : (s.putSchedule v).ERR = s.ERR := rfl
@[simp] theorem State.putSchedule_ERRCODE (v : Word) : (s.putSchedule v).ERRCODE = s.ERRCODE := rfl
@[simp] theorem State.putSchedule_msg (v : Word) : (s.putSchedule v).msg = s.msg := rfl
@[simp] theorem State.putSchedule_alloc (v : Word) : (s.putSchedule v).alloc = s.alloc := rfl
@[simp] theorem State.putSchedule_rst (v : Word) : (s.putSchedule v).rst = s.rst := rfl
@[simp] theorem State.putSchedule_inbox (v : Word) : (s.putSchedule v).inbox = s.inbox := rfl
@[simp] theorem State.putSchedule_rdata (v : Word) : (s.putSchedule v).rdata = s.rdata := rfl
@[simp] theorem State.putSchedule_hashWritten (v : Word) : (s.putSchedule v).hashWritten = s.hashWritten := rfl
@[simp] theorem State.putSchedule_calls (v : Word) : (s.putSchedule v).calls = s.calls := rfl
@[simp] theorem State.putSchedule_draws (v : Word) : (s.putSchedule v).draws = s.draws := rfl

/-! ### shiftRound: the register shift of a round (R166) -/

@[simp] theorem State.shiftRound_H (temp : Word) : (s.shiftRound temp).H = s.H := rfl
@[simp] theorem State.shiftRound_A (temp : Word) : (s.shiftRound temp).A = temp := rfl
@[simp] theorem State.shiftRound_B (temp : Word) : (s.shiftRound temp).B = s.A := rfl
@[simp] theorem State.shiftRound_C (temp : Word) : (s.shiftRound temp).C = rotl s.B 30 := rfl
@[simp] theorem State.shiftRound_D (temp : Word) : (s.shiftRound temp).D = s.C := rfl
@[simp] theorem State.shiftRound_E (temp : Word) : (s.shiftRound temp).E = s.D := rfl
@[simp] theorem State.shiftRound_W (temp : Word) : (s.shiftRound temp).W = s.W := rfl
@[simp] theorem State.shiftRound_P (temp : Word) : (s.shiftRound temp).P = s.P := rfl
@[simp] theorem State.shiftRound_PVALID (temp : Word) : (s.shiftRound temp).PVALID = s.PVALID := rfl
@[simp] theorem State.shiftRound_PLEN (temp : Word) : (s.shiftRound temp).PLEN = s.PLEN := rfl
@[simp] theorem State.shiftRound_N (temp : Word) : (s.shiftRound temp).N = s.N := rfl
@[simp] theorem State.shiftRound_LEN (temp : Word) : (s.shiftRound temp).LEN = s.LEN := rfl
@[simp] theorem State.shiftRound_FSM (temp : Word) : (s.shiftRound temp).FSM = afterRound (s.T.toNat + 1) := rfl
@[simp] theorem State.shiftRound_T (temp : Word) : (s.shiftRound temp).T = s.T + 1 := rfl
@[simp] theorem State.shiftRound_IDX (temp : Word) : (s.shiftRound temp).IDX = s.IDX := rfl
@[simp] theorem State.shiftRound_BLK (temp : Word) : (s.shiftRound temp).BLK = s.BLK := rfl
@[simp] theorem State.shiftRound_BUSY (temp : Word) : (s.shiftRound temp).BUSY = s.BUSY := rfl
@[simp] theorem State.shiftRound_DONE (temp : Word) : (s.shiftRound temp).DONE = s.DONE := rfl
@[simp] theorem State.shiftRound_ERR (temp : Word) : (s.shiftRound temp).ERR = s.ERR := rfl
@[simp] theorem State.shiftRound_ERRCODE (temp : Word) : (s.shiftRound temp).ERRCODE = s.ERRCODE := rfl
@[simp] theorem State.shiftRound_msg (temp : Word) : (s.shiftRound temp).msg = s.msg := rfl
@[simp] theorem State.shiftRound_alloc (temp : Word) : (s.shiftRound temp).alloc = s.alloc := rfl
@[simp] theorem State.shiftRound_rst (temp : Word) : (s.shiftRound temp).rst = s.rst := rfl
@[simp] theorem State.shiftRound_inbox (temp : Word) : (s.shiftRound temp).inbox = s.inbox := rfl
@[simp] theorem State.shiftRound_rdata (temp : Word) : (s.shiftRound temp).rdata = s.rdata := rfl
@[simp] theorem State.shiftRound_hashWritten (temp : Word) : (s.shiftRound temp).hashWritten = s.hashWritten := rfl
@[simp] theorem State.shiftRound_calls (temp : Word) : (s.shiftRound temp).calls = s.calls := rfl
@[simp] theorem State.shiftRound_draws (temp : Word) : (s.shiftRound temp).draws = s.draws := rfl

/-! ### feedForward: the feed-forward (R172) -/

@[simp] theorem State.feedForward_H : (s.feedForward).H = #v[s.H[0] + s.A, s.H[1] + s.B, s.H[2] + s.C, s.H[3] + s.D, s.H[4] + s.E] := rfl
@[simp] theorem State.feedForward_A : (s.feedForward).A = s.A := rfl
@[simp] theorem State.feedForward_B : (s.feedForward).B = s.B := rfl
@[simp] theorem State.feedForward_C : (s.feedForward).C = s.C := rfl
@[simp] theorem State.feedForward_D : (s.feedForward).D = s.D := rfl
@[simp] theorem State.feedForward_E : (s.feedForward).E = s.E := rfl
@[simp] theorem State.feedForward_W : (s.feedForward).W = s.W := rfl
@[simp] theorem State.feedForward_P : (s.feedForward).P = s.P := rfl
@[simp] theorem State.feedForward_PVALID : (s.feedForward).PVALID = s.PVALID := rfl
@[simp] theorem State.feedForward_PLEN : (s.feedForward).PLEN = s.PLEN := rfl
@[simp] theorem State.feedForward_N : (s.feedForward).N = s.N := rfl
@[simp] theorem State.feedForward_LEN : (s.feedForward).LEN = s.LEN := rfl
@[simp] theorem State.feedForward_FSM : (s.feedForward).FSM = .next := rfl
@[simp] theorem State.feedForward_T : (s.feedForward).T = s.T := rfl
@[simp] theorem State.feedForward_IDX : (s.feedForward).IDX = s.IDX := rfl
@[simp] theorem State.feedForward_BLK : (s.feedForward).BLK = s.BLK + 1 := rfl
@[simp] theorem State.feedForward_BUSY : (s.feedForward).BUSY = s.BUSY := rfl
@[simp] theorem State.feedForward_DONE : (s.feedForward).DONE = s.DONE := rfl
@[simp] theorem State.feedForward_ERR : (s.feedForward).ERR = s.ERR := rfl
@[simp] theorem State.feedForward_ERRCODE : (s.feedForward).ERRCODE = s.ERRCODE := rfl
@[simp] theorem State.feedForward_msg : (s.feedForward).msg = s.msg := rfl
@[simp] theorem State.feedForward_alloc : (s.feedForward).alloc = s.alloc := rfl
@[simp] theorem State.feedForward_rst : (s.feedForward).rst = s.rst := rfl
@[simp] theorem State.feedForward_inbox : (s.feedForward).inbox = s.inbox := rfl
@[simp] theorem State.feedForward_rdata : (s.feedForward).rdata = s.rdata := rfl
@[simp] theorem State.feedForward_hashWritten : (s.feedForward).hashWritten = s.hashWritten := rfl
@[simp] theorem State.feedForward_calls : (s.feedForward).calls = s.calls := rfl
@[simp] theorem State.feedForward_draws : (s.feedForward).draws = s.draws := rfl

/-! ### releasePad: release and completion (R194) -/

@[simp] theorem State.releasePad_H : (s.releasePad).H = s.H := rfl
@[simp] theorem State.releasePad_A : (s.releasePad).A = s.A := rfl
@[simp] theorem State.releasePad_B : (s.releasePad).B = s.B := rfl
@[simp] theorem State.releasePad_C : (s.releasePad).C = s.C := rfl
@[simp] theorem State.releasePad_D : (s.releasePad).D = s.D := rfl
@[simp] theorem State.releasePad_E : (s.releasePad).E = s.E := rfl
@[simp] theorem State.releasePad_W : (s.releasePad).W = s.W := rfl
@[simp] theorem State.releasePad_P : (s.releasePad).P = [] := rfl
@[simp] theorem State.releasePad_PVALID : (s.releasePad).PVALID = false := rfl
@[simp] theorem State.releasePad_PLEN : (s.releasePad).PLEN = 0 := rfl
@[simp] theorem State.releasePad_N : (s.releasePad).N = s.N := rfl
@[simp] theorem State.releasePad_LEN : (s.releasePad).LEN = s.LEN := rfl
@[simp] theorem State.releasePad_FSM : (s.releasePad).FSM = .idle := rfl
@[simp] theorem State.releasePad_T : (s.releasePad).T = s.T := rfl
@[simp] theorem State.releasePad_IDX : (s.releasePad).IDX = s.IDX := rfl
@[simp] theorem State.releasePad_BLK : (s.releasePad).BLK = s.BLK := rfl
@[simp] theorem State.releasePad_BUSY : (s.releasePad).BUSY = false := rfl
@[simp] theorem State.releasePad_DONE : (s.releasePad).DONE = true := rfl
@[simp] theorem State.releasePad_ERR : (s.releasePad).ERR = s.ERR := rfl
@[simp] theorem State.releasePad_ERRCODE : (s.releasePad).ERRCODE = s.ERRCODE := rfl
@[simp] theorem State.releasePad_msg : (s.releasePad).msg = s.msg := rfl
@[simp] theorem State.releasePad_alloc : (s.releasePad).alloc = s.alloc := rfl
@[simp] theorem State.releasePad_rst : (s.releasePad).rst = s.rst := rfl
@[simp] theorem State.releasePad_inbox : (s.releasePad).inbox = s.inbox := rfl
@[simp] theorem State.releasePad_rdata : (s.releasePad).rdata = s.rdata := rfl
@[simp] theorem State.releasePad_hashWritten : (s.releasePad).hashWritten = s.hashWritten := rfl
@[simp] theorem State.releasePad_calls : (s.releasePad).calls = s.calls := rfl
@[simp] theorem State.releasePad_draws : (s.releasePad).draws = s.draws := rfl

/-! ### respond: a host read answered -/

@[simp] theorem State.respond_H (v : Word) : (s.respond v).H = s.H := rfl
@[simp] theorem State.respond_A (v : Word) : (s.respond v).A = s.A := rfl
@[simp] theorem State.respond_B (v : Word) : (s.respond v).B = s.B := rfl
@[simp] theorem State.respond_C (v : Word) : (s.respond v).C = s.C := rfl
@[simp] theorem State.respond_D (v : Word) : (s.respond v).D = s.D := rfl
@[simp] theorem State.respond_E (v : Word) : (s.respond v).E = s.E := rfl
@[simp] theorem State.respond_W (v : Word) : (s.respond v).W = s.W := rfl
@[simp] theorem State.respond_P (v : Word) : (s.respond v).P = s.P := rfl
@[simp] theorem State.respond_PVALID (v : Word) : (s.respond v).PVALID = s.PVALID := rfl
@[simp] theorem State.respond_PLEN (v : Word) : (s.respond v).PLEN = s.PLEN := rfl
@[simp] theorem State.respond_N (v : Word) : (s.respond v).N = s.N := rfl
@[simp] theorem State.respond_LEN (v : Word) : (s.respond v).LEN = s.LEN := rfl
@[simp] theorem State.respond_FSM (v : Word) : (s.respond v).FSM = s.FSM := rfl
@[simp] theorem State.respond_T (v : Word) : (s.respond v).T = s.T := rfl
@[simp] theorem State.respond_IDX (v : Word) : (s.respond v).IDX = s.IDX := rfl
@[simp] theorem State.respond_BLK (v : Word) : (s.respond v).BLK = s.BLK := rfl
@[simp] theorem State.respond_BUSY (v : Word) : (s.respond v).BUSY = s.BUSY := rfl
@[simp] theorem State.respond_DONE (v : Word) : (s.respond v).DONE = s.DONE := rfl
@[simp] theorem State.respond_ERR (v : Word) : (s.respond v).ERR = s.ERR := rfl
@[simp] theorem State.respond_ERRCODE (v : Word) : (s.respond v).ERRCODE = s.ERRCODE := rfl
@[simp] theorem State.respond_msg (v : Word) : (s.respond v).msg = s.msg := rfl
@[simp] theorem State.respond_alloc (v : Word) : (s.respond v).alloc = s.alloc := rfl
@[simp] theorem State.respond_rst (v : Word) : (s.respond v).rst = s.rst := rfl
@[simp] theorem State.respond_inbox (v : Word) : (s.respond v).inbox = s.inbox := rfl
@[simp] theorem State.respond_rdata (v : Word) : (s.respond v).rdata = v := rfl
@[simp] theorem State.respond_hashWritten (v : Word) : (s.respond v).hashWritten = s.hashWritten := rfl
@[simp] theorem State.respond_calls (v : Word) : (s.respond v).calls = s.calls := rfl
@[simp] theorem State.respond_draws (v : Word) : (s.respond v).draws = s.draws := rfl

/-! ### respondFree: a host read without a value (U3, U4) -/

@[simp] theorem State.respondFree_H (i : Nat) : (s.respondFree i).H = s.H := rfl
@[simp] theorem State.respondFree_A (i : Nat) : (s.respondFree i).A = s.A := rfl
@[simp] theorem State.respondFree_B (i : Nat) : (s.respondFree i).B = s.B := rfl
@[simp] theorem State.respondFree_C (i : Nat) : (s.respondFree i).C = s.C := rfl
@[simp] theorem State.respondFree_D (i : Nat) : (s.respondFree i).D = s.D := rfl
@[simp] theorem State.respondFree_E (i : Nat) : (s.respondFree i).E = s.E := rfl
@[simp] theorem State.respondFree_W (i : Nat) : (s.respondFree i).W = s.W := rfl
@[simp] theorem State.respondFree_P (i : Nat) : (s.respondFree i).P = s.P := rfl
@[simp] theorem State.respondFree_PVALID (i : Nat) : (s.respondFree i).PVALID = s.PVALID := rfl
@[simp] theorem State.respondFree_PLEN (i : Nat) : (s.respondFree i).PLEN = s.PLEN := rfl
@[simp] theorem State.respondFree_N (i : Nat) : (s.respondFree i).N = s.N := rfl
@[simp] theorem State.respondFree_LEN (i : Nat) : (s.respondFree i).LEN = s.LEN := rfl
@[simp] theorem State.respondFree_FSM (i : Nat) : (s.respondFree i).FSM = s.FSM := rfl
@[simp] theorem State.respondFree_T (i : Nat) : (s.respondFree i).T = s.T := rfl
@[simp] theorem State.respondFree_IDX (i : Nat) : (s.respondFree i).IDX = s.IDX := rfl
@[simp] theorem State.respondFree_BLK (i : Nat) : (s.respondFree i).BLK = s.BLK := rfl
@[simp] theorem State.respondFree_BUSY (i : Nat) : (s.respondFree i).BUSY = s.BUSY := rfl
@[simp] theorem State.respondFree_DONE (i : Nat) : (s.respondFree i).DONE = s.DONE := rfl
@[simp] theorem State.respondFree_ERR (i : Nat) : (s.respondFree i).ERR = s.ERR := rfl
@[simp] theorem State.respondFree_ERRCODE (i : Nat) : (s.respondFree i).ERRCODE = s.ERRCODE := rfl
@[simp] theorem State.respondFree_msg (i : Nat) : (s.respondFree i).msg = s.msg := rfl
@[simp] theorem State.respondFree_alloc (i : Nat) : (s.respondFree i).alloc = s.alloc := rfl
@[simp] theorem State.respondFree_rst (i : Nat) : (s.respondFree i).rst = s.rst := rfl
@[simp] theorem State.respondFree_inbox (i : Nat) : (s.respondFree i).inbox = s.inbox := rfl
@[simp] theorem State.respondFree_rdata (i : Nat) : (s.respondFree i).rdata = Config.digestRead s.draws i := rfl
@[simp] theorem State.respondFree_hashWritten (i : Nat) : (s.respondFree i).hashWritten = s.hashWritten := rfl
@[simp] theorem State.respondFree_calls (i : Nat) : (s.respondFree i).calls = s.calls := rfl
@[simp] theorem State.respondFree_draws (i : Nat) : (s.respondFree i).draws = s.draws + 1 := rfl

/-! ### setLen: the length written -/

@[simp] theorem State.setLen_H (len : BitVec 61) : (s.setLen len).H = s.H := rfl
@[simp] theorem State.setLen_A (len : BitVec 61) : (s.setLen len).A = s.A := rfl
@[simp] theorem State.setLen_B (len : BitVec 61) : (s.setLen len).B = s.B := rfl
@[simp] theorem State.setLen_C (len : BitVec 61) : (s.setLen len).C = s.C := rfl
@[simp] theorem State.setLen_D (len : BitVec 61) : (s.setLen len).D = s.D := rfl
@[simp] theorem State.setLen_E (len : BitVec 61) : (s.setLen len).E = s.E := rfl
@[simp] theorem State.setLen_W (len : BitVec 61) : (s.setLen len).W = s.W := rfl
@[simp] theorem State.setLen_P (len : BitVec 61) : (s.setLen len).P = s.P := rfl
@[simp] theorem State.setLen_PVALID (len : BitVec 61) : (s.setLen len).PVALID = s.PVALID := rfl
@[simp] theorem State.setLen_PLEN (len : BitVec 61) : (s.setLen len).PLEN = s.PLEN := rfl
@[simp] theorem State.setLen_N (len : BitVec 61) : (s.setLen len).N = s.N := rfl
@[simp] theorem State.setLen_LEN (len : BitVec 61) : (s.setLen len).LEN = len := rfl
@[simp] theorem State.setLen_FSM (len : BitVec 61) : (s.setLen len).FSM = s.FSM := rfl
@[simp] theorem State.setLen_T (len : BitVec 61) : (s.setLen len).T = s.T := rfl
@[simp] theorem State.setLen_IDX (len : BitVec 61) : (s.setLen len).IDX = s.IDX := rfl
@[simp] theorem State.setLen_BLK (len : BitVec 61) : (s.setLen len).BLK = s.BLK := rfl
@[simp] theorem State.setLen_BUSY (len : BitVec 61) : (s.setLen len).BUSY = s.BUSY := rfl
@[simp] theorem State.setLen_DONE (len : BitVec 61) : (s.setLen len).DONE = s.DONE := rfl
@[simp] theorem State.setLen_ERR (len : BitVec 61) : (s.setLen len).ERR = s.ERR := rfl
@[simp] theorem State.setLen_ERRCODE (len : BitVec 61) : (s.setLen len).ERRCODE = s.ERRCODE := rfl
@[simp] theorem State.setLen_msg (len : BitVec 61) : (s.setLen len).msg = s.msg := rfl
@[simp] theorem State.setLen_alloc (len : BitVec 61) : (s.setLen len).alloc = s.alloc := rfl
@[simp] theorem State.setLen_rst (len : BitVec 61) : (s.setLen len).rst = s.rst := rfl
@[simp] theorem State.setLen_inbox (len : BitVec 61) : (s.setLen len).inbox = s.inbox := rfl
@[simp] theorem State.setLen_rdata (len : BitVec 61) : (s.setLen len).rdata = s.rdata := rfl
@[simp] theorem State.setLen_hashWritten (len : BitVec 61) : (s.setLen len).hashWritten = s.hashWritten := rfl
@[simp] theorem State.setLen_calls (len : BitVec 61) : (s.setLen len).calls = s.calls := rfl
@[simp] theorem State.setLen_draws (len : BitVec 61) : (s.setLen len).draws = s.draws := rfl

/-! ### hardReset: reset (R262) -/

@[simp] theorem State.hardReset_H : (s.hardReset).H = Vector.ofFn fun i => Config.resetWord s.draws i := rfl
@[simp] theorem State.hardReset_A : (s.hardReset).A = Config.resetWord s.draws 5 := rfl
@[simp] theorem State.hardReset_B : (s.hardReset).B = Config.resetWord s.draws 6 := rfl
@[simp] theorem State.hardReset_C : (s.hardReset).C = Config.resetWord s.draws 7 := rfl
@[simp] theorem State.hardReset_D : (s.hardReset).D = Config.resetWord s.draws 8 := rfl
@[simp] theorem State.hardReset_E : (s.hardReset).E = Config.resetWord s.draws 9 := rfl
@[simp] theorem State.hardReset_W : (s.hardReset).W = Vector.ofFn fun j => Config.resetWord s.draws (10 + j) := rfl
@[simp] theorem State.hardReset_P : (s.hardReset).P = [] := rfl
@[simp] theorem State.hardReset_PVALID : (s.hardReset).PVALID = false := rfl
@[simp] theorem State.hardReset_PLEN : (s.hardReset).PLEN = 0 := rfl
@[simp] theorem State.hardReset_N : (s.hardReset).N = Config.resetNat s.draws 0 := rfl
@[simp] theorem State.hardReset_LEN : (s.hardReset).LEN = 0 := rfl
@[simp] theorem State.hardReset_FSM : (s.hardReset).FSM = .idle := rfl
@[simp] theorem State.hardReset_T : (s.hardReset).T = Config.resetRound s.draws := rfl
@[simp] theorem State.hardReset_IDX : (s.hardReset).IDX = Config.resetNat s.draws 1 := rfl
@[simp] theorem State.hardReset_BLK : (s.hardReset).BLK = Config.resetNat s.draws 2 := rfl
@[simp] theorem State.hardReset_BUSY : (s.hardReset).BUSY = false := rfl
@[simp] theorem State.hardReset_DONE : (s.hardReset).DONE = false := rfl
@[simp] theorem State.hardReset_ERR : (s.hardReset).ERR = false := rfl
@[simp] theorem State.hardReset_ERRCODE : (s.hardReset).ERRCODE = 0 := rfl
@[simp] theorem State.hardReset_msg : (s.hardReset).msg = s.msg := rfl
@[simp] theorem State.hardReset_alloc : (s.hardReset).alloc = s.alloc := rfl
@[simp] theorem State.hardReset_rst : (s.hardReset).rst = s.rst := rfl
@[simp] theorem State.hardReset_inbox : (s.hardReset).inbox = s.inbox := rfl
@[simp] theorem State.hardReset_rdata : (s.hardReset).rdata = s.rdata := rfl
@[simp] theorem State.hardReset_hashWritten : (s.hardReset).hashWritten = false := rfl
@[simp] theorem State.hardReset_calls : (s.hardReset).calls = s.calls := rfl
@[simp] theorem State.hardReset_draws : (s.hardReset).draws = s.draws + 1 := rfl

/-! ### takeTurn: a turn taken -/

@[simp] theorem State.takeTurn_H (rest : List Turn) : (s.takeTurn rest).H = s.H := rfl
@[simp] theorem State.takeTurn_A (rest : List Turn) : (s.takeTurn rest).A = s.A := rfl
@[simp] theorem State.takeTurn_B (rest : List Turn) : (s.takeTurn rest).B = s.B := rfl
@[simp] theorem State.takeTurn_C (rest : List Turn) : (s.takeTurn rest).C = s.C := rfl
@[simp] theorem State.takeTurn_D (rest : List Turn) : (s.takeTurn rest).D = s.D := rfl
@[simp] theorem State.takeTurn_E (rest : List Turn) : (s.takeTurn rest).E = s.E := rfl
@[simp] theorem State.takeTurn_W (rest : List Turn) : (s.takeTurn rest).W = s.W := rfl
@[simp] theorem State.takeTurn_P (rest : List Turn) : (s.takeTurn rest).P = s.P := rfl
@[simp] theorem State.takeTurn_PVALID (rest : List Turn) : (s.takeTurn rest).PVALID = s.PVALID := rfl
@[simp] theorem State.takeTurn_PLEN (rest : List Turn) : (s.takeTurn rest).PLEN = s.PLEN := rfl
@[simp] theorem State.takeTurn_N (rest : List Turn) : (s.takeTurn rest).N = s.N := rfl
@[simp] theorem State.takeTurn_LEN (rest : List Turn) : (s.takeTurn rest).LEN = s.LEN := rfl
@[simp] theorem State.takeTurn_FSM (rest : List Turn) : (s.takeTurn rest).FSM = s.FSM := rfl
@[simp] theorem State.takeTurn_T (rest : List Turn) : (s.takeTurn rest).T = s.T := rfl
@[simp] theorem State.takeTurn_IDX (rest : List Turn) : (s.takeTurn rest).IDX = s.IDX := rfl
@[simp] theorem State.takeTurn_BLK (rest : List Turn) : (s.takeTurn rest).BLK = s.BLK := rfl
@[simp] theorem State.takeTurn_BUSY (rest : List Turn) : (s.takeTurn rest).BUSY = s.BUSY := rfl
@[simp] theorem State.takeTurn_DONE (rest : List Turn) : (s.takeTurn rest).DONE = s.DONE := rfl
@[simp] theorem State.takeTurn_ERR (rest : List Turn) : (s.takeTurn rest).ERR = s.ERR := rfl
@[simp] theorem State.takeTurn_ERRCODE (rest : List Turn) : (s.takeTurn rest).ERRCODE = s.ERRCODE := rfl
@[simp] theorem State.takeTurn_msg (rest : List Turn) : (s.takeTurn rest).msg = s.msg := rfl
@[simp] theorem State.takeTurn_alloc (rest : List Turn) : (s.takeTurn rest).alloc = s.alloc := rfl
@[simp] theorem State.takeTurn_rst (rest : List Turn) : (s.takeTurn rest).rst = s.rst := rfl
@[simp] theorem State.takeTurn_inbox (rest : List Turn) : (s.takeTurn rest).inbox = rest := rfl
@[simp] theorem State.takeTurn_rdata (rest : List Turn) : (s.takeTurn rest).rdata = s.rdata := rfl
@[simp] theorem State.takeTurn_hashWritten (rest : List Turn) : (s.takeTurn rest).hashWritten = s.hashWritten := rfl
@[simp] theorem State.takeTurn_calls (rest : List Turn) : (s.takeTurn rest).calls = s.calls := rfl
@[simp] theorem State.takeTurn_draws (rest : List Turn) : (s.takeTurn rest).draws = s.draws := rfl

/-! ### setPin: the reset input changed -/

@[simp] theorem State.setPin_H (level : Bool) : (s.setPin level).H = s.H := rfl
@[simp] theorem State.setPin_A (level : Bool) : (s.setPin level).A = s.A := rfl
@[simp] theorem State.setPin_B (level : Bool) : (s.setPin level).B = s.B := rfl
@[simp] theorem State.setPin_C (level : Bool) : (s.setPin level).C = s.C := rfl
@[simp] theorem State.setPin_D (level : Bool) : (s.setPin level).D = s.D := rfl
@[simp] theorem State.setPin_E (level : Bool) : (s.setPin level).E = s.E := rfl
@[simp] theorem State.setPin_W (level : Bool) : (s.setPin level).W = s.W := rfl
@[simp] theorem State.setPin_P (level : Bool) : (s.setPin level).P = s.P := rfl
@[simp] theorem State.setPin_PVALID (level : Bool) : (s.setPin level).PVALID = s.PVALID := rfl
@[simp] theorem State.setPin_PLEN (level : Bool) : (s.setPin level).PLEN = s.PLEN := rfl
@[simp] theorem State.setPin_N (level : Bool) : (s.setPin level).N = s.N := rfl
@[simp] theorem State.setPin_LEN (level : Bool) : (s.setPin level).LEN = s.LEN := rfl
@[simp] theorem State.setPin_FSM (level : Bool) : (s.setPin level).FSM = s.FSM := rfl
@[simp] theorem State.setPin_T (level : Bool) : (s.setPin level).T = s.T := rfl
@[simp] theorem State.setPin_IDX (level : Bool) : (s.setPin level).IDX = s.IDX := rfl
@[simp] theorem State.setPin_BLK (level : Bool) : (s.setPin level).BLK = s.BLK := rfl
@[simp] theorem State.setPin_BUSY (level : Bool) : (s.setPin level).BUSY = s.BUSY := rfl
@[simp] theorem State.setPin_DONE (level : Bool) : (s.setPin level).DONE = s.DONE := rfl
@[simp] theorem State.setPin_ERR (level : Bool) : (s.setPin level).ERR = s.ERR := rfl
@[simp] theorem State.setPin_ERRCODE (level : Bool) : (s.setPin level).ERRCODE = s.ERRCODE := rfl
@[simp] theorem State.setPin_msg (level : Bool) : (s.setPin level).msg = s.msg := rfl
@[simp] theorem State.setPin_alloc (level : Bool) : (s.setPin level).alloc = s.alloc := rfl
@[simp] theorem State.setPin_rst (level : Bool) : (s.setPin level).rst = level := rfl
@[simp] theorem State.setPin_inbox (level : Bool) : (s.setPin level).inbox = s.inbox := rfl
@[simp] theorem State.setPin_rdata (level : Bool) : (s.setPin level).rdata = s.rdata := rfl
@[simp] theorem State.setPin_hashWritten (level : Bool) : (s.setPin level).hashWritten = s.hashWritten := rfl
@[simp] theorem State.setPin_calls (level : Bool) : (s.setPin level).calls = s.calls := rfl
@[simp] theorem State.setPin_draws (level : Bool) : (s.setPin level).draws = s.draws := rfl

/-! ### placeMessage: a message placed -/

@[simp] theorem State.placeMessage_H (bytes : List Byte) : (s.placeMessage bytes).H = s.H := rfl
@[simp] theorem State.placeMessage_A (bytes : List Byte) : (s.placeMessage bytes).A = s.A := rfl
@[simp] theorem State.placeMessage_B (bytes : List Byte) : (s.placeMessage bytes).B = s.B := rfl
@[simp] theorem State.placeMessage_C (bytes : List Byte) : (s.placeMessage bytes).C = s.C := rfl
@[simp] theorem State.placeMessage_D (bytes : List Byte) : (s.placeMessage bytes).D = s.D := rfl
@[simp] theorem State.placeMessage_E (bytes : List Byte) : (s.placeMessage bytes).E = s.E := rfl
@[simp] theorem State.placeMessage_W (bytes : List Byte) : (s.placeMessage bytes).W = s.W := rfl
@[simp] theorem State.placeMessage_P (bytes : List Byte) : (s.placeMessage bytes).P = s.P := rfl
@[simp] theorem State.placeMessage_PVALID (bytes : List Byte) : (s.placeMessage bytes).PVALID = s.PVALID := rfl
@[simp] theorem State.placeMessage_PLEN (bytes : List Byte) : (s.placeMessage bytes).PLEN = s.PLEN := rfl
@[simp] theorem State.placeMessage_N (bytes : List Byte) : (s.placeMessage bytes).N = s.N := rfl
@[simp] theorem State.placeMessage_LEN (bytes : List Byte) : (s.placeMessage bytes).LEN = s.LEN := rfl
@[simp] theorem State.placeMessage_FSM (bytes : List Byte) : (s.placeMessage bytes).FSM = s.FSM := rfl
@[simp] theorem State.placeMessage_T (bytes : List Byte) : (s.placeMessage bytes).T = s.T := rfl
@[simp] theorem State.placeMessage_IDX (bytes : List Byte) : (s.placeMessage bytes).IDX = s.IDX := rfl
@[simp] theorem State.placeMessage_BLK (bytes : List Byte) : (s.placeMessage bytes).BLK = s.BLK := rfl
@[simp] theorem State.placeMessage_BUSY (bytes : List Byte) : (s.placeMessage bytes).BUSY = s.BUSY := rfl
@[simp] theorem State.placeMessage_DONE (bytes : List Byte) : (s.placeMessage bytes).DONE = s.DONE := rfl
@[simp] theorem State.placeMessage_ERR (bytes : List Byte) : (s.placeMessage bytes).ERR = s.ERR := rfl
@[simp] theorem State.placeMessage_ERRCODE (bytes : List Byte) : (s.placeMessage bytes).ERRCODE = s.ERRCODE := rfl
@[simp] theorem State.placeMessage_msg (bytes : List Byte) : (s.placeMessage bytes).msg = Memory.ofList 0 bytes := rfl
@[simp] theorem State.placeMessage_alloc (bytes : List Byte) : (s.placeMessage bytes).alloc = s.alloc := rfl
@[simp] theorem State.placeMessage_rst (bytes : List Byte) : (s.placeMessage bytes).rst = s.rst := rfl
@[simp] theorem State.placeMessage_inbox (bytes : List Byte) : (s.placeMessage bytes).inbox = s.inbox := rfl
@[simp] theorem State.placeMessage_rdata (bytes : List Byte) : (s.placeMessage bytes).rdata = s.rdata := rfl
@[simp] theorem State.placeMessage_hashWritten (bytes : List Byte) : (s.placeMessage bytes).hashWritten = s.hashWritten := rfl
@[simp] theorem State.placeMessage_calls (bytes : List Byte) : (s.placeMessage bytes).calls = s.calls := rfl
@[simp] theorem State.placeMessage_draws (bytes : List Byte) : (s.placeMessage bytes).draws = s.draws := rfl

end Sys2Proof.Machine
end

