-- ==== Sys2Proof/Laws/Ops.lean ====
section
/-! SUPPORT. One lemma per shared operation that says once everything it can do. Proofs cite these instead of unfolding
the operations. -/

namespace Sys2Proof.Machine

variable {s t : State}

/-! ### Outcomes -/

@[simp] theorem outcome_eq_next {r : Except Fault State} : outcome r = .next t ↔ r = .ok t := by
  cases r <;> simp [outcome]

@[simp] theorem outcome_eq_fault {r : Except Fault State} {e : Fault} : outcome r = .fault e ↔ r = .error e := by
  cases r <;> simp [outcome]

@[simp] theorem outcome_ne_refused {r : Except Fault State} {e : Refusal} : outcome r ≠ .refused e := by
  cases r <;> simp [outcome]

/-- A computation that answers a value went through its first part. -/
theorem bind_eq_ok {α β : Type} {x : Except Fault α} {f : α → Except Fault β} {b : β} :
    (x >>= f) = .ok b ↔ ∃ a, x = .ok a ∧ f a = .ok b := by
  cases x <;> simp [bind, Except.bind]

/-! ### The message and the padded sequence -/

theorem readMsg_eq_ok {off : Nat} {b : Byte} : s.readMsg off = .ok b ↔ off < s.LEN.toNat ∧ s.msgByte off = b := by
  unfold State.readMsg; split <;> simp [*]

theorem padRoom_iff {i : Nat} : s.padRoom i = true ↔ s.PVALID = true ∧ i < s.PLEN := by
  simp [State.padRoom]

theorem readPad_eq_ok {i : Nat} {v : Word} :
    s.readPad i = .ok v ↔ (s.PVALID = true ∧ i < s.PLEN) ∧ s.padWord i = v := by
  rw [← padRoom_iff]; unfold State.readPad; split <;> simp [*]

/-- A Padder write succeeds exactly where the access is defined, and then writes one word. -/
theorem storeNext_eq_ok {v : Word} {next : Nat → Fsm} :
    s.storeNext v next = .ok t ↔
      (s.PVALID = true ∧ s.IDX < s.PLEN) ∧ s.pushPad v (next (s.IDX + 1)) = t := by
  rw [← padRoom_iff]; unfold State.storeNext; split <;> simp [*]

/-- The block read is the sixteen single reads: it succeeds exactly where each of them does, with their words. -/
theorem readBlock_eq_ok {w : Vector Word 16} :
    s.readBlock = .ok w ↔ ∀ j : Fin 16, s.readPad (16 * s.BLK + j) = .ok w[j] := by
  simp only [readPad_eq_ok, State.readBlock]
  constructor
  · intro h j
    split at h
    · rename_i hc
      simp only [Bool.and_eq_true, decide_eq_true_eq] at hc
      injection h with h
      subst h
      exact ⟨⟨hc.1, by omega⟩, by simp⟩
    · cases h
  · intro h
    have h15 := (h 15).1
    rw [if_pos (by simpa using h15)]
    congr 1
    refine Vector.ext fun j hj => ?_
    rw [Vector.getElem_ofFn]
    exact (h ⟨j, hj⟩).2

/-- A word of `P` after a Padder write. -/
theorem padWord_pushPad (v : Word) (f : Fsm) (i : Nat) :
    (s.pushPad v f).padWord i = if i = s.IDX then v else s.padWord i := by
  simp only [State.padWord, State.pushPad_P, State.pushPad_calls, Memory.read_write]
  split <;> simp

/-! ### Rounds -/

theorem round_eq_ok {k : Word} {f : Word → Word → Word → Word} :
    s.round k f = .ok t ↔ s.T.toNat < 80 ∧ s.shiftRound (s.roundSum k f) = t := by
  unfold State.round; split <;> simp [*]

theorem ringAt_ringSet (w : Vector Word 16) (i j : Nat) (v : Word) :
    ringAt (ringSet w i v) j = if i % 16 = j % 16 then v else ringAt w j := by
  simp only [ringAt, ringSet, Vector.getElem_set]

/-- Only the slot number matters. -/
theorem ringAt_mod (w : Vector Word 16) (i : Nat) : ringAt w (i % 16) = ringAt w i := by
  simp [ringAt]

/-! ### Host accesses -/

/-- A DIGEST read answers a word, drawn freely where the spec gives no value, and touches nothing else. -/
theorem readDigest_cases (s : State) (i : Fin 5) :
    (s.BUSY = false ∧ s.hashWritten = true ∧ s.readDigest i = s.respond s.H[i]) ∨
    ((s.BUSY = true ∨ s.hashWritten = false) ∧ s.readDigest i = s.respondFree i) := by
  unfold State.readDigest
  cases s.BUSY <;> cases s.hashWritten <;> simp

theorem writeLen_cases (s : State) (len : BitVec 61) :
    (s.BUSY = true ∧ s.writeLen len = s) ∨ (s.BUSY = false ∧ s.writeLen len = s.setLen len) := by
  unfold State.writeLen
  cases s.BUSY <;> simp

end Sys2Proof.Machine
end

