-- ==== Sys2Proof/Laws/PerInstr.lean ====
section
/-! SUPPORT. A law of every instruction as syntax: its selector, numbered as spec/opcode_table.json numbers it, matches
that table's row for it. -/

namespace Sys2Proof.Laws.TableRow

/-- The number of a selector within its format: `op_sel` (R100), `{data[0], hsel}` (R104), the level of `rst` (R107). -/
def number : Selector → Nat
  | .uop opSel => opSel.toNat
  | .host hsel data => 32 * (data.toNat % 2) + hsel.toNat
  | .pin rst => rst.toNat

/-- `match` and `mask` of an instruction's row. -/
def row : Instr → Nat × Nat
  | .pCount => (0x04, 0x3F)
  | .pAlloc => (0x08, 0x3F)
  | .pWord => (0x0C, 0x3F)
  | .pTail0 => (0x10, 0x3F)
  | .pTail1 => (0x11, 0x3F)
  | .pTail2 => (0x12, 0x3F)
  | .pTail3 => (0x13, 0x3F)
  | .pZero => (0x14, 0x3F)
  | .pLenhi => (0x18, 0x3F)
  | .pLenlo => (0x1C, 0x3F)
  | .oInit => (0x20, 0x3F)
  | .oNext => (0x24, 0x3F)
  | .cLoad => (0x28, 0x3F)
  | .cSched => (0x2C, 0x3F)
  | .cRound0 => (0x30, 0x3F)
  | .cRound1 => (0x31, 0x3F)
  | .cRound2 => (0x32, 0x3F)
  | .cRound3 => (0x33, 0x3F)
  | .cFeed => (0x34, 0x3F)
  | .oRelease => (0x38, 0x3F)
  | .oFail => (0x3C, 0x3F)
  | .hRdctrl => (0x00, 0x1F)
  | .hRdstatus => (0x01, 0x1F)
  | .hRdlenLo => (0x02, 0x1F)
  | .hRdlenHi => (0x03, 0x1F)
  | .hRddigest0 => (0x08, 0x1F)
  | .hRddigest1 => (0x09, 0x1F)
  | .hRddigest2 => (0x0A, 0x1F)
  | .hRddigest3 => (0x0B, 0x1F)
  | .hRddigest4 => (0x0C, 0x1F)
  | .hStart _ => (0x30, 0x3F)
  | .hNop _ => (0x10, 0x3F)
  | .hWrlenLo _ => (0x12, 0x1F)
  | .hWrlenHi _ => (0x13, 0x1F)
  | .hReset => (0x1, 0x1)

/-- A well-formed instruction's selector has its row's `match` under its row's `mask`. -/
def Statement (i : Instr) : Prop :=
  i.wellFormed = true → number (encode i) &&& (row i).2 = (row i).1

theorem pCount : Statement .pCount := fun _ => rfl

theorem pAlloc : Statement .pAlloc := fun _ => rfl

theorem pWord : Statement .pWord := fun _ => rfl

theorem pTail0 : Statement .pTail0 := fun _ => rfl

theorem pTail1 : Statement .pTail1 := fun _ => rfl

theorem pTail2 : Statement .pTail2 := fun _ => rfl

theorem pTail3 : Statement .pTail3 := fun _ => rfl

theorem pZero : Statement .pZero := fun _ => rfl

theorem pLenhi : Statement .pLenhi := fun _ => rfl

theorem pLenlo : Statement .pLenlo := fun _ => rfl

theorem oInit : Statement .oInit := fun _ => rfl

theorem oNext : Statement .oNext := fun _ => rfl

theorem cLoad : Statement .cLoad := fun _ => rfl

theorem cSched : Statement .cSched := fun _ => rfl

theorem cRound0 : Statement .cRound0 := fun _ => rfl

theorem cRound1 : Statement .cRound1 := fun _ => rfl

theorem cRound2 : Statement .cRound2 := fun _ => rfl

theorem cRound3 : Statement .cRound3 := fun _ => rfl

theorem cFeed : Statement .cFeed := fun _ => rfl

theorem oRelease : Statement .oRelease := fun _ => rfl

theorem oFail : Statement .oFail := fun _ => rfl

theorem hRdctrl : Statement .hRdctrl := fun _ => rfl

theorem hRdstatus : Statement .hRdstatus := fun _ => rfl

theorem hRdlenLo : Statement .hRdlenLo := fun _ => rfl

theorem hRdlenHi : Statement .hRdlenHi := fun _ => rfl

theorem hRddigest0 : Statement .hRddigest0 := fun _ => rfl

theorem hRddigest1 : Statement .hRddigest1 := fun _ => rfl

theorem hRddigest2 : Statement .hRddigest2 := fun _ => rfl

theorem hRddigest3 : Statement .hRddigest3 := fun _ => rfl

theorem hRddigest4 : Statement .hRddigest4 := fun _ => rfl

theorem hStart (data : Word) : Statement (.hStart data) := fun h => by
  have hd : data.toNat % 2 = 1 := by simpa [Instr.wellFormed, BitVec.getLsbD, Nat.testBit] using h
  simp [number, encode, row, hd]

theorem hNop (data : Word) : Statement (.hNop data) := fun h => by
  have hd : data.toNat % 2 = 0 := by simpa [Instr.wellFormed, BitVec.getLsbD, Nat.testBit] using h
  simp [number, encode, row, hd]

theorem hWrlenLo (data : Word) : Statement (.hWrlenLo data) := fun _ => by
  rcases Nat.mod_two_eq_zero_or_one data.toNat with hd | hd <;> simp [number, encode, row, hd]

theorem hWrlenHi (data : Word) : Statement (.hWrlenHi data) := fun _ => by
  rcases Nat.mod_two_eq_zero_or_one data.toNat with hd | hd <;> simp [number, encode, row, hd]

theorem hReset : Statement .hReset := fun _ => rfl

end Sys2Proof.Laws.TableRow
end

