-- ==== Sys2Proof/Laws/Step.lean ====
section
/-! SUPPORT. Everything a step can do, said once: `step_cases`. -/

namespace Sys2Proof.Machine

variable {s t : State}

/-! ### The decoder's rejections -/

theorem decode_uop_error {op : BitVec 6} {e : DecodeError} (h : decode (.uop op) = .error e) :
    (op = 0 ∧ e = .idle) ∨ e = .unreachableSelector op := by
  revert h
  simp only [decode, decodeUop]
  split <;> intro h <;> first | (cases h; done) | skip
  · rename_i h0
    exact .inl ⟨BitVec.eq_of_toNat_eq h0, by simpa [eq_comm] using h⟩
  · exact .inr (by simpa [eq_comm] using h)

theorem decode_host_error {hsel : BitVec 5} {data : Word} {e : DecodeError}
    (h : decode (.host hsel data) = .error e) : e = .reservedRead hsel ∨ e = .ignoredWrite hsel := by
  revert h
  simp only [decode, decodeHost]
  split <;> intro h <;> first | (cases h; done) | skip
  split at h <;> simp_all

@[simp] theorem decode_pin_true : decode (.pin true) = .ok .hReset := rfl

@[simp] theorem decode_pin_false : decode (.pin false) = .error .resetReleased := rfl

/-! ### The control state and the selector -/

/-- Only IDLE has `op_sel = 0x00`. -/
theorem opSel_eq_zero_iff : opSel s = some 0 ↔ s.FSM = .idle := by
  simp only [opSel, subSelector]
  cases s.FSM <;> simp [fsmCode]
  · generalize BitVec.ofNat 2 (s.LEN.toNat % 4) = x; revert x; decide
  · intro _; generalize BitVec.ofNat 2 (s.T.toNat / 20) = x; revert x; decide

/-! ### Turns -/

@[simp] theorem afterTurn_nil (h : s.inbox = []) : s.afterTurn = s := by
  cases s; simp only [State.afterTurn, State.takeTurn] at *; subst h; rfl

theorem fetch_of_blocksTurn (h : s.blocksTurn) : fetch s = blockTurn s.afterTurn := by
  rcases h with h | ⟨rest, h⟩
  · rw [afterTurn_nil h]; simp [fetch, h]
  · simp [fetch, h, State.afterTurn]

@[simp] theorem opSel_takeTurn (s : State) (rest : List Turn) : opSel (s.takeTurn rest) = opSel s := rfl

/-- What a step that performs a selector can do. -/
theorem step_of_select {sel : Selector} {u : State} (hf : fetch s = select sel u) (h : step s = .next t) :
    (∃ i, decode sel = .ok i ∧ exec i u = .next t) ∨
    (decode sel = .error .idle ∧ t = u) ∨
    (decode sel = .error .resetReleased ∧ t = u) ∨
    (∃ hsel, decode sel = .error (.reservedRead hsel) ∧ t = u.respond 0) ∨
    (∃ hsel, decode sel = .error (.ignoredWrite hsel) ∧ t = u) := by
  rw [step, hf, select] at h
  cases hd : decode sel with
  | ok i => exact .inl ⟨i, rfl, by simpa [hd] using h⟩
  | error e => cases e <;> simp_all [eq_comm]

/-- A step on the block's turn: the block is held by reset or idle, or performs the micro-operation selected. -/
theorem step_blocksTurn_cases (hb : s.blocksTurn) (h : step s = .next t) :
    ((s.rst = true ∨ s.FSM = .idle) ∧ t = s.afterTurn) ∨
    (s.rst = false ∧ ∃ op i, opSel s = some op ∧ decode (.uop op) = .ok i ∧ exec i s.afterTurn = .next t) := by
  have hf := fetch_of_blocksTurn hb
  cases hr : s.rst with
  | true =>
    rw [blockTurn, if_pos (by simpa [State.afterTurn] using hr)] at hf
    exact .inl ⟨.inl rfl, by simpa [step, hf, eq_comm] using h⟩
  | false =>
    rw [blockTurn, if_neg (by simp [State.afterTurn, hr]), State.afterTurn, opSel_takeTurn] at hf
    cases ho : opSel s with
    | none => simp [step, hf, ho] at h
    | some op =>
      simp only [ho] at hf
      rcases step_of_select hf h with ⟨i, hd, he⟩ | ⟨hd, rfl⟩ | ⟨hd, rfl⟩ | ⟨_, hd, _⟩ | ⟨_, hd, _⟩
      · exact .inr ⟨rfl, op, i, rfl, hd, he⟩
      · rcases decode_uop_error hd with ⟨rfl, -⟩ | h'
        · exact .inl ⟨.inr (opSel_eq_zero_iff.1 ho), rfl⟩
        · cases h'
      all_goals rcases decode_uop_error hd with ⟨-, h'⟩ | h' <;> cases h'

/-- Everything a step can do. The cases: the block held or idle; a micro-operation; the host held by reset; a host
transaction of the table; a reserved read; an ignored write; reset asserted; reset released; a message placed. -/
theorem step_cases (h : step s = .next t) :
    (s.blocksTurn ∧ (s.rst = true ∨ s.FSM = .idle) ∧ t = s.afterTurn) ∨
    (s.blocksTurn ∧ s.rst = false ∧
      ∃ op i, opSel s = some op ∧ decode (.uop op) = .ok i ∧ exec i s.afterTurn = .next t) ∨
    (∃ hsel data rest, s.inbox = .access hsel data :: rest ∧ s.rst = true ∧ t = s.takeTurn rest) ∨
    (∃ hsel data rest i, s.inbox = .access hsel data :: rest ∧ s.rst = false ∧
      decode (.host hsel data) = .ok i ∧ exec i (s.takeTurn rest) = .next t) ∨
    (∃ hsel data rest, s.inbox = .access hsel data :: rest ∧ s.rst = false ∧
      decode (.host hsel data) = .error (.reservedRead hsel) ∧ t = (s.takeTurn rest).respond 0) ∨
    (∃ hsel data rest, s.inbox = .access hsel data :: rest ∧ s.rst = false ∧
      decode (.host hsel data) = .error (.ignoredWrite hsel) ∧ t = s.takeTurn rest) ∨
    (∃ rest, s.inbox = .pin true :: rest ∧ exec .hReset ((s.takeTurn rest).setPin true) = .next t) ∨
    (∃ rest, s.inbox = .pin false :: rest ∧ t = (s.takeTurn rest).setPin false) ∨
    (∃ bytes rest, s.inbox = .message bytes :: rest ∧ s.BUSY = false ∧ t = (s.takeTurn rest).placeMessage bytes) := by
  have block : s.blocksTurn → _ := fun hb => (step_blocksTurn_cases hb h).imp (And.intro hb) (And.intro hb)
  cases hi : s.inbox with
  | nil => rcases block (.inl hi) with h | h <;> [exact .inl h; exact .inr (.inl h)]
  | cons turn rest =>
    cases turn with
    | block => rcases block (.inr ⟨rest, hi⟩) with h | h <;> [exact .inl h; exact .inr (.inl h)]
    | access hsel data =>
      refine .inr (.inr ?_)
      have hf : fetch s = accessTurn hsel data (s.takeTurn rest) := by simp [fetch, hi]
      cases hr : s.rst with
      | true =>
        rw [accessTurn, if_pos (by simpa using hr)] at hf
        exact .inl ⟨hsel, data, rest, rfl, rfl, by simpa [step, hf, eq_comm] using h⟩
      | false =>
        rw [accessTurn, if_neg (by simp [hr])] at hf
        refine .inr ?_
        rcases step_of_select hf h with ⟨i, hd, he⟩ | ⟨hd, -⟩ | ⟨hd, -⟩ | ⟨_, hd, ht⟩ | ⟨_, hd, ht⟩
        · exact .inl ⟨hsel, data, rest, i, rfl, rfl, hd, he⟩
        all_goals rcases decode_host_error hd with h' | h' <;> cases h'
        · exact .inr (.inl ⟨hsel, data, rest, rfl, rfl, hd, ht⟩)
        · exact .inr (.inr (.inl ⟨hsel, data, rest, rfl, rfl, hd, ht⟩))
    | pin level =>
      have hf : fetch s = select (.pin level) ((s.takeTurn rest).setPin level) := by simp [fetch, hi, pinTurn]
      refine .inr (.inr (.inr (.inr (.inr (.inr ?_)))))
      cases level with
      | true => exact .inl ⟨rest, rfl, by simpa [step, hf, select] using h⟩
      | false => exact .inr (.inl ⟨rest, rfl, by simpa [step, hf, select, eq_comm] using h⟩)
    | message bytes =>
      have hf : fetch s = messageTurn bytes (s.takeTurn rest) := by simp [fetch, hi]
      refine .inr (.inr (.inr (.inr (.inr (.inr (.inr (.inr ⟨bytes, rest, rfl, ?_⟩)))))))
      cases hb : s.BUSY
      · exact ⟨rfl, by simpa [step, hf, messageTurn, hb, eq_comm] using h⟩
      · simp [step, hf, messageTurn, hb] at h

end Sys2Proof.Machine
end

