-- ==== Sys2Proof/Tests/Slice0.lean ====
section
/-! SUPPORT. Tests. Expected values are the spec's own: the examples of its rules and `95_test_vectors.md`. Then, for every
statement with hypotheses, a concrete state and operands that meet all of them. -/

namespace Sys2Proof.Tests

open Machine

/-! ### Well-formedness: an ill-formed term for each check -/

theorem test_start_needs_bit_0 : (Instr.hStart 0xfffffffe).wellFormed = false := by decide

theorem test_nop_forbids_bit_0 : (Instr.hNop 0x00000001).wellFormed = false := by decide

theorem test_start_with_reserved_bits : (Instr.hStart 0x00000003).wellFormed = true := by decide

/-! ### Decoding: the words of R102 (`fsm sel`), R104 (`wr reg`) and R107, bit by bit -/

theorem test_decode_padder :
    decode (.uop 0b000100) = .ok .pCount ∧ decode (.uop 0b001000) = .ok .pAlloc ∧
    decode (.uop 0b001100) = .ok .pWord ∧ decode (.uop 0b010000) = .ok .pTail0 ∧
    decode (.uop 0b010001) = .ok .pTail1 ∧ decode (.uop 0b010010) = .ok .pTail2 ∧
    decode (.uop 0b010011) = .ok .pTail3 ∧ decode (.uop 0b010100) = .ok .pZero ∧
    decode (.uop 0b011000) = .ok .pLenhi ∧ decode (.uop 0b011100) = .ok .pLenlo := by decide

theorem test_decode_compressor :
    decode (.uop 0b101000) = .ok .cLoad ∧ decode (.uop 0b101100) = .ok .cSched ∧
    decode (.uop 0b110000) = .ok .cRound0 ∧ decode (.uop 0b110001) = .ok .cRound1 ∧
    decode (.uop 0b110010) = .ok .cRound2 ∧ decode (.uop 0b110011) = .ok .cRound3 ∧
    decode (.uop 0b110100) = .ok .cFeed := by decide

theorem test_decode_orchestrator :
    decode (.uop 0b100000) = .ok .oInit ∧ decode (.uop 0b100100) = .ok .oNext ∧
    decode (.uop 0b111000) = .ok .oRelease ∧ decode (.uop 0b111100) = .ok .oFail := by decide

theorem test_decode_host :
    decode (.host 0b00000 0) = .ok .hRdctrl ∧ decode (.host 0b00001 0) = .ok .hRdstatus ∧
    decode (.host 0b00010 0) = .ok .hRdlenLo ∧ decode (.host 0b00011 0) = .ok .hRdlenHi ∧
    decode (.host 0b01000 0) = .ok .hRddigest0 ∧ decode (.host 0b01001 0) = .ok .hRddigest1 ∧
    decode (.host 0b01010 0) = .ok .hRddigest2 ∧ decode (.host 0b01011 0) = .ok .hRddigest3 ∧
    decode (.host 0b01100 0) = .ok .hRddigest4 ∧ decode (.host 0b10000 3) = .ok (.hStart 3) ∧
    decode (.host 0b10000 0xfffffffe) = .ok (.hNop 0xfffffffe) ∧
    decode (.host 0b10010 99) = .ok (.hWrlenLo 99) ∧ decode (.host 0b10011 99) = .ok (.hWrlenHi 99) := by decide

theorem test_decode_reset : decode (.pin true) = .ok .hReset ∧ decode (.pin false) = .error .resetReleased := by decide

/-- R105 and R106: the rejections, by name. -/
theorem test_decode_rejects :
    decode (.uop 0x00) = .error .idle ∧ decode (.uop 0x15) = .error (.unreachableSelector 0x15) ∧
    decode (.host 0x05 0) = .error (.reservedRead 0x05) ∧ decode (.host 0x11 7) = .error (.ignoredWrite 0x11) ∧
    decode (.host 0x18 7) = .error (.ignoredWrite 0x18) := by decide

/-- The table's numbers, in whole bytes: where a number belongs to one row of UOP or HOST only, it reads as that row. -/
theorem test_table_words :
    decodeTableWord 8 0x04 = some .pCount ∧ decodeTableWord 8 0x3C = some .oFail ∧
    decodeTableWord 8 0x09 = some .hRddigest1 ∧ decodeTableWord 8 0x02 = some .hRdlenLo ∧
    decodeTableWord 1 1 = some .hReset ∧ decodeTableWord 8 0x15 = none := by decide

/-! ### Meanings -/

/-- The outcome is a next state with this property. -/
def next (o : Host.Outcome State Fault Refusal) (p : State → Bool) : Bool :=
  match o with
  | .next t => p t
  | _ => false

/-- A computation in progress over these bytes, in a one-block store. -/
def busy (f : Fsm) (bytes : List Byte) (idx : Nat) : State :=
  { State.reset with
    FSM := f, BUSY := true, LEN := BitVec.ofNat 61 bytes.length, msg := Memory.ofList 0 bytes, N := 1, PVALID := true,
    PLEN := 16, IDX := idx, alloc := .capacity 16 }

/-- "ananas" (`95_test_vectors.md` section 2). -/
def ananas : List Byte := [0x61, 0x6e, 0x61, 0x6e, 0x61, 0x73]

/-- R131: `L = 55` is the last with one block, `L = 63` has two by the other branch. -/
theorem test_count : ([0, 6, 55, 56, 63, 119, 120, 2 ^ 61 - 1].map blockCount) = [1, 1, 1, 2, 2, 2, 3, 2 ^ 55 + 1] := by
  decide

/-- R132 and section 9: a one-block store refuses two blocks and grants one. -/
theorem test_alloc :
    next (exec .pAlloc { busy .alloc [] 0 with N := 2, PVALID := false, PLEN := 0 })
      (fun t => t.FSM == .fail && !t.PVALID && t.PLEN == 0) ∧
    next (exec .pAlloc { busy .alloc ananas 7 with PVALID := false, PLEN := 0 })
      (fun t => t.FSM == .copy && t.PVALID && t.PLEN == 16 && t.IDX == 0) := by decide

/-- R133: "ananas", `IDX = 0`. -/
theorem test_word : next (exec .pWord (busy .copy ananas 0))
    (fun t => Memory.read t.P 0 == some 0x616e616e && t.IDX == 1 && t.FSM == .tail) := by decide

/-- R134: `L = 52` goes straight to the length. -/
theorem test_tail0 : next (exec .pTail0 { busy .tail [] 13 with LEN := 52 })
    (fun t => Memory.read t.P 13 == some 0x80000000 && t.FSM == .lenhi) := by decide

/-- R135: "a". -/
theorem test_tail1 : next (exec .pTail1 (busy .tail [0x61] 0))
    (fun t => Memory.read t.P 0 == some 0x61800000 && t.FSM == .zero) := by decide

/-- R136: "ananas". -/
theorem test_tail2 : next (exec .pTail2 (busy .tail ananas 1))
    (fun t => Memory.read t.P 1 == some 0x61738000 && t.IDX == 2) := by decide

/-- R137: "abc". -/
theorem test_tail3 : next (exec .pTail3 (busy .tail [0x61, 0x62, 0x63] 0))
    (fun t => Memory.read t.P 0 == some 0x61626380 && t.FSM == .zero) := by decide

/-- R138: the last zero word of the empty message. -/
theorem test_zero : next (exec .pZero (busy .zero [] 13))
    (fun t => Memory.read t.P 13 == some 0 && t.IDX == 14 && t.FSM == .lenhi) := by decide

/-- R139: `L = 2^29` and `L = 2^61 - 1`. -/
theorem test_lenhi : lengthHigh (2 ^ 29) = 1 ∧ lengthHigh (BitVec.allOnes 61) = 0xffffffff := by decide

/-- R140: `L = 2^29 - 1`, `L = 2^29`, and "ananas". -/
theorem test_lenlo : lengthLow (2 ^ 29 - 1) = 0xfffffff8 ∧ lengthLow (2 ^ 29) = 0 ∧
    next (exec .pLenlo (busy .lenlo ananas 15)) (fun t => Memory.read t.P 15 == some 0x30 && t.FSM == .init) := by decide

/-- R161: the empty message's block, `H` the IV. -/
theorem test_load :
    next (exec .cLoad { busy .load [] 16 with H := iv, P := Memory.ofList 0 (0x80000000 :: List.replicate 15 0), T := 80 })
      (fun t => t.W[0] == 0x80000000 && t.W[15] == 0 && t.A == 0x67452301 && t.E == 0xc3d2e1f0 && t.T == 0) := by decide

/-- R162: the empty message, `T = 16`. -/
theorem test_sched :
    next (exec .cSched { busy .sched [] 16 with W := (Vector.replicate 16 0).set 0 0x80000000, T := 16 })
      (fun t => t.W[0] == 1 && t.W[1] == 0 && t.T == 16 && t.FSM == .round) := by decide

/-- R167: the empty message, `T = 0`. -/
theorem test_round0 :
    next (exec .cRound0 { busy .round [] 16 with
        W := (Vector.replicate 16 0).set 0 0x80000000, A := 0x67452301, B := 0xefcdab89, C := 0x98badcfe,
        D := 0x10325476, E := 0xc3d2e1f0 })
      (fun t => t.A == 0x1fb498b3 && t.B == 0x67452301 && t.C == 0x7bf36ae2 && t.D == 0x98badcfe &&
        t.E == 0x10325476 && t.T == 1 && t.FSM == .round) := by decide

/-- R168: the empty message, `T = 20`. -/
theorem test_round1 :
    next (exec .cRound1 { busy .round [] 16 with
        T := 20, A := 0xe758e8da, B := 0x0b3088dd, C := 0x8a2a5483, D := 0xc1afe45c, E := 0xf63f5951 })
      (fun t => t.A == 0x90eb9850 && t.C == 0x42cc2237 && t.FSM == .sched) := by decide

/-- R169: the empty message, `T = 40`. -/
theorem test_round2 :
    next (exec .cRound2 { busy .round [] 16 with
        W := (Vector.replicate 16 0).set 8 0x00000108, T := 40, A := 0x9bdbdd71, B := 0x62273351, C := 0xec805e22,
        D := 0x413c1d9a, E := 0x2aeeae62 })
      (fun t => t.A == 0x95aa398b && t.FSM == .sched) := by decide

/-- R170 and R172: after round 79 the state is FEED. -/
theorem test_round3 : next (exec .cRound3 { busy .round [] 16 with T := 79 })
    (fun t => t.T == 80 && t.A == 0xca62c1d6 && t.FSM == .feed) := by decide

/-- R172: the empty message. -/
theorem test_feed :
    next (exec .cFeed { busy .feed [] 16 with
        H := iv, A := 0x72f480ed, B := 0x6e9d9f84, C := 0x999ae2f1, D := 0x852dc41a, E := 0xec052519 })
      (fun t => t.H == #v[0xda39a3ee, 0x5e6b4b0d, 0x3255bfef, 0x95601890, 0xafd80709] && t.BLK == 1) := by decide

theorem test_init : next (exec .oInit (busy .init [] 16)) (fun t => t.H[4] == 0xc3d2e1f0 && t.BLK == 0 && t.FSM == .next) :=
  by decide

/-- R193: `N = 1`. -/
theorem test_next : next (exec .oNext (busy .next [] 16)) (fun t => t.FSM == .load) ∧
    next (exec .oNext { busy .next [] 16 with BLK := 1 }) (fun t => t.FSM == .release) := by decide

/-- R194: STATUS reads 0x00000002. -/
theorem test_release : next (exec .oRelease (busy .release [] 16)) (fun t => statusWord t == 2 && !t.PVALID) := by decide

/-- R233: STATUS reads 0x00000014. -/
theorem test_fail : next (exec .oFail (busy .fail [] 0)) (fun t => statusWord t == 0x14 && t.FSM == .idle) := by decide

/-- R212: from a failed computation; R213: ignored while busy. -/
theorem test_start : next (exec (.hStart 3) { State.reset with ERR := true, ERRCODE := 1 })
      (fun t => statusWord t == 1 && t.FSM == .count) ∧
    next (exec (.hStart 1) (busy .zero [] 3)) (fun t => decide (t = busy .zero [] 3)) := by decide

/-- R217: the write of 0xE0000001 to LEN_HI reads back as 0x00000001; R216. -/
theorem test_wrlen :
    next (exec (.hWrlenHi 0xe0000001) { State.reset with LEN := 3 })
      (fun t => lenHighRead t.LEN == 1 && lenLow t.LEN == 3) ∧
    next (exec (.hWrlenLo 6) { State.reset with LEN := BitVec.allOnes 61 })
      (fun t => lenHighRead t.LEN == 0x1fffffff && lenLow t.LEN == 6) := by decide

/-- R214, R215, R218, R219, R220: the reads, after "abc" (section 9). -/
theorem test_reads :
    let s := { State.reset with
      H := #v[0xa9993e36, 0x4706816a, 0xba3e2571, 0x7850c26c, 0x9cd0d89d], hashWritten := true, DONE := true, LEN := 3 }
    ([Instr.hRdctrl, .hRdstatus, .hRdlenLo, .hRdlenHi].zip [0, 2, 3, 0]).all
      (fun c => next (exec c.1 s) (fun t => t.rdata == c.2)) ∧
    ([Instr.hRddigest0, .hRddigest1, .hRddigest2, .hRddigest3, .hRddigest4].zip s.H.toList).all
      (fun c => next (exec c.1 s) (fun t => t.rdata == c.2)) := by decide

/-- R262: what reset clears. -/
theorem test_reset : next (exec .hReset (busy .round ananas 16))
    (fun t => statusWord t == 0 && t.FSM == .idle && !t.PVALID && t.PLEN == 0 && t.P == [] && t.LEN == 0) := by decide

/-! ### Steps -/

/-- Section 10: a reserved read returns 0, a write to STATUS is ignored, reset asserted holds the block. -/
theorem test_step_without_row :
    next (step { State.reset with inbox := [.access 0x05 0], rdata := 7 }) (fun t => t.rdata == 0 && t.inbox == []) ∧
    next (step { State.reset with inbox := [.access 0x11 0xffffffff] }) (fun t => decide (t = State.reset)) ∧
    next (step { busy .zero [] 3 with rst := true }) (fun t => t.IDX == 3) := by decide

theorem test_message_is_fixed_while_busy :
    step { busy .zero [] 3 with inbox := [.message [1]] } = .refused .messageChangedWhileBusy := rfl

/-- Section 2, a digest the source itself gives: "ananas". -/
theorem test_contract : Contract.digest (fun o => ananas.getD o 0) 6 =
    #v[0x755bd810, 0xd2be0ebc, 0xbb6ce6f5, 0x32b3d9cf, 0xcf9d9695] := by decide +kernel

/-! ### Witnesses: sound states -/

/-- The length of the message of `sample`: one word in COPY, empty elsewhere. -/
def sampleLen (f : Fsm) : BitVec 61 := if f = .copy then 4 else 0

/-- Where `IDX` stands in each state of a one-block computation. -/
def sampleIdx : Fsm → Nat
  | .idle | .count | .alloc | .copy | .tail | .fail => 0
  | .zero => 1
  | .lenhi => 14
  | .lenlo => 15
  | .init | .next | .load | .sched | .round | .feed | .release => 16

def sampleBlk (f : Fsm) : Nat := if f = .release then 1 else 0

def sampleRound (f : Fsm) : BitVec 7 :=
  if f = .round then 15 else if f = .sched then 16 else if f = .feed then 80 else 0

/-- The message of `sample`: nothing is listed, so it is the platform's. -/
def sampleMsg : Nat → Byte := Config.messageByte 0

/-- A one-block computation that has come to the control state `f`, or, in IDLE, has completed. -/
def sample (f : Fsm) : State :=
  let h := Contract.chain sampleMsg (sampleLen f).toNat (sampleBlk f)
  let b := Contract.block sampleMsg (sampleLen f).toNat (sampleBlk f)
  let v := Contract.rounds b h (sampleRound f).toNat
  { State.reset with
    H := h, A := v[0], B := v[1], C := v[2], D := v[3], E := v[4], W := Vector.ofFn fun j => b j,
    P := Memory.ofList 0
      ((List.range (if f.holdsPad then sampleIdx f else 0)).map (Contract.paddedWord sampleMsg (sampleLen f).toNat)),
    PVALID := f.holdsPad, PLEN := if f.holdsPad then 16 else 0, N := 1, LEN := sampleLen f, FSM := f,
    T := sampleRound f, IDX := sampleIdx f, BLK := sampleBlk f, BUSY := f != .idle, DONE := f == .idle,
    alloc := .unbounded, hashWritten := true }

theorem sample_read (f : Fsm) (i : Nat) : Memory.read (sample f).P i =
    if i < (if f.holdsPad then sampleIdx f else 0) then
      some (Contract.paddedWord sampleMsg (sampleLen f).toNat i) else none := by
  simp only [sample, Memory.read_ofList, Nat.zero_le, if_true, Nat.sub_zero]
  generalize (if f.holdsPad = true then sampleIdx f else 0) = k
  by_cases h : i < k <;> simp [h]

theorem sample_inv (f : Fsm) : (sample f).Inv where
  busy := by cases f <;> decide
  busy_clears := by cases f <;> simp [sample, State.reset]
  done_or_err := by simp [sample, State.reset]
  code_err := by simp [sample, State.reset]
  code_none := by simp [sample, State.reset]
  pvalid := rfl
  plen_held := by simp [sample]
  plen_free := by simp [sample]
  counted := by cases f <;> intro _ _ <;> decide
  index := by cases f <;> simp [State.indexInPlace, sample, sampleIdx, sampleLen]
  rounds := by cases f <;> simp [State.roundsInPlace, sample, sampleBlk, sampleRound]
  written := fun i => by
    rw [sample_read]
    simp only [sample]
    cases f.holdsPad <;> simp
  pad_wf := Memory.ofList_wf _ _
  msg_wf := Memory.wf_nil
  hash := fun _ => rfl

theorem vector_eta (v : Vector Word 5) : #v[v[0], v[1], v[2], v[3], v[4]] = v := by
  ext i hi
  match i, hi with
  | 0, _ => rfl
  | 1, _ => rfl
  | 2, _ => rfl
  | 3, _ => rfl
  | 4, _ => rfl

theorem sample_data (f : Fsm) : (sample f).DataInv where
  pad := fun hv i hi => by
    have hv : f.holdsPad = true := hv
    have hi : i < sampleIdx f := hi
    rw [State.padWord, sample_read, hv, if_pos rfl, if_pos hi]
    rfl
  hash := fun _ => rfl
  work := fun _ => vector_eta _
  ring := fun hf u h1 _ => by
    have hu : u < 16 := by
      rcases hf with h | h <;> cases (show f = _ from h) <;>
        simp [State.lastScheduled, sample, sampleRound] at h1 <;> omega
    have hw : ringAt (sample f).W u = (sample f).currentBlock (u % 16) := by
      simp only [ringAt, sample, Vector.getElem_ofFn]
      rfl
    rw [hw, Contract.schedule, if_pos hu, Nat.mod_eq_of_lt hu]

/-- The control invariant says nothing about the environment but the form of the message. -/
theorem inv_environment {s : State} (h : s.Inv) (a : AllocPolicy) (i : List Turn) (r : Bool) :
    ({ s with alloc := a, inbox := i, rst := r } : State).Inv :=
  ⟨h.busy, h.busy_clears, h.done_or_err, h.code_err, h.code_none, h.pvalid, h.plen_held, h.plen_free, h.counted, h.index,
    h.rounds, h.written, h.pad_wf, h.msg_wf, h.hash⟩

/-- Idle after a failed computation, or with nothing computed since reset. -/
theorem idle_inv (failed : Bool) :
    ({ sample .idle with DONE := false, ERR := failed, ERRCODE := if failed then 1 else 0 } : State).Inv :=
  have h := sample_inv .idle
  ⟨h.busy, fun _ => by simp_all [sample], by simp, by cases failed <;> simp [resourceExhaustedCode],
    by cases failed <;> simp, h.pvalid, h.plen_held, h.plen_free, h.counted, h.index, h.rounds, h.written, h.pad_wf, h.msg_wf,
    fun _ => rfl⟩

/-- Reset released, the environment silent, the storage unbounded, LEN bytes of 0x61 as the message, with these contents of
`H`. -/
def ready (len : Nat) (h : Word) : State :=
  { State.reset with
    LEN := BitVec.ofNat 61 len, msg := Memory.ofList 0 (List.replicate len 0x61), alloc := .capacity 16,
    H := Vector.replicate 5 h }

/-! ### Witnesses, one theorem per statement with hypotheses -/

theorem witness_EncodeDecodeRoundTrip :
    (Instr.hStart 0xffffffff).wellFormed = true ∧ (Instr.hNop 0xfffffffe).wellFormed = true := by decide

theorem witness_DecodeThenEncodeGivesTheSelectorBack :
    decode (.uop 0x3C) = .ok .oFail ∧ decode (.host 0x0C 5) = .ok .hRddigest4 ∧ decode (.host 0x10 3) = .ok (.hStart 3) ∧
    decode (.pin true) = .ok .hReset ∧ encode (.hStart 3) = encode (.hStart 3) := by decide

theorem witness_UnreachableSelectorsAreRejected : opSel { busy .round [] 16 with T := 79 } = some 0x33 := by decide

theorem witness_ControlStateSelectsItsMicroOperation :
    ∃ s : State, s.FSM = .round ∧ s.T.toNat = 79 := ⟨{ busy .round [] 16 with T := 79 }, by decide⟩

theorem witness_StepRunsTheSelectedMicroOperation :
    (∃ s : State, s.blocksTurn ∧ s.rst = false ∧ opSel s = some 0x14 ∧ decode (.uop 0x14) = .ok .pZero) ∧
    (∃ s : State, s.blocksTurn ∧ s.FSM = .idle) ∧ (∃ s : State, s.blocksTurn ∧ s.rst = true) :=
  ⟨⟨busy .zero [] 3, .inl rfl, by decide⟩, ⟨State.reset, .inl rfl, rfl⟩,
    ⟨{ busy .zero [] 3 with rst := true }, .inl rfl, rfl⟩⟩

theorem witness_StepPerformsTheTransaction :
    (∃ s : State, s.inbox = [.access 0x10 1] ∧ s.rst = false ∧ decode (.host 0x10 1) = .ok (.hStart 1)) ∧
    (∃ s : State, s.inbox = [.access 0x10 1] ∧ s.rst = true) ∧ (∃ s : State, s.inbox = [.pin true]) ∧
    (∃ s : State, s.inbox = [.pin false]) ∧ (∃ s : State, s.inbox = [.message [0x61]] ∧ s.BUSY = false) :=
  ⟨⟨{ State.reset with inbox := [.access 0x10 1] }, by decide⟩,
    ⟨{ State.reset with inbox := [.access 0x10 1], rst := true }, by decide⟩,
    ⟨{ State.reset with inbox := [.pin true] }, rfl⟩, ⟨{ State.reset with inbox := [.pin false] }, rfl⟩,
    ⟨{ State.reset with inbox := [.message [0x61]] }, rfl, rfl⟩⟩

theorem witness_PlacedInstructionRuns : (Instr.hNop 0).wellFormed = true := by decide

theorem witness_ResetLeavesTheBlockIdle :
    (∃ s, exec .hReset s = .next (busy .round [] 16).hardReset) ∧ State.reset.blocksTurn := ⟨⟨_, rfl⟩, .inl rfl⟩

theorem witness_ResetAbandonsEverything :
    (∃ s u t v : State, s ≠ u ∧ s.draws = u.draws ∧ exec .hReset s = .next t ∧ exec .hReset u = .next v) ∧
    (∃ s : State, s.rst = true ∧ s.blocksTurn) ∧ (∃ s : State, s.rst = true ∧ s.inbox = [.access 0x10 1]) :=
  ⟨⟨State.reset, busy .zero [] 3, _, _, by decide, rfl, rfl, rfl⟩,
    ⟨{ busy .zero [] 3 with rst := true }, rfl, .inl rfl⟩,
    ⟨{ busy .zero [] 3 with rst := true, inbox := [.access 0x10 1] }, rfl, rfl⟩⟩

theorem witness_StartBeginsAComputation : (0xffffffff : Word).toNat % 2 = 1 ∧ State.reset.BUSY = false := by decide

theorem witness_HostCannotDisturbAComputation :
    ∃ s : State, s.BUSY = true ∧ s.inbox = [.access 0x08 0] := ⟨{ busy .zero [] 3 with inbox := [.access 0x08 0] }, rfl, rfl⟩

theorem witness_StatusReadsTheFlags :
    (∃ s : State, s.Inv ∧ statusWord s = 0) ∧ (∃ s : State, s.Inv ∧ statusWord s = 1) ∧
    (∃ s : State, s.Inv ∧ statusWord s = 2) ∧ (∃ s : State, s.Inv ∧ statusWord s = 0x14) :=
  ⟨⟨_, idle_inv false, rfl⟩, ⟨_, sample_inv .zero, rfl⟩, ⟨_, sample_inv .idle, rfl⟩, ⟨_, idle_inv true, rfl⟩⟩

theorem witness_LengthWritesReplaceTheirPart : State.reset.BUSY = false ∧ (busy .zero [] 3).BUSY = true := by decide

theorem witness_DigestReadsReturnTheHash :
    ∃ s : State, s.BUSY = false ∧ s.hashWritten = true ∧ s.Inv ∧ s.DONE = true :=
  ⟨sample .idle, rfl, rfl, sample_inv _, rfl⟩

theorem witness_IgnoredAccessesChangeNothing :
    (∃ s : State, s.inbox = [.access 0x10 0xfffffffe] ∧ s.rst = false) ∧
    (∃ s : State, s.inbox = [.access 0x1F 1] ∧ s.rst = false) ∧
    (∃ s : State, s.inbox = [.access 0x0F 1] ∧ s.rst = false) :=
  ⟨⟨{ State.reset with inbox := [.access 0x10 0xfffffffe] }, rfl, rfl⟩,
    ⟨{ State.reset with inbox := [.access 0x1F 1] }, rfl, rfl⟩, ⟨{ State.reset with inbox := [.access 0x0F 1] }, rfl, rfl⟩⟩

theorem witness_HiddenStateIsNotReadable :
    ∃ s u : State, s ≠ u ∧ s.SameForHost u ∧ s.inbox = [.access 0x01 0] :=
  ⟨{ busy .zero [] 3 with inbox := [.access 0x01 0] },
    { busy .round [] 16 with inbox := [.access 0x01 0], A := 5, T := 3 }, by decide, rfl, rfl⟩

theorem witness_AllocObtainsTheStorageOrRaises :
    (busy .alloc [] 0).allocOK 16 = true ∧ (busy .alloc [] 0).allocOK (16 * 2) = false := by decide

/-- `LEN = 55` fits a one-block store, `LEN = 56` does not. -/
theorem witness_CapacityDecidesAllocation :
    (∃ s : State, s.alloc = .capacity 16 ∧ s.LEN = 55 ∧ s.N = (s.LEN.toNat + 72) / 64) ∧
    (∃ s : State, s.alloc = .capacity 16 ∧ s.LEN = 56 ∧ s.N = (s.LEN.toNat + 72) / 64) :=
  ⟨⟨{ busy .alloc [] 0 with LEN := 55 }, by decide⟩, ⟨{ busy .alloc [] 0 with LEN := 56, N := 2 }, by decide⟩⟩

theorem witness_WordCopiesFourBytesBigEndian :
    ∃ s : State, s.PVALID = true ∧ s.IDX < s.PLEN ∧ s.IDX < s.LEN.toNat / 4 ∧ s.IDX + 1 = s.LEN.toNat / 4 :=
  ⟨busy .copy ananas 0, by decide⟩

theorem witness_TailWritesTheMarkerWord :
    ∃ s : State, s.PVALID = true ∧ s.IDX < s.PLEN ∧ 4 * s.IDX + 3 ≤ s.LEN.toNat :=
  ⟨busy .tail [0x61, 0x62, 0x63] 0, by decide⟩

theorem witness_FillWritesZerosAndTheBitLength : ∃ s : State, s.PVALID = true ∧ s.IDX < s.PLEN ∧ s.IDX = 15 :=
  ⟨busy .lenlo [] 15, by decide⟩

theorem witness_UndefinedAccessesStop :
    (∃ s : State, s.LEN.toNat = 4 * s.IDX + 3) ∧ (∃ s : State, s.LEN.toNat = 4 * s.IDX) ∧
    (∃ s : State, s.LEN.toNat = 4 * s.IDX + 1) ∧ (∃ s : State, s.LEN.toNat = 4 * s.IDX + 2) ∧
    (∃ s : State, s.PLEN = s.IDX ∧ 4 * s.IDX + 3 < s.LEN.toNat) ∧ (∃ s : State, s.PLEN = 16 * s.BLK + 15) ∧
    (∃ s : State, s.T.toNat = 80 ∧ s.FSM = .round ∧ s.blocksTurn ∧ s.rst = false) :=
  ⟨⟨{ State.reset with LEN := 3 }, rfl⟩, ⟨State.reset, rfl⟩, ⟨{ State.reset with LEN := 1 }, rfl⟩,
    ⟨{ State.reset with LEN := 2 }, rfl⟩, ⟨{ State.reset with LEN := 4 }, by decide⟩, ⟨{ State.reset with PLEN := 15 }, rfl⟩,
    ⟨{ State.reset with T := 80, FSM := .round }, rfl, rfl, .inl rfl, rfl⟩⟩

/-- `L = 55` and `L = 56`, where the zeros end and begin a block. -/
theorem witness_SequenceReadsAsTheByteString :
    (54 < 55) ∧ (56 < 57 ∧ 57 + 8 < 64 * ((56 + 72) / 64)) ∧ 2 ^ 61 - 1 < 2 ^ 61 := by decide

theorem witness_PadderProducesThePaddedSequence :
    ∃ (s : State) (M : Nat → Byte), s.FSM = .count ∧ s.undisturbed ∧ s.allocOK (16 * ((s.LEN.toNat + 72) / 64)) = true ∧
      ∀ off, off < s.LEN.toNat → s.msgByte off = M off :=
  ⟨{ ready 55 0 with FSM := .count }, _, rfl, ⟨rfl, rfl⟩, by decide, fun _ _ => rfl⟩

theorem witness_RotationIsTheRulesFormula : (1 ≤ 1 ∧ 1 ≤ 31) ∧ (1 ≤ 31 ∧ 31 ≤ 31) ∧ 31 < 32 := by decide

theorem witness_MixingFunctionsFollowTheirTable : 31 < 32 := by decide

theorem witness_LoadTakesTheBlockAndTheHash : ∃ s : State, s.PVALID = true ∧ 16 * s.BLK + 15 < s.PLEN :=
  ⟨busy .load [] 16, by decide⟩

theorem witness_SchedExpandsOneWord :
    (∃ s : State, s.T.toNat = 16 ∧ 16 ≤ s.T.toNat ∧ s.T.toNat ≤ 79) ∧
    (∃ s : State, s.T.toNat = 79 ∧ 16 ≤ s.T.toNat ∧ s.T.toNat ≤ 79) :=
  ⟨⟨{ State.reset with T := 16 }, by decide⟩, ⟨{ State.reset with T := 79 }, by decide⟩⟩

theorem witness_RoundsMixAndShift :
    ∃ (s : State) (f : Word), s.T.toNat = 79 ∧ s.T.toNat ≤ 79 ∧ f = s.B ^^^ s.C ^^^ s.D :=
  ⟨{ State.reset with T := 79 }, _, rfl, by decide, rfl⟩

/-- The schedule at both sides of 15 and 16; a block to compress, `k` from 1 to 145; steps into ROUND after C.LOAD and after
C.SCHED, and into SCHED after round 15. -/
theorem witness_RingHoldsTheLogicalSchedule :
    (15 ≤ 15 ∧ 16 ≤ 16) ∧
    (∃ s : State, s.FSM = .load ∧ s.undisturbed ∧ s.PVALID = true ∧ 16 * s.BLK + 15 < s.PLEN) ∧
    (0 < 1 ∧ 145 < 146) ∧
    (∃ s t : State, s.Inv ∧ s.DataInv ∧ step s = .next t ∧ t.FSM = .round ∧ t.T.toNat = 0) ∧
    (∃ s t : State, s.Inv ∧ s.DataInv ∧ step s = .next t ∧ t.FSM = .round ∧ t.T.toNat = 16) ∧
    (∃ s t : State, s.Inv ∧ s.DataInv ∧ step s = .next t ∧ t.FSM = .sched ∧ t.T.toNat = 16) :=
  ⟨by decide, ⟨busy .load [] 16, rfl, ⟨rfl, rfl⟩, by decide⟩, by decide,
    ⟨sample .load, _, sample_inv _, sample_data _, rfl, rfl, rfl⟩,
    ⟨sample .sched, _, sample_inv _, sample_data _, rfl, rfl, rfl⟩,
    ⟨sample .round, _, sample_inv _, sample_data _, rfl, rfl, rfl⟩⟩

theorem witness_CompressorComputesCompress :
    ∃ s : State, s.FSM = .load ∧ s.undisturbed ∧ s.PVALID = true ∧ 16 * s.BLK + 15 < s.PLEN :=
  ⟨busy .load [] 16, rfl, ⟨rfl, rfl⟩, by decide⟩

theorem witness_NextChoosesAnotherBlockOrTheEnd :
    (∃ s : State, s.BLK < s.N) ∧ (∃ s : State, s.N ≤ s.BLK) := ⟨⟨busy .next [] 16, by decide⟩, ⟨State.reset, by decide⟩⟩

theorem witness_FailReportsResourceExhausted :
    ∃ s t : State, s.allocOK (16 * s.N) = false ∧ exec .pAlloc s = .next t ∧ t.FSM = .fail ∧ s.FSM ≠ .fail :=
  ⟨{ busy .alloc [] 0 with alloc := .capacity 15 }, _, by decide, rfl, by decide⟩

/-- A sound state whose allocation is refused. -/
theorem witness_OnlyARefusedAllocationRaises :
    ∃ s t : State, s.Inv ∧ s.FSM ≠ .fail ∧ step s = .next t ∧ t.FSM = .fail :=
  ⟨_, State.raiseResourceExhausted { sample .alloc with alloc := .capacity 15, inbox := [], rst := false },
    inv_environment (sample_inv .alloc) (.capacity 15) [] false, by decide, rfl, rfl⟩

theorem witness_ControlFollowsTheTransitionTable :
    (∃ s t : State, s.Inv ∧ step s = .next t ∧ s.blocksTurn ∧ s.rst = false ∧ s.FSM ≠ .idle) ∧
    (∃ s t : State, s.Inv ∧ step s = .next t ∧ s.blocksTurn ∧ s.FSM = .idle) ∧
    (∃ s t : State, s.Inv ∧ step s = .next t ∧ s.inbox = [.access 0x10 1]) ∧
    (∃ s t : State, s.Inv ∧ step s = .next t ∧ s.inbox = [.pin true]) ∧
    (∃ s t : State, s.Inv ∧ step s = .next t ∧ s.inbox = [.message []]) :=
  ⟨⟨sample .release, _, sample_inv _, rfl, .inl rfl, rfl, by decide⟩,
    ⟨sample .idle, _, sample_inv _, rfl, .inl rfl, rfl⟩,
    ⟨_, _, inv_environment (sample_inv .idle) .unbounded [.access 0x10 1] false, rfl, rfl⟩,
    ⟨_, _, inv_environment (sample_inv .round) .unbounded [.pin true] false, rfl, rfl⟩,
    ⟨_, _, inv_environment (sample_inv .idle) .unbounded [.message []] false, rfl, rfl⟩⟩

theorem witness_OnlyAStartLeavesIdle :
    (∃ s : State, s.FSM = .idle ∧ s.blocksTurn) ∧
    (∃ s t : State, s.FSM = .idle ∧ step s = .next t ∧ t.FSM = .count) :=
  ⟨⟨State.reset, rfl, .inl rfl⟩, ⟨{ State.reset with inbox := [.access 0x10 1] }, _, rfl, rfl, rfl⟩⟩

theorem witness_InstructionsWriteOnlyTheirRegisters :
    (∃ t, exec .pZero (busy .zero [] 3) = .next t) ∧ (∃ t, exec (.hWrlenLo 5) State.reset = .next t) :=
  ⟨⟨_, rfl⟩, ⟨_, rfl⟩⟩

theorem witness_MessageAndLengthAreFixedWhileBusy :
    (∃ s t : State, step s = .next t ∧ s.BUSY = true ∧ s.inbox = [.access 0x12 99]) ∧
    (∃ s t : State, step s = .next t ∧ s.BUSY = true ∧ s.inbox = [.pin true]) :=
  ⟨⟨{ busy .zero [] 3 with inbox := [.access 0x12 99] }, _, rfl, rfl, rfl⟩,
    ⟨{ busy .zero [] 3 with inbox := [.pin true] }, _, rfl, rfl, rfl⟩⟩

theorem witness_AccessesAreDefinedAndWordsWrittenOnce :
    (∃ s : State, s.Inv ∧ s.FSM = .copy) ∧ (∃ s : State, s.Inv ∧ s.FSM = .tail) ∧ (∃ s : State, s.Inv ∧ s.FSM = .lenlo) ∧
    (∃ s : State, s.Inv ∧ s.FSM = .load) :=
  ⟨⟨_, sample_inv _, rfl⟩, ⟨_, sample_inv _, rfl⟩, ⟨_, sample_inv _, rfl⟩, ⟨_, sample_inv _, rfl⟩⟩

theorem witness_NoSequenceSurvivesItsComputation :
    (∃ s : State, s.Inv ∧ s.FSM = .idle) ∧
    (∃ s t : State, s.Inv ∧ step s = .next t ∧ s.FSM = .release ∧ t.FSM = .idle) ∧
    (∃ s t : State, s.Inv ∧ step s = .next t ∧ s.FSM = .fail ∧ t.FSM = .idle) ∧
    (∃ s t : State, s.Inv ∧ step s = .next t ∧ s.FSM = .round ∧ t.FSM = .idle) :=
  ⟨⟨_, sample_inv _, rfl⟩, ⟨sample .release, _, sample_inv _, rfl, rfl, rfl⟩, ⟨sample .fail, _, sample_inv _, rfl, rfl, rfl⟩,
    ⟨_, _, inv_environment (sample_inv .round) .unbounded [.pin true] false, rfl, rfl, rfl⟩⟩

theorem witness_DoneMeansTheDigestIsReady :
    ∃ s t : State, s.Inv ∧ s.DataInv ∧ step s = .next t ∧ s.DONE = false ∧ t.DONE = true :=
  ⟨sample .release, _, sample_inv _, sample_data _, rfl, rfl, rfl⟩

theorem witness_ResultStaysUntilTheNextStart :
    ∃ s t : State, s.Inv ∧ s.BUSY = false ∧ step s = .next t ∧ (∀ rest, s.inbox ≠ .pin true :: rest) ∧ t.BUSY = false :=
  ⟨sample .idle, _, sample_inv _, rfl, rfl, fun _ h => (List.cons_ne_nil _ _ h.symm).elim, rfl⟩

theorem witness_ControlIgnoresTheData :
    (∃ s u t : State, s ≠ u ∧ s.SameControl u ∧ step s = .next t) ∧
    (∃ s u : State, s ≠ u ∧ s.SameControl u ∧ step s = .fault .msgOutOfRange) ∧
    (∃ s u : State, s ≠ u ∧ s.SameControl u ∧ step s = .refused .messageChangedWhileBusy) :=
  ⟨⟨busy .zero [0x61] 3, busy .zero [0x62] 3, _, by decide, rfl, rfl⟩,
    ⟨busy .copy [0x61] 0, busy .copy [0x62] 0, by decide, rfl, rfl⟩,
    ⟨{ busy .zero [0x61] 3 with inbox := [.message []] }, { busy .zero [0x62] 3 with inbox := [.message []] }, by decide, rfl,
      rfl⟩⟩

/-- Two blocks with different earlier contents, the same message; once with the storage granted, once refused. -/
theorem witness_EqualInputsGiveEqualResults (len : Nat) (h : len = 55 ∨ len = 56) :
    ∃ s0 u0 s u : State, s0 ≠ u0 ∧ s0.BUSY = false ∧ u0.BUSY = false ∧
      exec (.hStart 1) s0 = .next s ∧ exec (.hStart 3) u0 = .next u ∧ s.undisturbed ∧ u.undisturbed ∧ s.LEN = u.LEN ∧
      (∀ off, off < s.LEN.toNat → s.msgByte off = u.msgByte off) ∧
      s.allocOK (16 * ((s.LEN.toNat + 72) / 64)) = u.allocOK (16 * ((s.LEN.toNat + 72) / 64)) ∧
      s.allocOK (16 * ((s.LEN.toNat + 72) / 64)) = decide (len = 55) :=
  ⟨ready len 0, ready len 1, _, _, fun e => absurd (show (0 : Word) = 1 from congrArg (fun s => s.H[0]) e) (by decide), rfl, rfl, rfl,
    rfl, ⟨rfl, rfl⟩,
    ⟨rfl, rfl⟩, rfl, fun _ _ => rfl, rfl, by rcases h with rfl | rfl <;> rfl⟩

theorem witness_EveryStepKeepsTheControlInvariant : ∃ s t : State, s.Inv ∧ step s = .next t :=
  ⟨sample .zero, _, sample_inv _, rfl⟩

theorem witness_EveryStepKeepsTheDataInvariant : ∃ s t : State, s.Inv ∧ s.DataInv ∧ step s = .next t :=
  ⟨sample .round, _, sample_inv _, sample_data _, rfl⟩

theorem witness_RunsStaySound : ∃ s t : State, s.Inv ∧ s.DataInv ∧ Host.Core.run core 1 s = .next t :=
  ⟨sample .lenhi, _, sample_inv _, sample_data _, rfl⟩

theorem witness_SoundStatesNeverStop :
    (∃ s : State, s.Inv ∧ s.dutyKept ∧ s.BUSY = true) ∧ (∃ s : State, s.BUSY = true ∧ s.inbox = [.message []]) :=
  ⟨⟨sample .zero, sample_inv _, fun _ _ _ h => (List.cons_ne_nil _ _ h.symm).elim, rfl⟩,
    ⟨{ busy .zero [] 3 with inbox := [.message []] }, rfl, rfl⟩⟩

theorem witness_FailureIsAtomic :
    ∃ s0 s : State, s0.BUSY = false ∧ exec (.hStart 1) s0 = .next s ∧ s.undisturbed ∧
      s.allocOK (16 * ((s.LEN.toNat + 72) / 64)) = false :=
  ⟨ready 56 7, _, rfl, rfl, ⟨rfl, rfl⟩, by decide⟩

theorem witness_ComputationReturnsTheDigest :
    (∃ (s0 s : State) (M : Nat → Byte), s0.BUSY = false ∧ exec (.hStart 1) s0 = .next s ∧ s.undisturbed ∧
      (∀ off, off < s.LEN.toNat → s.msgByte off = M off) ∧ s.allocOK (16 * ((s.LEN.toNat + 72) / 64)) = true) ∧
    (∃ (s0 s : State) (M : Nat → Byte), s0.BUSY = false ∧ exec (.hStart 1) s0 = .next s ∧ s.undisturbed ∧
      (∀ off, off < s.LEN.toNat → s.msgByte off = M off) ∧ s.allocOK (16 * ((s.LEN.toNat + 72) / 64)) = false) :=
  ⟨⟨ready 55 7, _, _, rfl, rfl, ⟨rfl, rfl⟩, fun _ _ => rfl, by decide⟩,
    ⟨ready 56 7, _, _, rfl, rfl, ⟨rfl, rfl⟩, fun _ _ => rfl, by decide⟩⟩

theorem witness_EveryComputationEnds :
    ∃ s : State, s.Inv ∧ s.BUSY = true ∧ s.rst = false ∧ s.hostOnly ∧ s.inbox.length = 2 :=
  ⟨_, inv_environment (sample_inv .count) .platform [.access 0x01 0, .block] false, rfl, rfl,
    fun turn h => by
      rcases List.mem_cons.1 h with rfl | h
      · exact .inr ⟨_, _, rfl⟩
      · exact .inl (List.mem_singleton.1 h),
    rfl⟩

end Sys2Proof.Tests
end

section
/-! PROOFS. The rotation of the Compressor (`00_scope.md` R4, `41_compressor.md` R165), tied to the library's
`BitVec.rotateLeft`. -/

namespace Sys2Proof.Machine

theorem rotl_eq_rotateLeft (x : Word) (n : Nat) (h : 1 ≤ n ∧ n ≤ 31) : rotl x n h = x.rotateLeft n := by
  rw [BitVec.rotateLeft_def, Nat.mod_eq_of_lt (by omega)]
  rfl

/-- R4: each of the two shifts is its term of the formula cut to 32 bits, and cutting commutes with OR. -/
theorem rotl_eq_ofNat (x : Word) (n : Nat) (h : 1 ≤ n ∧ n ≤ 31) :
    rotl x n h = BitVec.ofNat 32 ((x.toNat * 2 ^ n) ||| (x.toNat / 2 ^ (32 - n))) := by
  have hleft : x <<< n = BitVec.ofNat 32 (x.toNat * 2 ^ n) := by
    rw [← Nat.shiftLeft_eq]
    rfl
  have hright : x >>> (32 - n) = BitVec.ofNat 32 (x.toNat / 2 ^ (32 - n)) := by
    rw [← Nat.shiftRight_eq_div_pow, ← BitVec.toNat_ushiftRight, BitVec.ofNat_toNat, BitVec.setWidth_eq]
  rw [rotl, hleft, hright, BitVec.ofNat_or]

/-- R165(b): bits below `n` wrap round from the top of the word, the others come from `n` places lower. -/
theorem getLsbD_rotl (x : Word) (n : Nat) (h : 1 ≤ n ∧ n ≤ 31) (i : Nat) (hi : i < 32) :
    (rotl x n h).getLsbD i = x.getLsbD ((i + 32 - n) % 32) := by
  rw [rotl_eq_rotateLeft, BitVec.getLsbD_rotateLeft_of_le (by omega)]
  rcases Nat.lt_or_ge i n with hlow | hhigh
  · rw [decide_eq_true hlow, cond_true, show (i + 32 - n) % 32 = 32 - n + i by omega]
  · rw [decide_eq_false (by omega), cond_false, decide_eq_true hi, Bool.true_and,
      show (i + 32 - n) % 32 = i - n by omega]

/-- Settles O28: the formula of R4 and the bits of R165(b), each by its own lemma. -/
theorem rotationIsTheRulesFormula : Obligations.RotationIsTheRulesFormula :=
  fun x n h => ⟨rotl_eq_ofNat x n h, getLsbD_rotl x n h⟩

end Sys2Proof.Machine
end

section
/-! PROOFS. The block's turn through the transition table (`42_orchestrator.md` R190): the selector of a control state
decodes to the micro-operation the table gives it, so a step on the block's turn is that micro-operation. -/

namespace Sys2Proof.Machine

variable {s t : State}

/-- The three parts of a step put together: what a turn comes to, performed. -/
def Fetched.perform : Fetched → Host.Outcome State Fault Refusal
  | .run i s => exec i s
  | .done s => .next s
  | .refuse r => .refused r

theorem step_eq_perform (s : State) : step s = (fetch s).perform := rfl

theorem step_eq_of_blocksTurn (h : s.blocksTurn) : step s = (blockTurn s.afterTurn).perform := by
  rw [step_eq_perform, fetch_of_blocksTurn h]

theorem lt_four_cases {n : Nat} (h : n < 4) : n = 0 ∨ n = 1 ∨ n = 2 ∨ n = 3 := by omega

/-- R100, R102, R190: a selector the control state produces stands for the table's micro-operation. -/
theorem decode_opSel {op : BitVec 6} (h : opSel s = some op) : (decode (.uop op)).toOption = s.microOp := by
  cases hf : s.FSM
  case tail =>
    obtain h4 | h4 | h4 | h4 := lt_four_cases (Nat.mod_lt s.LEN.toNat (by decide : 0 < 4)) <;>
      simp only [opSel, subSelector, hf, h4, Option.map_some, Option.some.injEq] at h <;>
      simp only [State.microOp, hf, h4, ← h] <;> rfl
  case round =>
    rcases Nat.lt_or_ge s.T.toNat 80 with hT | hT
    · obtain h4 | h4 | h4 | h4 := lt_four_cases (show s.T.toNat / 20 < 4 by omega) <;>
        simp only [opSel, subSelector, hf, hT, h4, if_true, Option.map_some, Option.some.injEq] at h <;>
        simp only [State.microOp, hf, h4, ← h] <;> rfl
    · simp [opSel, subSelector, hf, Nat.not_lt.2 hT] at h
  all_goals
    simp only [opSel, subSelector, hf, Option.map_some, Option.some.injEq] at h
    simp only [State.microOp, hf, ← h]
    rfl

theorem microOp_of_opSel {op : BitVec 6} {i : Instr} (ho : opSel s = some op) (hd : decode (.uop op) = .ok i) :
    s.microOp = some i := by
  rw [← decode_opSel ho, hd]
  rfl

/-- R100: only a ROUND beyond round 79 has no selector. -/
theorem exists_opSel (h : s.FSM = .round → s.T.toNat < 80) : ∃ op, opSel s = some op := by
  cases hf : s.FSM
  case round => simp [opSel, subSelector, hf, h hf]
  all_goals simp [opSel, subSelector, hf]

theorem blockTurn_of_rst (h : s.rst = true) : blockTurn s = .done s := by
  rw [blockTurn, if_pos h]

theorem blockTurn_of_idle (h : s.FSM = .idle) : blockTurn s = .done s := by
  rw [blockTurn, opSel_eq_zero_iff.2 h]
  split <;> rfl

theorem blockTurn_of_opSel {op : BitVec 6} (hr : s.rst = false) (ho : opSel s = some op) :
    blockTurn s = select (.uop op) s := by
  rw [blockTurn, if_neg (by simp [hr]), ho]

theorem blockTurn_of_noSelector (hr : s.rst = false) (ho : opSel s = none) : blockTurn s = .refuse .noSelector := by
  rw [blockTurn, if_neg (by simp [hr]), ho]

/-- R101: released from reset, the block runs the micro-operation of its control state. -/
theorem blockTurn_of_microOp {i : Instr} (hr : s.rst = false) (hi : s.microOp = some i) :
    blockTurn s = .run i s := by
  have hT : s.FSM = .round → s.T.toNat < 80 := by
    intro hf
    by_contra hT
    have hbound := s.T.isLt
    obtain h4 | h4 | h4 : s.T.toNat / 20 = 4 ∨ s.T.toNat / 20 = 5 ∨ s.T.toNat / 20 = 6 := by omega
    all_goals simp [State.microOp, hf, h4] at hi
  obtain ⟨op, ho⟩ := exists_opSel hT
  have hd : decode (.uop op) = .ok i := by
    have := decode_opSel ho
    rw [hi] at this
    cases hd : decode (.uop op) with
    | ok j => rw [hd] at this; simpa [Except.toOption] using this
    | error e => rw [hd] at this; cases this
  rw [blockTurn_of_opSel hr ho, select, hd]

theorem step_of_microOp {i : Instr} (hb : s.blocksTurn) (hr : s.rst = false) (hi : s.microOp = some i) :
    step s = exec i s.afterTurn := by
  rw [step_eq_of_blocksTurn hb, blockTurn_of_microOp (s := s.afterTurn) hr hi]
  rfl

theorem step_of_idle (hb : s.blocksTurn) (hf : s.FSM = .idle) : step s = .next s.afterTurn := by
  rw [step_eq_of_blocksTurn hb, blockTurn_of_idle (s := s.afterTurn) hf]
  rfl

theorem step_of_rst (hb : s.blocksTurn) (hr : s.rst = true) : step s = .next s.afterTurn := by
  rw [step_eq_of_blocksTurn hb, blockTurn_of_rst (s := s.afterTurn) hr]
  rfl

end Sys2Proof.Machine
end

section
/-! PROOFS. What an instruction that answers a next state has done, said once for all 35 (`State.Does`), and the frame of
`10_state.md` R20 to R37 read off it. -/

namespace Sys2Proof

/-- The eight writes of the Padder (R133 to R140). -/
def Instr.padWrites : List Instr := [.pWord, .pTail0, .pTail1, .pTail2, .pTail3, .pZero, .pLenhi, .pLenlo]

/-- The rounds of the four phases (R167 to R170). -/
def Instr.roundOps : List Instr := [.cRound0, .cRound1, .cRound2, .cRound3]

/-- The host's reads (R214 to R220). -/
def Instr.hostReads : List Instr :=
  [.hRdctrl, .hRdstatus, .hRdlenLo, .hRdlenHi, .hRddigest0, .hRddigest1, .hRddigest2, .hRddigest3, .hRddigest4]

/-- The thirteen host transactions (R104). -/
def Instr.isHost : Instr → Bool
  | .hRdctrl | .hRdstatus | .hRdlenLo | .hRdlenHi | .hRddigest0 | .hRddigest1 | .hRddigest2 | .hRddigest3
  | .hRddigest4 | .hStart _ | .hNop _ | .hWrlenLo _ | .hWrlenHi _ => true
  | _ => false

theorem Instr.mem_padWrites {i : Instr} : i ∈ padWrites ↔
    i = .pWord ∨ i = .pTail0 ∨ i = .pTail1 ∨ i = .pTail2 ∨ i = .pTail3 ∨ i = .pZero ∨ i = .pLenhi ∨ i = .pLenlo := by
  simp [padWrites]

theorem Instr.mem_roundOps {i : Instr} :
    i ∈ roundOps ↔ i = .cRound0 ∨ i = .cRound1 ∨ i = .cRound2 ∨ i = .cRound3 := by
  simp [roundOps]

theorem Instr.mem_hostReads {i : Instr} : i ∈ hostReads ↔
    i = .hRdctrl ∨ i = .hRdstatus ∨ i = .hRdlenLo ∨ i = .hRdlenHi ∨ i = .hRddigest0 ∨ i = .hRddigest1 ∨
      i = .hRddigest2 ∨ i = .hRddigest3 ∨ i = .hRddigest4 := by
  simp [hostReads]

namespace Machine

variable {s t : State} {i : Instr}

/-- `s.Does i t`: the instruction `i`, executed in `s`, leaves `t` by one of the state's named operations. What the operation
writes (the word, the successor) is left open; `exec_does` ties it to the model. -/
inductive State.Does (s : State) : Instr → State → Prop
  | count (n : Nat) : s.Does .pCount (s.counted n)
  | grant : s.Does .pAlloc s.allocated
  | refuse : s.Does .pAlloc s.raiseResourceExhausted
  | store (i : Instr) (hi : i ∈ Instr.padWrites) (v : Word) (f : Fsm) : s.Does i (s.pushPad v f)
  | init : s.Does .oInit s.initHash
  | next (f : Fsm) : s.Does .oNext (s.goto f)
  | load (w : Vector Word 16) : s.Does .cLoad (s.loadBlock w)
  | sched (v : Word) : s.Does .cSched (s.putSchedule v)
  | round (i : Instr) (hi : i ∈ Instr.roundOps) (temp : Word) : s.Does i (s.shiftRound temp)
  | feed : s.Does .cFeed s.feedForward
  | release : s.Does .oRelease s.releasePad
  | fail : s.Does .oFail s.enterResourceExhausted
  | read (i : Instr) (hi : i ∈ Instr.hostReads) (v : Word) : s.Does i (s.respond v)
  | readFree (i : Instr) (hi : i ∈ Instr.hostReads) (k : Nat) : s.Does i (s.respondFree k)
  | start (data : Word) (hb : s.BUSY = false) : s.Does (.hStart data) s.acceptStart
  | startLost (data : Word) (hb : s.BUSY = true) : s.Does (.hStart data) s
  | nop (data : Word) : s.Does (.hNop data) s
  | lengthLow (data : Word) (hb : s.BUSY = false) (len : BitVec 61) : s.Does (.hWrlenLo data) (s.setLen len)
  | lengthHigh (data : Word) (hb : s.BUSY = false) (len : BitVec 61) : s.Does (.hWrlenHi data) (s.setLen len)
  | lengthLowLost (data : Word) (hb : s.BUSY = true) : s.Does (.hWrlenLo data) s
  | lengthHighLost (data : Word) (hb : s.BUSY = true) : s.Does (.hWrlenHi data) s
  | reset : s.Does .hReset s.hardReset

theorem does_of_storeNext (hi : i ∈ Instr.padWrites) {v : Word} {next : Nat → Fsm}
    (h : s.storeNext v next = .ok t) : s.Does i t := by
  obtain ⟨-, rfl⟩ := storeNext_eq_ok.1 h
  exact .store i hi v _

theorem does_of_round (hi : i ∈ Instr.roundOps) {k : Word} {f : Word → Word → Word → Word}
    (h : exec i s = outcome (s.round k f)) (ht : exec i s = .next t) : s.Does i t := by
  obtain ⟨-, rfl⟩ := round_eq_ok.1 (outcome_eq_next.1 (h ▸ ht))
  exact .round i hi _

theorem does_of_readDigest (hi : i ∈ Instr.hostReads) (k : Fin 5) : s.Does i (s.readDigest k) := by
  obtain ⟨-, -, h⟩ | ⟨-, h⟩ := readDigest_cases s k <;> rw [h]
  · exact .read i hi _
  · exact .readFree i hi _

/-- Every instruction that answers a next state does one of the named operations. -/
theorem exec_does (h : exec i s = .next t) : s.Does i t := by
  cases i
  case pCount => cases h; exact .count _
  case pAlloc =>
    simp only [exec, execPAlloc, Host.Outcome.next.injEq] at h
    split at h <;> subst h
    · exact .grant
    · exact .refuse
  case pWord =>
    simp only [exec, execPWord, outcome_eq_next, bind_eq_ok] at h
    obtain ⟨_, -, _, -, _, -, _, -, h⟩ := h
    exact does_of_storeNext (by decide) h
  case pTail0 => exact does_of_storeNext (by decide) (outcome_eq_next.1 h)
  case pTail1 =>
    simp only [exec, execPTail1, outcome_eq_next, bind_eq_ok] at h
    obtain ⟨_, -, h⟩ := h
    exact does_of_storeNext (by decide) h
  case pTail2 =>
    simp only [exec, execPTail2, outcome_eq_next, bind_eq_ok] at h
    obtain ⟨_, -, _, -, h⟩ := h
    exact does_of_storeNext (by decide) h
  case pTail3 =>
    simp only [exec, execPTail3, outcome_eq_next, bind_eq_ok] at h
    obtain ⟨_, -, _, -, _, -, h⟩ := h
    exact does_of_storeNext (by decide) h
  case pZero => exact does_of_storeNext (by decide) (outcome_eq_next.1 h)
  case pLenhi => exact does_of_storeNext (by decide) (outcome_eq_next.1 h)
  case pLenlo => exact does_of_storeNext (by decide) (outcome_eq_next.1 h)
  case oInit => cases h; exact .init
  case oNext => cases h; exact .next _
  case cLoad =>
    simp only [exec, execCLoad, outcome_eq_next, bind_eq_ok] at h
    obtain ⟨w, -, h⟩ := h
    cases h
    exact .load w
  case cSched => cases h; exact .sched _
  case cRound0 => exact does_of_round (by decide) rfl h
  case cRound1 => exact does_of_round (by decide) rfl h
  case cRound2 => exact does_of_round (by decide) rfl h
  case cRound3 => exact does_of_round (by decide) rfl h
  case cFeed => cases h; exact .feed
  case oRelease => cases h; exact .release
  case oFail => cases h; exact .fail
  case hRdctrl => cases h; exact .read _ (by decide) _
  case hRdstatus => cases h; exact .read _ (by decide) _
  case hRdlenLo => cases h; exact .read _ (by decide) _
  case hRdlenHi => cases h; exact .read _ (by decide) _
  case hRddigest0 => cases h; exact does_of_readDigest (by decide) 0
  case hRddigest1 => cases h; exact does_of_readDigest (by decide) 1
  case hRddigest2 => cases h; exact does_of_readDigest (by decide) 2
  case hRddigest3 => cases h; exact does_of_readDigest (by decide) 3
  case hRddigest4 => cases h; exact does_of_readDigest (by decide) 4
  case hStart data =>
    simp only [exec, execHStart, Host.Outcome.next.injEq] at h
    split at h <;> subst h
    · exact .startLost data ‹_›
    · exact .start data (by simpa using ‹¬s.BUSY = true›)
  case hNop data => cases h; exact .nop data
  case hWrlenLo data =>
    cases h
    obtain ⟨hb, h⟩ | ⟨hb, h⟩ := writeLen_cases s (withLenLow s.LEN data) <;> rw [h]
    · exact .lengthLowLost data hb
    · exact .lengthLow data hb _
  case hWrlenHi data =>
    cases h
    obtain ⟨hb, h⟩ | ⟨hb, h⟩ := writeLen_cases s (withLenHigh s.LEN data) <;> rw [h]
    · exact .lengthHighLost data hb
    · exact .lengthHigh data hb _
  case hReset => cases h; exact .reset

/-- Settles O43: what each of the named operations writes, read off the state's laws. -/
theorem instructionsWriteOnlyTheirRegisters : Obligations.InstructionsWriteOnlyTheirRegisters := by
  intro i s t h
  cases exec_does h
  case store v f hi =>
    rcases Instr.mem_padWrites.1 hi with rfl | rfl | rfl | rfl | rfl | rfl | rfl | rfl <;>
      simp +contextual [Memory.read_write]
  case round temp hi => rcases Instr.mem_roundOps.1 hi with rfl | rfl | rfl | rfl <;> simp
  case read v hi =>
    rcases Instr.mem_hostReads.1 hi with rfl | rfl | rfl | rfl | rfl | rfl | rfl | rfl | rfl <;> simp
  case readFree k hi =>
    rcases Instr.mem_hostReads.1 hi with rfl | rfl | rfl | rfl | rfl | rfl | rfl | rfl | rfl <;> simp
  all_goals simp

/-! ### The host's transactions -/

theorem isHost_of_decode_host {hsel : BitVec 5} {data : Word} (h : decode (.host hsel data) = .ok i) :
    i.isHost = true := by
  simp only [decode, decodeHost] at h
  split at h
  case h_10 => split at h <;> (cases h; rfl)
  case h_13 => cases h
  all_goals (cases h; rfl)

/-- A host transaction always completes. -/
theorem exec_host_next (h : i.isHost = true) (s : State) : ∃ t, exec i s = .next t := by
  cases i
  case hRdctrl | hRdstatus | hRdlenLo | hRdlenHi | hRddigest0 | hRddigest1 | hRddigest2 | hRddigest3 | hRddigest4 |
      hStart | hNop | hWrlenLo | hWrlenHi => exact ⟨_, rfl⟩
  all_goals cases h

/-- What a host transaction can do: nothing, answer a read, accept a START, or write `LEN`, the latter two only while
`BUSY = 0`. -/
theorem State.Does.host_cases (h : s.Does i t) (hi : i.isHost = true) :
    t = s ∨ (∃ v, t = s.respond v) ∨ (∃ k, t = s.respondFree k) ∨
      (s.BUSY = false ∧ (t = s.acceptStart ∨ ∃ len, t = s.setLen len)) := by
  cases h
  case store _ _ hw => rcases Instr.mem_padWrites.1 hw with rfl | rfl | rfl | rfl | rfl | rfl | rfl | rfl <;> cases hi
  case round _ hw => rcases Instr.mem_roundOps.1 hw with rfl | rfl | rfl | rfl <;> cases hi
  case read v _ => exact .inr (.inl ⟨v, rfl⟩)
  case readFree k _ => exact .inr (.inr (.inl ⟨k, rfl⟩))
  case start hb => exact .inr (.inr (.inr ⟨hb, .inl rfl⟩))
  case lengthLow hb len | lengthHigh hb len => exact .inr (.inr (.inr ⟨hb, .inr ⟨len, rfl⟩⟩))
  case startLost | nop | lengthLowLost | lengthHighLost => exact .inl rfl
  all_goals cases hi

/-! ### The message and the length while `BUSY = 1` (R26, R27) -/

theorem State.Does.message_fixed (h : s.Does i t) (hb : s.BUSY = true) (hi : i ≠ .hReset) :
    t.msg = s.msg ∧ t.calls = s.calls ∧ t.LEN = s.LEN := by
  cases h
  case start hb' | lengthLow hb' _ | lengthHigh hb' _ => simp [hb] at hb'
  case reset => exact absurd rfl hi
  all_goals exact ⟨rfl, rfl, rfl⟩

theorem microOp_ne_hReset : s.microOp ≠ some .hReset := by
  unfold State.microOp
  split
  case h_5 => split <;> simp
  case h_13 => split <;> simp
  all_goals simp

theorem decode_host_ne_hReset (hsel : BitVec 5) (data : Word) : decode (.host hsel data) ≠ .ok .hReset :=
  fun h => by cases isHost_of_decode_host h

/-- A step while `BUSY = 1` keeps the message, the computation's number and `LEN`, but that reset clears `LEN`. -/
theorem step_message_fixed (h : step s = .next t) (hb : s.BUSY = true) :
    t.msg = s.msg ∧ t.calls = s.calls ∧
      (t.LEN = s.LEN ∨ ∃ rest, s.inbox = .pin true :: rest ∧ t.LEN = 0 ∧ t.BUSY = false) := by
  rcases step_cases h with ⟨-, -, rfl⟩ | ⟨-, -, op, i, ho, hd, he⟩ | ⟨_, _, _, -, -, rfl⟩ |
    ⟨hsel, data, rest, i, -, -, hd, he⟩ | ⟨_, _, _, -, -, -, rfl⟩ | ⟨_, _, _, -, -, -, rfl⟩ | ⟨rest, hi, he⟩ |
    ⟨_, -, rfl⟩ | ⟨_, _, -, hidle, -⟩
  · exact ⟨rfl, rfl, .inl rfl⟩
  · have hi : i ≠ .hReset := fun hi => microOp_ne_hReset (hi ▸ microOp_of_opSel ho hd)
    obtain ⟨hmsg, hcalls, hlen⟩ := (exec_does he).message_fixed hb hi
    exact ⟨hmsg, hcalls, .inl hlen⟩
  · exact ⟨rfl, rfl, .inl rfl⟩
  · have hi : i ≠ .hReset := fun hi => decode_host_ne_hReset hsel data (hi ▸ hd)
    obtain ⟨hmsg, hcalls, hlen⟩ := (exec_does he).message_fixed hb hi
    exact ⟨hmsg, hcalls, .inl hlen⟩
  · exact ⟨rfl, rfl, .inl rfl⟩
  · exact ⟨rfl, rfl, .inl rfl⟩
  · cases he
    exact ⟨rfl, rfl, .inr ⟨rest, hi, rfl, rfl⟩⟩
  · exact ⟨rfl, rfl, .inl rfl⟩
  · simp [hb] at hidle

/-- Settles O44: `msgByte` reads only the message space and the computation's number. -/
theorem messageAndLengthAreFixedWhileBusy : Obligations.MessageAndLengthAreFixedWhileBusy := by
  intro s t h hb
  obtain ⟨hmsg, hcalls, hlen⟩ := step_message_fixed h hb
  exact ⟨hmsg, fun off => by rw [State.msgByte, State.msgByte, hmsg, hcalls], hlen⟩

end Machine
end Sys2Proof
end

section
/-! PROOFS. The block's own turn as a function (`State.advance`), defined where the counters stand in place and the storage
is there (`State.OnCourse`): there it is what the micro-operation of the control state answers, it stays on course, and it
brings the block exactly one micro-operation nearer to IDLE (`State.stepsLeft`). -/

namespace Sys2Proof.Machine

variable {s t : State} {i : Instr}

/-! ### The guarded operations, as conditions on the state -/

theorem readMsg_bind {off : Nat} (h : off < s.LEN.toNat) (f : Byte → Except Fault State) :
    (s.readMsg off >>= f) = f (s.msgByte off) := by
  rw [State.readMsg, if_pos h]
  rfl

theorem readMsg_bind_error {off : Nat} {f : Byte → Except Fault State}
    (h : off < s.LEN.toNat → f (s.msgByte off) = .error .msgOutOfRange) :
    (s.readMsg off >>= f) = .error .msgOutOfRange := by
  rcases Nat.lt_or_ge off s.LEN.toNat with hoff | hoff
  · rw [readMsg_bind hoff, h hoff]
  · rw [State.readMsg, if_neg (Nat.not_lt.2 hoff)]
    rfl

/-- The word P.WORD is about to write (R133). -/
def State.wordDue (s : State) : Word :=
  messageWord (s.msgByte (4 * s.IDX)) (s.msgByte (4 * s.IDX + 1)) (s.msgByte (4 * s.IDX + 2)) (s.msgByte (4 * s.IDX + 3))

theorem exec_pWord_eq (s : State) : exec .pWord s =
    if 4 * s.IDX + 3 < s.LEN.toNat then outcome (s.storeNext s.wordDue (afterWord s.LEN.toNat))
    else .fault .msgOutOfRange := by
  split
  · rw [exec, execPWord, readMsg_bind (by omega), readMsg_bind (by omega), readMsg_bind (by omega), readMsg_bind ‹_›]
    rfl
  · exact congrArg outcome <| readMsg_bind_error fun _ => readMsg_bind_error fun _ => readMsg_bind_error fun _ =>
      readMsg_bind_error fun h => absurd h ‹_›

theorem exec_pTail1_eq (s : State) : exec .pTail1 s =
    if 4 * s.IDX < s.LEN.toNat then outcome (s.storeNext (tailWord1 (s.msgByte (4 * s.IDX))) afterFill)
    else .fault .msgOutOfRange := by
  split
  · rw [exec, execPTail1, readMsg_bind ‹_›]
  · exact congrArg outcome <| readMsg_bind_error fun h => absurd h ‹_›

theorem exec_pTail2_eq (s : State) : exec .pTail2 s =
    if 4 * s.IDX + 1 < s.LEN.toNat then
      outcome (s.storeNext (tailWord2 (s.msgByte (4 * s.IDX)) (s.msgByte (4 * s.IDX + 1))) afterFill)
    else .fault .msgOutOfRange := by
  split
  · rw [exec, execPTail2, readMsg_bind (by omega), readMsg_bind ‹_›]
  · exact congrArg outcome <| readMsg_bind_error fun _ => readMsg_bind_error fun h => absurd h ‹_›

theorem exec_pTail3_eq (s : State) : exec .pTail3 s =
    if 4 * s.IDX + 2 < s.LEN.toNat then
      outcome (s.storeNext (tailWord3 (s.msgByte (4 * s.IDX)) (s.msgByte (4 * s.IDX + 1)) (s.msgByte (4 * s.IDX + 2)))
        afterFill)
    else .fault .msgOutOfRange := by
  split
  · rw [exec, execPTail3, readMsg_bind (by omega), readMsg_bind (by omega), readMsg_bind ‹_›]
  · exact congrArg outcome <| readMsg_bind_error fun _ => readMsg_bind_error fun _ =>
      readMsg_bind_error fun h => absurd h ‹_›

/-- The sixteen words C.LOAD is about to read (R161). -/
def State.blockDue (s : State) : Vector Word 16 := Vector.ofFn fun j => s.padWord (16 * s.BLK + j)

theorem exec_cLoad_eq (s : State) : exec .cLoad s =
    if s.PVALID = true ∧ 16 * s.BLK + 15 < s.PLEN then .next (s.loadBlock s.blockDue) else .fault .padOutOfRange := by
  simp only [exec, execCLoad, State.readBlock, Bool.and_eq_true, decide_eq_true_eq]
  split <;> rfl

theorem storeNext_of_room (hv : s.PVALID = true) (hi : s.IDX < s.PLEN) (v : Word) (next : Nat → Fsm) :
    outcome (s.storeNext v next) = .next (s.pushPad v (next (s.IDX + 1))) :=
  outcome_eq_next.2 (storeNext_eq_ok.2 ⟨⟨hv, hi⟩, rfl⟩)

theorem round_of_lt (hT : s.T.toNat < 80) (k : Word) (f : Word → Word → Word → Word) :
    outcome (s.round k f) = .next (s.shiftRound (s.roundSum k f)) :=
  outcome_eq_next.2 (round_eq_ok.2 ⟨hT, rfl⟩)

/-! ### On course -/

/-- What a computation needs to go on, and nothing about the contents of the registers and memories: the block count is
`LEN`'s, the storage is there from its grant to its release, and every counter stands where its control state has it. -/
structure State.OnCourse (s : State) : Prop where
  counted : s.FSM ≠ .idle → s.FSM ≠ .count → s.N = blockCount s.LEN.toNat
  room : s.FSM.holdsPad = true → s.PVALID = true ∧ s.PLEN = 16 * s.N
  index : s.indexInPlace
  rounds : s.roundsInPlace

theorem State.Inv.onCourse (h : s.Inv) : s.OnCourse where
  counted := h.counted
  room hf := have hv := h.pvalid.trans hf; ⟨hv, h.plen_held hv⟩
  index := h.index
  rounds := h.rounds

/-- R141: the source's count in closed form. -/
theorem blockCount_eq (len : Nat) : blockCount len = (len + 72) / 64 := by
  unfold blockCount
  split <;> omega

/-- The tail word and the two length words have room behind the message's whole words, and no more than a block's. -/
theorem blockCount_bounds (len : Nat) :
    len / 4 + 3 ≤ 16 * blockCount len ∧ 16 * blockCount len < len / 4 + 3 + 16 := by
  rw [blockCount_eq]
  omega

theorem State.OnCourse.counted_of_holdsPad (h : s.OnCourse) (hf : s.FSM.holdsPad = true) :
    s.N = blockCount s.LEN.toNat :=
  h.counted (fun hidle => by simp [hidle, Fsm.holdsPad] at hf) (fun hcount => by simp [hcount, Fsm.holdsPad] at hf)

theorem State.OnCourse.bounds (h : s.OnCourse) (hf : s.FSM.holdsPad = true) :
    s.LEN.toNat / 4 + 3 ≤ 16 * s.N ∧ 16 * s.N < s.LEN.toNat / 4 + 3 + 16 := by
  rw [h.counted_of_holdsPad hf]
  exact blockCount_bounds _

/-- The control states of the Padder's eight writes. -/
def Fsm.pads : Fsm → Bool
  | .copy | .tail | .zero | .lenhi | .lenlo => true
  | _ => false

theorem Fsm.holdsPad_of_pads {f : Fsm} : f.pads = true → f.holdsPad = true := by
  cases f <;> decide

/-- R64: a word the Padder is about to write is within the allocation. -/
theorem State.OnCourse.writes_within (h : s.OnCourse) (hf : s.FSM.pads = true) : s.PVALID = true ∧ s.IDX < s.PLEN := by
  obtain ⟨hv, hlen⟩ := h.room (Fsm.holdsPad_of_pads hf)
  have hb := h.bounds (Fsm.holdsPad_of_pads hf)
  have hi := h.index
  refine ⟨hv, ?_⟩
  rw [hlen]
  cases hs : s.FSM <;> simp only [hs, Fsm.pads, Bool.false_eq_true] at hf <;>
    simp only [State.indexInPlace, hs] at hi <;> omega

/-- R62: the four bytes P.WORD is about to read are the message's. -/
theorem State.OnCourse.word_below (h : s.OnCourse) (hf : s.FSM = .copy) : 4 * s.IDX + 3 < s.LEN.toNat := by
  have hi := h.index
  simp only [State.indexInPlace, hf] at hi
  omega

/-- R62: in TAIL what is left of the message is `LEN mod 4` bytes. -/
theorem State.OnCourse.tail_left (h : s.OnCourse) (hf : s.FSM = .tail) :
    4 * s.IDX + s.LEN.toNat % 4 = s.LEN.toNat := by
  have hi := h.index
  simp only [State.indexInPlace, hf] at hi
  omega

/-- R64: the block C.LOAD is about to read is within the allocation. -/
theorem State.OnCourse.block_within (h : s.OnCourse) (hf : s.FSM = .load) :
    s.PVALID = true ∧ 16 * s.BLK + 15 < s.PLEN := by
  obtain ⟨hv, hlen⟩ := h.room (by rw [hf]; rfl)
  have hr := h.rounds
  simp only [State.roundsInPlace, hf] at hr
  exact ⟨hv, by omega⟩

theorem State.OnCourse.round_below (h : s.OnCourse) (hf : s.FSM = .round) : s.T.toNat < 80 := by
  have hr := h.rounds
  simp only [State.roundsInPlace, hf] at hr
  omega

/-! ### The block's own turn as a function -/

/-- The marker word due in TAIL, by `LEN mod 4` (R134 to R137). -/
def State.tailDue (s : State) : Word :=
  match s.LEN.toNat % 4 with
  | 0 => tailWord0
  | 1 => tailWord1 (s.msgByte (4 * s.IDX))
  | 2 => tailWord2 (s.msgByte (4 * s.IDX)) (s.msgByte (4 * s.IDX + 1))
  | _ => tailWord3 (s.msgByte (4 * s.IDX)) (s.msgByte (4 * s.IDX + 1)) (s.msgByte (4 * s.IDX + 2))

/-- `temp` of the round due, by `T div 20` (R167 to R170). -/
def State.tempDue (s : State) : Word :=
  match s.T.toNat / 20 with
  | 0 => s.roundSum k0 choose
  | 1 => s.roundSum k1 parity
  | 2 => s.roundSum k2 majority
  | _ => s.roundSum k3 parity

/-- The state after the micro-operation of the control state, where nothing makes it stop; in IDLE nothing is performed. -/
def State.advance (s : State) : State :=
  match s.FSM with
  | .idle => s
  | .count => s.counted (blockCount s.LEN.toNat)
  | .alloc => if s.allocOK (16 * s.N) then s.allocated else s.raiseResourceExhausted
  | .copy => s.pushPad s.wordDue (afterWord s.LEN.toNat (s.IDX + 1))
  | .tail => s.pushPad s.tailDue (afterFill (s.IDX + 1))
  | .zero => s.pushPad 0 (afterFill (s.IDX + 1))
  | .lenhi => s.pushPad (lengthHigh s.LEN) .lenlo
  | .lenlo => s.pushPad (lengthLow s.LEN) .init
  | .init => s.initHash
  | .next => s.goto (if s.BLK < s.N then .load else .release)
  | .load => s.loadBlock s.blockDue
  | .sched => s.putSchedule (scheduleWord s.W s.T.toNat)
  | .round => s.shiftRound s.tempDue
  | .feed => s.feedForward
  | .release => s.releasePad
  | .fail => s.enterResourceExhausted

section
variable (h : s.OnCourse)
include h

theorem State.OnCourse.exec_tail (hf : s.FSM = .tail) (hi : s.microOp = some i) :
    exec i s = .next (s.pushPad s.tailDue (afterFill (s.IDX + 1))) := by
  obtain ⟨hv, hlen⟩ := h.writes_within (by rw [hf]; rfl)
  have hleft := h.tail_left hf
  simp only [State.microOp, hf] at hi
  obtain h4 | h4 | h4 | h4 := lt_four_cases (Nat.mod_lt s.LEN.toNat (by decide : 0 < 4)) <;>
    simp only [h4, Option.some.injEq] at hi <;> subst hi <;> simp only [State.tailDue, h4]
  · exact storeNext_of_room hv hlen _ _
  · rw [exec_pTail1_eq, if_pos (by omega), storeNext_of_room hv hlen]
  · rw [exec_pTail2_eq, if_pos (by omega), storeNext_of_room hv hlen]
  · rw [exec_pTail3_eq, if_pos (by omega), storeNext_of_room hv hlen]

theorem State.OnCourse.exec_round (hf : s.FSM = .round) (hi : s.microOp = some i) :
    exec i s = .next (s.shiftRound s.tempDue) := by
  have hT := h.round_below hf
  simp only [State.microOp, hf] at hi
  obtain h4 | h4 | h4 | h4 := lt_four_cases (show s.T.toNat / 20 < 4 by omega) <;>
    simp only [h4, Option.some.injEq] at hi <;> subst hi <;> simp only [State.tempDue, h4] <;>
    exact round_of_lt hT _ _

/-- On course, no micro-operation stops: it answers the advanced state. -/
theorem State.OnCourse.exec_microOp (hi : s.microOp = some i) : exec i s = .next s.advance := by
  cases hf : s.FSM
  case idle => simp [State.microOp, hf] at hi
  case tail => rw [h.exec_tail hf hi, State.advance, hf]
  case round => rw [h.exec_round hf hi, State.advance, hf]
  all_goals
    simp only [State.microOp, hf, Option.some.injEq] at hi
    subst hi
    simp only [State.advance, hf]
  case copy =>
    obtain ⟨hv, hlen⟩ := h.writes_within (by rw [hf]; rfl)
    rw [exec_pWord_eq, if_pos (h.word_below hf), storeNext_of_room hv hlen]
  case load => rw [exec_cLoad_eq, if_pos (h.block_within hf)]
  case zero | lenhi | lenlo =>
    obtain ⟨hv, hlen⟩ := h.writes_within (by rw [hf]; rfl)
    exact storeNext_of_room hv hlen _ _
  all_goals rfl

/-- On course, the block's turn has a micro-operation, but in IDLE. -/
theorem State.OnCourse.exists_microOp (hf : s.FSM ≠ .idle) : ∃ i, s.microOp = some i := by
  cases hs : s.FSM
  case idle => exact absurd hs hf
  case tail => simp only [State.microOp, hs]; split <;> exact ⟨_, rfl⟩
  case round =>
    have hT := h.round_below hs
    obtain h4 | h4 | h4 | h4 := lt_four_cases (show s.T.toNat / 20 < 4 by omega) <;> simp [State.microOp, hs, h4]
  all_goals simp [State.microOp, hs]

end

theorem State.OnCourse.takeTurn (h : s.OnCourse) (rest : List Turn) : (s.takeTurn rest).OnCourse :=
  ⟨h.counted, h.room, h.index, h.rounds⟩

/-- On course and released from reset, the block's turn advances it. -/
theorem State.OnCourse.step_eq (h : s.OnCourse) (hb : s.blocksTurn) (hr : s.rst = false) :
    step s = .next s.afterTurn.advance := by
  by_cases hf : s.FSM = .idle
  · have hadv : s.afterTurn.advance = s.afterTurn := by simp [State.advance, State.afterTurn, hf]
    rw [step_of_idle hb hf, hadv]
  · obtain ⟨i, hi⟩ := h.exists_microOp hf
    rw [step_of_microOp hb hr hi]
    exact (h.takeTurn _).exec_microOp hi

end Sys2Proof.Machine
end

section
/-! PROOFS. What the block's own turn keeps: the environment, the message, and the course; and how many micro-operations it
still has to go. -/

namespace Sys2Proof.Machine

variable {s : State}

/-! ### What the block's turn leaves alone -/

/-- The environment and the computation's number are not the block's to change, nor is `LEN`. -/
theorem advance_environment (s : State) : s.advance.msg = s.msg ∧ s.advance.LEN = s.LEN ∧ s.advance.alloc = s.alloc ∧
    s.advance.rst = s.rst ∧ s.advance.inbox = s.inbox ∧ s.advance.calls = s.calls := by
  cases hf : s.FSM
  case alloc => simp only [State.advance, hf]; split <;> simp
  all_goals simp [State.advance, hf]

@[simp] theorem advance_LEN (s : State) : s.advance.LEN = s.LEN := (advance_environment s).2.1

@[simp] theorem allocOK_counted (s : State) (n words : Nat) : (s.counted n).allocOK words = s.allocOK words := rfl

theorem State.undisturbed.advance (h : s.undisturbed) : s.advance.undisturbed := by
  obtain ⟨-, -, -, hrst, hinbox, -⟩ := advance_environment s
  exact ⟨hrst.trans h.1, hinbox.trans h.2⟩

/-! ### The course is kept -/

theorem toNat_round_succ {x : BitVec 7} (h : x.toNat < 80) : (x + 1).toNat = x.toNat + 1 := by
  bv_omega

/-- After a word of the fill, control and the new index go together: the length words come last in their block. -/
theorem indexInPlace_pushPad_afterFill (v : Word) (hlow : s.LEN.toNat / 4 ≤ s.IDX) (hroom : s.IDX + 3 ≤ 16 * s.N)
    (hleast : 16 * s.N < s.LEN.toNat / 4 + 3 + 16) : (s.pushPad v (afterFill (s.IDX + 1))).indexInPlace := by
  by_cases h14 : (s.IDX + 1) % 16 = 14 <;>
    simp only [afterFill, h14, if_true, if_false, State.indexInPlace, State.pushPad] <;> omega

theorem State.OnCourse.advance_index (h : s.OnCourse) : s.advance.indexInPlace := by
  have hi := h.index
  cases hf : s.FSM <;> simp only [State.advance, hf]
  case idle => exact hi
  case alloc =>
    split
    · by_cases hq : s.LEN.toNat / 4 > 0 <;>
        simp only [State.indexInPlace, State.allocated, afterAlloc, hq, if_true, if_false]
      omega
    · trivial
  case count | load | fail | release => simp_all [State.indexInPlace]
  all_goals simp only [State.indexInPlace, hf] at hi
  case copy =>
    by_cases hq : s.IDX + 1 = s.LEN.toNat / 4 <;>
      simp only [State.indexInPlace, State.pushPad, afterWord, hq, if_true, if_false]
    omega
  case tail | zero =>
    obtain ⟨hroom, hleast⟩ := h.bounds (by rw [hf]; rfl)
    exact indexInPlace_pushPad_afterFill _ (by omega) (by omega) hleast
  case next =>
    by_cases hb : s.BLK < s.N <;> simpa [State.indexInPlace, State.goto, hb] using hi
  case round =>
    by_cases h80 : s.T.toNat + 1 = 80 <;> by_cases h16 : 16 ≤ s.T.toNat + 1 <;>
      simpa [State.indexInPlace, State.shiftRound, afterRound, h80, h16] using hi
  all_goals exact hi

/-- After a round, control and the new round index go together. -/
theorem roundsInPlace_shiftRound (hblk : s.BLK < s.N) (hT : s.T.toNat < 80) (temp : Word) :
    (s.shiftRound temp).roundsInPlace := by
  have hsucc := toNat_round_succ hT
  by_cases h80 : s.T.toNat + 1 = 80
  · simp [State.roundsInPlace, State.shiftRound, afterRound, h80, hblk]
  · by_cases h16 : 16 ≤ s.T.toNat + 1 <;>
      simp only [State.roundsInPlace, State.shiftRound, afterRound, hsucc, h80, h16, if_true, if_false, true_and] <;>
        omega

theorem State.OnCourse.advance_rounds (h : s.OnCourse) : s.advance.roundsInPlace := by
  have hr := h.rounds
  cases hf : s.FSM <;> simp only [State.advance, hf]
  case idle => exact hr
  all_goals simp only [State.roundsInPlace, hf] at hr
  case alloc =>
    split
    · by_cases hq : s.LEN.toNat / 4 > 0 <;> simp [State.roundsInPlace, State.allocated, afterAlloc, hq]
    · trivial
  case copy =>
    by_cases hq : s.IDX + 1 = s.LEN.toNat / 4 <;> simp [State.roundsInPlace, State.pushPad, afterWord, hq]
  case tail | zero =>
    by_cases h14 : (s.IDX + 1) % 16 = 14 <;> simp [State.roundsInPlace, State.pushPad, afterFill, h14]
  case next =>
    by_cases hb : s.BLK < s.N <;> simp only [State.roundsInPlace, State.goto, hb, if_true, if_false]
    omega
  case init => exact Nat.zero_le _
  case load => exact ⟨hr, by simp⟩
  case sched => exact ⟨hr.1, hr.2.2⟩
  case round => exact roundsInPlace_shiftRound hr.1 (by omega) _
  case feed => exact hr.1
  all_goals trivial

theorem advance_N (hf : s.FSM ≠ .count) : s.advance.N = s.N := by
  cases hs : s.FSM
  case count => exact absurd hs hf
  case alloc => simp only [State.advance, hs]; split <;> rfl
  all_goals simp [State.advance, hs]

/-- R25: the count P.COUNT stores stays to the end of the computation. -/
theorem State.OnCourse.advance_counted (h : s.OnCourse) (hf : s.FSM ≠ .idle) :
    s.advance.N = blockCount s.LEN.toNat := by
  by_cases hc : s.FSM = .count
  · simp [State.advance, hc]
  · rw [advance_N hc, h.counted hf hc]

/-- Where the storage is held after the block's turn: it has just been granted, or it was held and nothing releases it. -/
theorem advance_room (hf : s.advance.FSM.holdsPad = true) :
    (s.FSM = .alloc ∧ s.advance = s.allocated) ∨
    (s.FSM.holdsPad = true ∧ s.advance.PVALID = s.PVALID ∧ s.advance.PLEN = s.PLEN ∧ s.advance.N = s.N) := by
  cases hs : s.FSM
  case alloc =>
    simp only [State.advance, hs] at hf ⊢
    split at hf
    · exact .inl ⟨trivial, if_pos ‹_›⟩
    · cases hf
  case idle | count | fail | release => simp [State.advance, hs, Fsm.holdsPad] at hf
  all_goals simp [State.advance, hs, Fsm.holdsPad]

/-- The block's own turn keeps the course. -/
theorem State.OnCourse.advance (h : s.OnCourse) : s.advance.OnCourse where
  counted hidle _ := by
    rw [advance_LEN]
    exact h.advance_counted fun hf => hidle (by simp [State.advance, hf])
  room hf := by
    obtain ⟨-, heq⟩ | ⟨hheld, hv, hlen, hn⟩ := advance_room hf
    · simp [heq]
    · rw [hv, hlen, hn]
      exact h.room hheld
  index := h.advance_index
  rounds := h.advance_rounds

theorem State.OnCourse.iterate (h : s.OnCourse) (n : Nat) : (State.advance^[n] s).OnCourse := by
  induction n generalizing s with
  | zero => exact h
  | succ n ih => exact ih h.advance

theorem State.undisturbed.iterate (h : s.undisturbed) (n : Nat) : (State.advance^[n] s).undisturbed := by
  induction n generalizing s with
  | zero => exact h
  | succ n ih => exact ih h.advance

/-- Left undisturbed, a block on course does nothing but its own turns. -/
theorem run_undisturbed (h : s.OnCourse) (hu : s.undisturbed) (n : Nat) :
    Host.Core.run core n s = .next (State.advance^[n] s) := by
  induction n generalizing s with
  | zero => rfl
  | succ n ih =>
    have hstep : core.step s = .next s.advance := by
      have := h.step_eq (.inl hu.2) hu.1
      rwa [afterTurn_nil hu.2] at this
    simp only [Host.Core.run, hstep]
    exact ih h.advance hu.advance

/-! ### How far it is to IDLE -/

/-- Micro-operations left in the rounds of a block when round `t` is due, C.FEED included: the rounds `t` to 79, and the
expansions before the later ones (R173). -/
def roundsLeft (t : Nat) : Nat := (80 - t) + (80 - max (t + 1) 16) + 1

/-- The number of micro-operations from here back to IDLE, if nothing disturbs the block (R190, R196). -/
def State.stepsLeft (s : State) : Nat :=
  match s.FSM with
  | .idle => 0
  | .count => if s.allocOK (16 * blockCount s.LEN.toNat) then 163 * blockCount s.LEN.toNat + 5 else 3
  | .alloc => if s.allocOK (16 * s.N) then 163 * s.N + 4 else 2
  | .copy | .tail | .zero | .lenhi | .lenlo => (16 * s.N - s.IDX) + 147 * s.N + 3
  | .init => 147 * s.N + 3
  | .next => 147 * (s.N - s.BLK) + 2
  | .load => 147 * (s.N - s.BLK) + 1
  | .sched => 147 * (s.N - s.BLK - 1) + 2 + roundsLeft s.T.toNat + 1
  | .round => 147 * (s.N - s.BLK - 1) + 2 + roundsLeft s.T.toNat
  | .feed => 147 * (s.N - s.BLK - 1) + 2 + 1
  | .release | .fail => 1

theorem stepsLeft_eq_zero_iff : s.stepsLeft = 0 ↔ s.FSM = .idle := by
  cases hf : s.FSM
  case count | alloc => simp only [State.stepsLeft, hf, reduceCtorEq, iff_false]; split <;> omega
  all_goals simp [State.stepsLeft, hf]

/-- Every micro-operation brings the block one nearer to IDLE. -/
theorem State.OnCourse.stepsLeft_advance (h : s.OnCourse) (hidle : s.FSM ≠ .idle) :
    s.advance.stepsLeft + 1 = s.stepsLeft := by
  have hi := h.index
  have hr := h.rounds
  cases hf : s.FSM <;> simp only [State.indexInPlace, State.roundsInPlace, hf] at hi hr
  case idle => exact absurd hf hidle
  case copy =>
    have hb := h.bounds (by rw [hf]; rfl)
    by_cases hq : s.IDX + 1 = s.LEN.toNat / 4 <;>
      simp only [State.advance, State.stepsLeft, hf, State.pushPad, afterWord, hq, if_true, if_false] <;> omega
  case tail | zero =>
    have hb := h.bounds (by rw [hf]; rfl)
    by_cases h14 : (s.IDX + 1) % 16 = 14 <;>
      simp only [State.advance, State.stepsLeft, hf, State.pushPad, afterFill, h14, if_true, if_false] <;> omega
  case round =>
    have hsucc := toNat_round_succ (h.round_below hf)
    by_cases h80 : s.T.toNat + 1 = 80
    · simp only [State.advance, State.stepsLeft, hf, State.shiftRound, afterRound, h80, if_true, roundsLeft]
      omega
    · by_cases h16 : 16 ≤ s.T.toNat + 1 <;>
        simp only [State.advance, State.stepsLeft, hf, State.shiftRound, afterRound, h80, h16, if_true, if_false,
          roundsLeft, hsucc] <;> omega
  case count =>
    simp only [State.advance, State.stepsLeft, hf, State.counted_FSM, State.counted_N, allocOK_counted]
    split <;> omega
  case alloc =>
    by_cases hok : s.allocOK (16 * s.N) = true
    · by_cases hq : s.LEN.toNat / 4 > 0 <;>
        simp only [State.advance, State.stepsLeft, hf, hok, State.allocated, afterAlloc, hq, if_true, if_false] <;> omega
    · simp [State.advance, State.stepsLeft, hf, hok]
  case next =>
    by_cases hb : s.BLK < s.N <;> simp [State.advance, State.stepsLeft, hf, hb]
    omega
  case load =>
    simp [State.advance, State.stepsLeft, hf, roundsLeft]
    omega
  case lenhi | lenlo | feed =>
    simp [State.advance, State.stepsLeft, hf]
    omega
  case init | sched | release | fail => simp [State.advance, State.stepsLeft, hf]

theorem State.OnCourse.stepsLeft_iterate (h : s.OnCourse) (n : Nat) :
    (State.advance^[n] s).stepsLeft = s.stepsLeft - n := by
  induction n generalizing s with
  | zero => rfl
  | succ n ih =>
    rw [Function.iterate_succ_apply, ih h.advance]
    by_cases hidle : s.FSM = .idle
    · rw [stepsLeft_eq_zero_iff.2 hidle, stepsLeft_eq_zero_iff.2 (by simp [State.advance, hidle])]
      omega
    · have := h.stepsLeft_advance hidle
      omega

end Sys2Proof.Machine
end

section
/-! PROOFS. The control invariant (`State.Inv`), taken apart into the flags, the padded sequence and the course, each kept by
the block's own turn; then every agent's step keeps it, a sound state never stops, and its accesses are defined. -/

namespace Sys2Proof.Machine

variable {s t : State}

/-- The invariant's clauses about the status flags (R37, R42). -/
structure State.FlagsSound (s : State) : Prop where
  busy : s.BUSY = true ↔ s.FSM ≠ .idle
  busy_clears : s.BUSY = true → s.DONE = false ∧ s.ERR = false
  done_or_err : ¬(s.DONE = true ∧ s.ERR = true)
  code_err : s.ERR = true → s.ERRCODE = resourceExhaustedCode
  code_none : s.ERR = false → s.ERRCODE = 0

/-- The invariant's clauses about the padded sequence (R24, R35, R143, R195). -/
structure State.PadSound (s : State) : Prop where
  pvalid : s.PVALID = s.FSM.holdsPad
  plen_held : s.PVALID = true → s.PLEN = 16 * s.N
  plen_free : s.PVALID = false → s.PLEN = 0
  written : ∀ i, (Memory.read s.P i).isSome = true ↔ s.PVALID = true ∧ i < s.IDX
  pad_wf : Memory.wf s.P

/-- The invariant's clause about the Hash (R35, R45). -/
def State.HashSound (s : State) : Prop := s.FSM.hashing = true ∨ s.DONE = true → s.hashWritten = true

theorem inv_iff :
    s.Inv ↔ s.FlagsSound ∧ s.PadSound ∧ s.OnCourse ∧ s.HashSound ∧ Memory.wf s.msg := by
  constructor
  · exact fun h => ⟨⟨h.busy, h.busy_clears, h.done_or_err, h.code_err, h.code_none⟩,
      ⟨h.pvalid, h.plen_held, h.plen_free, h.written, h.pad_wf⟩, h.onCourse, h.hash, h.msg_wf⟩
  · rintro ⟨hf, hp, hc, hh, hm⟩
    exact ⟨hf.busy, hf.busy_clears, hf.done_or_err, hf.code_err, hf.code_none, hp.pvalid, hp.plen_held, hp.plen_free,
      hc.counted, hc.index, hc.rounds, hp.written, hp.pad_wf, hm, hh⟩

/-! ### The block's own turn -/

@[simp] theorem holdsPad_afterAlloc (len : Nat) : (afterAlloc len).holdsPad = true := by
  unfold afterAlloc; split <;> rfl

@[simp] theorem holdsPad_afterWord (len idx : Nat) : (afterWord len idx).holdsPad = true := by
  unfold afterWord; split <;> rfl

@[simp] theorem holdsPad_afterFill (idx : Nat) : (afterFill idx).holdsPad = true := by
  unfold afterFill; split <;> rfl

@[simp] theorem holdsPad_afterRound (n : Nat) : (afterRound n).holdsPad = true := by
  unfold afterRound; split_ifs <;> rfl

@[simp] theorem hashing_afterAlloc (len : Nat) : (afterAlloc len).hashing = false := by
  unfold afterAlloc; split <;> rfl

@[simp] theorem hashing_afterWord (len idx : Nat) : (afterWord len idx).hashing = false := by
  unfold afterWord; split <;> rfl

@[simp] theorem hashing_afterFill (idx : Nat) : (afterFill idx).hashing = false := by
  unfold afterFill; split <;> rfl

@[simp] theorem hashing_afterRound (n : Nat) : (afterRound n).hashing = true := by
  unfold afterRound; split_ifs <;> rfl

/-- While the storage is held the block stays out of IDLE. -/
theorem Fsm.ne_idle_of_holdsPad {f : Fsm} (h : f.holdsPad = true) : f ≠ .idle := by
  rintro rfl
  cases h

/-- The storage, once held, stays held to O.RELEASE (R195). -/
theorem holdsPad_advance (h : s.FSM.holdsPad = true) (hr : s.FSM ≠ .release) : s.advance.FSM.holdsPad = true := by
  cases hs : s.FSM
  case idle | count | alloc | fail => simp [hs, Fsm.holdsPad] at h
  case release => exact absurd hs hr
  case next => simp only [State.advance, hs, State.goto]; split <;> rfl
  case copy | tail | zero | round => simp [State.advance, hs]
  all_goals simp [State.advance, hs, Fsm.holdsPad]

/-- Only at the end of a computation does the block write a flag (R194, R233); before it the block stays out of IDLE. -/
theorem advance_flags (hi : s.FSM ≠ .idle) (hr : s.FSM ≠ .release) (hf : s.FSM ≠ .fail) :
    s.advance.FSM ≠ .idle ∧
      s.advance.BUSY = s.BUSY ∧ s.advance.DONE = s.DONE ∧ s.advance.ERR = s.ERR ∧ s.advance.ERRCODE = s.ERRCODE := by
  cases hs : s.FSM
  case idle => exact absurd hs hi
  case release => exact absurd hs hr
  case fail => exact absurd hs hf
  case count => simp [State.advance, hs]
  case alloc =>
    simp only [State.advance, hs]
    split
    · simp [Fsm.ne_idle_of_holdsPad]
    · simp
  all_goals
    refine ⟨Fsm.ne_idle_of_holdsPad (holdsPad_advance ?_ hr), ?_⟩ <;> simp [State.advance, hs, Fsm.holdsPad]

theorem State.FlagsSound.of_same (h : s.FlagsSound) (hf : t.FSM = .idle ↔ s.FSM = .idle)
    (hsame : t.BUSY = s.BUSY ∧ t.DONE = s.DONE ∧ t.ERR = s.ERR ∧ t.ERRCODE = s.ERRCODE) : t.FlagsSound := by
  obtain ⟨hb, hd, he, hc⟩ := hsame
  constructor <;> simp only [hb, hd, he, hc, ne_eq, hf]
  exacts [h.busy, h.busy_clears, h.done_or_err, h.code_err, h.code_none]

theorem State.FlagsSound.advance (h : s.FlagsSound) : s.advance.FlagsSound := by
  by_cases hi : s.FSM = .idle
  · simpa [State.advance, hi] using h
  obtain ⟨hdone, herr⟩ := h.busy_clears (h.busy.2 hi)
  have hcode := h.code_none herr
  by_cases hr : s.FSM = .release
  · constructor <;> simp [State.advance, hr, herr, hcode]
  by_cases hf : s.FSM = .fail
  · constructor <;> simp [State.advance, hf, hdone]
  obtain ⟨hidle, hsame⟩ := advance_flags hi hr hf
  exact h.of_same (iff_of_false hidle hi) hsame

theorem State.PadSound.of_same (h : s.PadSound) (hf : t.FSM.holdsPad = s.FSM.holdsPad) (hn : t.N = s.N)
    (hsame : t.PVALID = s.PVALID ∧ t.PLEN = s.PLEN ∧ t.IDX = s.IDX ∧ t.P = s.P) : t.PadSound := by
  obtain ⟨hv, hlen, hidx, hp⟩ := hsame
  constructor <;> simp only [hf, hn, hv, hlen, hidx, hp]
  exacts [h.pvalid, h.plen_held, h.plen_free, h.written, h.pad_wf]

/-- A write at `IDX` keeps the written words those below `IDX`. -/
theorem State.PadSound.pushPad (h : s.PadSound) (hs : s.FSM.holdsPad = true) (v : Word) {f : Fsm}
    (hf : f.holdsPad = true) : (s.pushPad v f).PadSound where
  pvalid := by simp [h.pvalid, hs, hf]
  plen_held := h.plen_held
  plen_free := h.plen_free
  written i := by
    have hv : s.PVALID = true := h.pvalid.trans hs
    have hw := h.written i
    simp only [State.pushPad_P, State.pushPad_PVALID, State.pushPad_IDX, Memory.read_write, hv, true_and] at hw ⊢
    split
    · simp; omega
    · rw [hw]; omega
  pad_wf := State.pushPad_wf h.pad_wf v f

theorem State.PadSound.advance (h : s.PadSound) : s.advance.PadSound := by
  cases hf : s.FSM <;> simp only [State.advance, hf]
  case idle => exact h
  case count =>
    have hv : s.PVALID = false := by rw [h.pvalid, hf]; rfl
    exact ⟨hv, by simp [hv], h.plen_free, h.written, h.pad_wf⟩
  case alloc =>
    split
    · exact ⟨by simp, by simp, by simp, by simp, State.allocated_wf s⟩
    · exact h.of_same (by simp [hf, Fsm.holdsPad]) rfl ⟨rfl, rfl, rfl, rfl⟩
  case copy | tail | zero => exact h.pushPad (by rw [hf]; rfl) _ (by simp)
  case lenhi | lenlo => exact h.pushPad (by rw [hf]; rfl) _ rfl
  case release => exact ⟨rfl, by simp, by simp, by simp, State.releasePad_wf s⟩
  case fail => exact h.of_same (by simp [hf, Fsm.holdsPad]) rfl ⟨rfl, rfl, rfl, rfl⟩
  case next => exact h.of_same (by rw [hf, State.goto]; split <;> rfl) rfl ⟨rfl, rfl, rfl, rfl⟩
  case round => exact h.of_same (by rw [hf]; exact holdsPad_afterRound _) rfl ⟨rfl, rfl, rfl, rfl⟩
  all_goals exact h.of_same (by rw [hf]; rfl) rfl ⟨rfl, rfl, rfl, rfl⟩

theorem State.HashSound.advance (h : s.HashSound) : s.advance.HashSound := by
  cases hf : s.FSM <;> simp only [State.advance, hf]
  case idle => exact h
  case init => exact fun _ => rfl
  case next | load | sched | round | feed | release => exact fun _ => h (.inl (by rw [hf]; rfl))
  case alloc =>
    split
    · exact fun hd => h (.inr (by simpa using hd))
    · exact fun hd => h (.inr (by simpa [Fsm.hashing] using hd))
  case copy | tail | zero => exact fun hd => h (.inr (by simpa using hd))
  case count | lenhi | lenlo | fail => exact fun hd => h (.inr (by simpa [Fsm.hashing] using hd))

/-- The block's own turn keeps the control invariant. -/
theorem State.Inv.advance (h : s.Inv) : s.advance.Inv := by
  obtain ⟨hflags, hpad, hcourse, hhash, hmsg⟩ := inv_iff.1 h
  exact inv_iff.2 ⟨hflags.advance, hpad.advance, hcourse.advance, hhash.advance, (advance_environment s).1 ▸ hmsg⟩

/-! ### The other agents' turns -/

/-- The invariant speaks of neither the turns, the reset input, what a read returned, nor the model's own counts. -/
theorem State.Inv.of_environment (h : s.Inv) (inbox : List Turn) (rst : Bool) (rdata : Word) (draws : Nat) :
    ({ s with inbox, rst, rdata, draws } : State).Inv := by
  obtain ⟨hflags, hpad, hcourse, hhash, hmsg⟩ := inv_iff.1 h
  exact inv_iff.2 ⟨hflags.of_same Iff.rfl ⟨rfl, rfl, rfl, rfl⟩, hpad.of_same rfl rfl ⟨rfl, rfl, rfl, rfl⟩,
    ⟨hcourse.counted, hcourse.room, hcourse.index, hcourse.rounds⟩, hhash, hmsg⟩

theorem State.Inv.idle (h : s.Inv) (hb : s.BUSY = false) : s.FSM = .idle := by
  by_contra hf
  rw [h.busy.2 hf] at hb
  cases hb

theorem onCourse_of_count (h : s.FSM = .count) : s.OnCourse := by
  constructor <;> simp [h, Fsm.holdsPad, State.indexInPlace, State.roundsInPlace]

theorem onCourse_of_idle (h : s.FSM = .idle) : s.OnCourse := by
  constructor <;> simp [h, Fsm.holdsPad, State.indexInPlace, State.roundsInPlace]

theorem State.FlagsSound.acceptStart (s : State) : s.acceptStart.FlagsSound := by
  constructor <;> simp

theorem State.Inv.acceptStart (h : s.Inv) (hb : s.BUSY = false) : s.acceptStart.Inv := by
  obtain ⟨-, hpad, -, hhash, hmsg⟩ := inv_iff.1 h
  have hf := h.idle hb
  refine inv_iff.2 ⟨.acceptStart s, hpad.of_same (by simp [hf, Fsm.holdsPad]) rfl ⟨rfl, rfl, rfl, rfl⟩,
    onCourse_of_count rfl, ?_, hmsg⟩
  simp [State.HashSound, Fsm.hashing]

theorem State.Inv.setLen (h : s.Inv) (hb : s.BUSY = false) (len : BitVec 61) : (s.setLen len).Inv := by
  obtain ⟨hflags, hpad, -, hhash, hmsg⟩ := inv_iff.1 h
  have hf := h.idle hb
  exact inv_iff.2 ⟨hflags.of_same Iff.rfl ⟨rfl, rfl, rfl, rfl⟩, hpad.of_same rfl rfl ⟨rfl, rfl, rfl, rfl⟩,
    onCourse_of_idle hf, hhash, hmsg⟩

theorem State.Inv.hardReset (h : Memory.wf s.msg) : s.hardReset.Inv := by
  refine inv_iff.2 ⟨by constructor <;> simp, ⟨rfl, by simp, by simp, by simp, State.hardReset_wf s⟩,
    onCourse_of_idle rfl, ?_, h⟩
  simp [State.HashSound, Fsm.hashing]

theorem State.Inv.placeMessage (h : s.Inv) (bytes : List Byte) : (s.placeMessage bytes).Inv := by
  obtain ⟨hflags, hpad, hcourse, hhash, -⟩ := inv_iff.1 h
  exact inv_iff.2 ⟨hflags.of_same Iff.rfl ⟨rfl, rfl, rfl, rfl⟩, hpad.of_same rfl rfl ⟨rfl, rfl, rfl, rfl⟩,
    ⟨hcourse.counted, hcourse.room, hcourse.index, hcourse.rounds⟩, hhash, State.placeMessage_wf s bytes⟩

theorem State.Inv.host (h : s.Inv) {i : Instr} (hi : i.isHost = true) (he : exec i s = .next t) : t.Inv := by
  obtain rfl | ⟨v, rfl⟩ | ⟨k, rfl⟩ | ⟨hb, rfl | ⟨len, rfl⟩⟩ := (exec_does he).host_cases hi
  · exact h
  · exact h.of_environment s.inbox s.rst v s.draws
  · exact h.of_environment s.inbox s.rst _ _
  · exact h.acceptStart hb
  · exact h.setLen hb len

theorem State.Inv.takeTurn (h : s.Inv) (rest : List Turn) : (s.takeTurn rest).Inv :=
  h.of_environment rest s.rst s.rdata s.draws

/-- Settles O52: each agent's turn keeps the invariant, the block's as `State.advance` on course. -/
theorem everyStepKeepsTheControlInvariant : Obligations.EveryStepKeepsTheControlInvariant := by
  intro s t h hstep
  rcases step_cases hstep with ⟨-, -, rfl⟩ | ⟨hb, hr, -⟩ | ⟨_, _, rest, -, -, rfl⟩ |
    ⟨_, _, rest, i, -, -, hd, he⟩ | ⟨_, _, rest, -, -, -, rfl⟩ | ⟨_, _, rest, -, -, -, rfl⟩ | ⟨rest, -, he⟩ |
    ⟨rest, -, rfl⟩ | ⟨bytes, rest, -, -, rfl⟩
  · exact h.takeTurn _
  · rw [h.onCourse.step_eq hb hr] at hstep
    cases hstep
    exact (h.takeTurn _).advance
  · exact h.takeTurn rest
  · exact (h.takeTurn rest).host (isHost_of_decode_host hd) he
  · exact h.of_environment rest s.rst 0 s.draws
  · exact h.takeTurn rest
  · cases he
    exact State.Inv.hardReset h.msg_wf
  · exact h.of_environment rest false s.rdata s.draws
  · exact (h.takeTurn rest).placeMessage bytes

/-! ### Progress and defined accesses -/

/-- Every access of the host's is performed to a next state, those without a row too (R106). -/
theorem perform_select_host (hsel : BitVec 5) (data : Word) (s : State) :
    ∃ t, (select (.host hsel data) s).perform = .next t := by
  unfold select
  cases hd : decode (.host hsel data) with
  | ok i => exact exec_host_next (isHost_of_decode_host hd) s
  | error e => obtain rfl | rfl := decode_host_error hd <;> exact ⟨_, rfl⟩

theorem exists_step_access {hsel : BitVec 5} {data : Word} {rest : List Turn}
    (hi : s.inbox = .access hsel data :: rest) : ∃ t, step s = .next t := by
  simp only [step_eq_perform, fetch, hi, accessTurn]
  split
  · exact ⟨_, rfl⟩
  · exact perform_select_host hsel data _

/-- Settles O55: on course the block's turn answers the advanced state, and no other agent's turn stops but the placing of a
message while `BUSY = 1`. -/
theorem soundStatesNeverStop : Obligations.SoundStatesNeverStop := by
  constructor
  · intro s h hduty
    have block : s.blocksTurn → ∃ t, step s = .next t := by
      intro hb
      cases hr : s.rst with
      | true => exact ⟨_, step_of_rst hb hr⟩
      | false => exact ⟨_, h.onCourse.step_eq hb hr⟩
    cases hi : s.inbox with
    | nil => exact block (.inl hi)
    | cons turn rest =>
      cases turn with
      | block => exact block (.inr ⟨rest, hi⟩)
      | access hsel data => exact exists_step_access hi
      | pin level =>
        simp only [step_eq_perform, fetch, hi]
        cases level <;> exact ⟨_, rfl⟩
      | message bytes =>
        have hb : s.BUSY ≠ true := fun hb => hduty hb bytes rest hi
        exact ⟨_, by simp [step_eq_perform, fetch, hi, messageTurn, hb]; rfl⟩
  · intro s bytes rest hb hi
    rw [step_eq_perform, fetch, hi]
    simp [messageTurn, hb, Fetched.perform]

/-- Settles O45: the bounds are the course's, and the words written are those below `IDX`. -/
theorem accessesAreDefinedAndWordsWrittenOnce : Obligations.AccessesAreDefinedAndWordsWrittenOnce := by
  intro s h
  refine ⟨fun hf => ?_, h.onCourse.word_below, h.onCourse.tail_left, fun hf j hj => ?_⟩
  · have hpads : s.FSM.pads = true := by
      simp only [List.mem_cons, List.not_mem_nil, or_false] at hf
      rcases hf with hf | hf | hf | hf | hf <;> rw [hf] <;> rfl
    obtain ⟨hv, hidx⟩ := h.onCourse.writes_within hpads
    refine ⟨hv, hidx, ?_, fun i hi => (h.written i).2 ⟨hv, hi⟩⟩
    have hnone : ¬(Memory.read s.P s.IDX).isSome = true := fun hsome => Nat.lt_irrefl _ ((h.written s.IDX).1 hsome).2
    simpa using hnone
  · obtain ⟨hv, hblk⟩ := h.onCourse.block_within hf
    have hidx : s.IDX = 16 * s.N := by simpa [State.indexInPlace, hf] using h.index
    have hlt : s.BLK < s.N := by simpa [State.roundsInPlace, hf] using h.rounds
    exact ⟨hv, by omega, (h.written _).2 ⟨hv, by omega⟩⟩

end Sys2Proof.Machine
end

section
/-! PROOFS. Noninterference (`10_state.md` R34, R48): two states that differ in data words only, or in hidden state only, go
side by side. A pair of states in either relation is one state with some fields replaced, so that whatever an operation reads
of the other fields is the same on both sides by computation. -/

namespace Sys2Proof.Machine

variable {s u t v : State} {i : Instr}

/-- The two outcomes stop alike, or go on to related states. -/
inductive OutcomesAgree (R : State → State → Prop) :
    Host.Outcome State Fault Refusal → Host.Outcome State Fault Refusal → Prop
  | next {t v : State} (h : R t v) : OutcomesAgree R (.next t) (.next v)
  | fault (f : Fault) : OutcomesAgree R (.fault f) (.fault f)
  | refused (r : Refusal) : OutcomesAgree R (.refused r) (.refused r)

theorem OutcomesAgree.of_next {R : State → State → Prop} {o : Host.Outcome State Fault Refusal}
    (h : OutcomesAgree R (.next t) o) : ∃ v, o = .next v ∧ R t v := by
  cases h with
  | next h => exact ⟨_, rfl, h⟩

theorem OutcomesAgree.of_fault {R : State → State → Prop} {o : Host.Outcome State Fault Refusal} {f : Fault}
    (h : OutcomesAgree R (.fault f) o) : o = .fault f := by
  cases h
  rfl

theorem OutcomesAgree.of_refused {R : State → State → Prop} {o : Host.Outcome State Fault Refusal} {r : Refusal}
    (h : OutcomesAgree R (.refused r) o) : o = .refused r := by
  cases h
  rfl

theorem rel_ite {α β : Type} {R : α → β → Prop} {p q : Prop} [Decidable p] [Decidable q] {a c : α} {b d : β}
    (hpq : p ↔ q) (hp : R a b) (hn : R c d) : R (if p then a else c) (if q then b else d) := by
  by_cases h : p
  · rwa [if_pos h, if_pos (hpq.1 h)]
  · rwa [if_neg h, if_neg (mt hpq.2 h)]

/-! ### States that differ in data words only -/

theorem sameControl_iff : s.SameControl u ↔ ∃ H A B C D E W P msg rdata,
    u = { s with H := H, A := A, B := B, C := C, D := D, E := E, W := W, P := P, msg := msg, rdata := rdata } := by
  constructor
  · exact fun h => ⟨_, _, _, _, _, _, _, _, _, _, h⟩
  · rintro ⟨_, _, _, _, _, _, _, _, _, _, rfl⟩
    rfl

/-- Two states that agree on `padRoom` store side by side, and stop alike. -/
theorem storeNext_sameControl (h : s.SameControl u) (x y : Word) (next : Nat → Fsm) :
    OutcomesAgree State.SameControl (outcome (s.storeNext x next)) (outcome (u.storeNext y next)) := by
  obtain ⟨H, A, B, C, D, E, W, P, msg, rdata, rfl⟩ := sameControl_iff.1 h
  exact rel_ite (R := fun a b => OutcomesAgree _ (outcome a) (outcome b)) Iff.rfl (.next rfl) (.fault _)

theorem round_sameControl (h : s.SameControl u) (k : Word) (f : Word → Word → Word → Word) :
    OutcomesAgree State.SameControl (outcome (s.round k f)) (outcome (u.round k f)) := by
  obtain ⟨H, A, B, C, D, E, W, P, msg, rdata, rfl⟩ := sameControl_iff.1 h
  exact rel_ite (R := fun a b => OutcomesAgree _ (outcome a) (outcome b)) Iff.rfl (.next rfl) (.fault _)

/-- R34, of every instruction: what it does to the control does not depend on the data words. -/
theorem exec_sameControl (h : s.SameControl u) (i : Instr) :
    OutcomesAgree State.SameControl (exec i s) (exec i u) := by
  have hu := h
  obtain ⟨H, A, B, C, D, E, W, P, msg, rdata, rfl⟩ := sameControl_iff.1 h
  cases i
  case pAlloc => exact .next (rel_ite Iff.rfl rfl rfl)
  case pWord =>
    rw [exec_pWord_eq, exec_pWord_eq]
    exact rel_ite Iff.rfl (storeNext_sameControl hu _ _ _) (.fault _)
  case pTail1 =>
    rw [exec_pTail1_eq, exec_pTail1_eq]
    exact rel_ite Iff.rfl (storeNext_sameControl hu _ _ _) (.fault _)
  case pTail2 =>
    rw [exec_pTail2_eq, exec_pTail2_eq]
    exact rel_ite Iff.rfl (storeNext_sameControl hu _ _ _) (.fault _)
  case pTail3 =>
    rw [exec_pTail3_eq, exec_pTail3_eq]
    exact rel_ite Iff.rfl (storeNext_sameControl hu _ _ _) (.fault _)
  case pTail0 | pZero | pLenhi | pLenlo => exact storeNext_sameControl hu _ _ _
  case cLoad =>
    rw [exec_cLoad_eq, exec_cLoad_eq]
    exact rel_ite Iff.rfl (.next rfl) (.fault _)
  case cRound0 | cRound1 | cRound2 | cRound3 => exact round_sameControl hu _ _
  case hRddigest0 | hRddigest1 | hRddigest2 | hRddigest3 | hRddigest4 => exact .next (rel_ite Iff.rfl rfl rfl)
  case hStart | hWrlenLo | hWrlenHi => exact .next (rel_ite Iff.rfl rfl rfl)
  all_goals exact .next rfl

theorem select_sameControl (h : s.SameControl u) (sel : Selector) :
    OutcomesAgree State.SameControl (select sel s).perform (select sel u).perform := by
  obtain ⟨H, A, B, C, D, E, W, P, msg, rdata, rfl⟩ := sameControl_iff.1 h
  unfold select
  cases decode sel with
  | ok i => exact exec_sameControl h i
  | error e =>
    cases e with
    | unreachableSelector => exact .refused _
    | reservedRead | idle | ignoredWrite | resetReleased => exact .next rfl

theorem blockTurn_sameControl (h : s.SameControl u) :
    OutcomesAgree State.SameControl (blockTurn s).perform (blockTurn u).perform := by
  obtain ⟨hrst, hop⟩ : u.rst = s.rst ∧ opSel u = opSel s := by
    obtain ⟨H, A, B, C, D, E, W, P, msg, rdata, rfl⟩ := sameControl_iff.1 h
    exact ⟨rfl, rfl⟩
  cases hr : s.rst with
  | true =>
    rw [blockTurn_of_rst hr, blockTurn_of_rst (hrst.trans hr)]
    exact .next h
  | false =>
    cases ho : opSel s with
    | none =>
      rw [blockTurn_of_noSelector hr ho, blockTurn_of_noSelector (hrst.trans hr) (hop.trans ho)]
      exact .refused _
    | some op =>
      rw [blockTurn_of_opSel hr ho, blockTurn_of_opSel (hrst.trans hr) (hop.trans ho)]
      exact select_sameControl h (.uop op)

theorem State.SameControl.takeTurn (h : s.SameControl u) (rest : List Turn) :
    (s.takeTurn rest).SameControl (u.takeTurn rest) := by
  obtain ⟨H, A, B, C, D, E, W, P, msg, rdata, rfl⟩ := sameControl_iff.1 h
  rfl

theorem accessTurn_sameControl (h : s.SameControl u) (hsel : BitVec 5) (data : Word) :
    OutcomesAgree State.SameControl (accessTurn hsel data s).perform (accessTurn hsel data u).perform := by
  have hsel' := select_sameControl h (.host hsel data)
  obtain ⟨H, A, B, C, D, E, W, P, msg, rdata, rfl⟩ := sameControl_iff.1 h
  exact rel_ite (R := fun (a b : Fetched) => OutcomesAgree _ a.perform b.perform) Iff.rfl (.next rfl) hsel'

theorem pinTurn_sameControl (h : s.SameControl u) (level : Bool) :
    OutcomesAgree State.SameControl (pinTurn level s).perform (pinTurn level u).perform := by
  refine select_sameControl (?_ : (s.setPin level).SameControl (u.setPin level)) (.pin level)
  obtain ⟨H, A, B, C, D, E, W, P, msg, rdata, rfl⟩ := sameControl_iff.1 h
  rfl

theorem messageTurn_sameControl (h : s.SameControl u) (bytes : List Byte) :
    OutcomesAgree State.SameControl (messageTurn bytes s).perform (messageTurn bytes u).perform := by
  obtain ⟨H, A, B, C, D, E, W, P, msg, rdata, rfl⟩ := sameControl_iff.1 h
  exact rel_ite (R := fun (a b : Fetched) => OutcomesAgree _ a.perform b.perform) Iff.rfl (.refused _) (.next rfl)

/-- R34, of a step: the agents' turns are the same on both sides, and so is what they come to. -/
theorem step_sameControl (h : s.SameControl u) : OutcomesAgree State.SameControl (step s) (step u) := by
  have hinbox : u.inbox = s.inbox := by rw [h]
  rw [step_eq_perform, step_eq_perform, fetch, fetch, hinbox]
  cases s.inbox with
  | nil => exact blockTurn_sameControl h
  | cons turn rest =>
    cases turn with
    | block => exact blockTurn_sameControl (h.takeTurn rest)
    | access hsel data => exact accessTurn_sameControl (h.takeTurn rest) hsel data
    | pin level => exact pinTurn_sameControl (h.takeTurn rest) level
    | message bytes => exact messageTurn_sameControl (h.takeTurn rest) bytes

/-- Settles O49: the three kinds of outcome, each from `step_sameControl`. -/
theorem controlIgnoresTheData : Obligations.ControlIgnoresTheData := by
  intro s u h
  have hagree := step_sameControl h
  refine ⟨fun t ht => ?_, fun f hf => ?_, fun r hr => ?_⟩
  · exact (ht ▸ hagree).of_next
  · exact (hf ▸ hagree).of_fault
  · exact (hr ▸ hagree).of_refused

/-! ### States that differ in hidden state only -/

theorem sameForHost_iff : s.SameForHost u ↔ ∃ A B C D E W P PVALID PLEN N FSM T IDX BLK,
    u = { s with A := A, B := B, C := C, D := D, E := E, W := W, P := P, PVALID := PVALID, PLEN := PLEN, N := N,
                 FSM := FSM, T := T, IDX := IDX, BLK := BLK } := by
  constructor
  · exact fun h => ⟨_, _, _, _, _, _, _, _, _, _, _, _, _, _, h⟩
  · rintro ⟨_, _, _, _, _, _, _, _, _, _, _, _, _, _, rfl⟩
    rfl

/-- R48, of the host's transactions: what they return, and what they do to what a host can see, does not depend on hidden
state. -/
theorem exec_sameForHost (h : s.SameForHost u) (hi : i.isHost = true) :
    OutcomesAgree State.SameForHost (exec i s) (exec i u) := by
  obtain ⟨A, B, C, D, E, W, P, PVALID, PLEN, N, FSM, T, IDX, BLK, rfl⟩ := sameForHost_iff.1 h
  cases i
  case hRddigest0 | hRddigest1 | hRddigest2 | hRddigest3 | hRddigest4 => exact .next (rel_ite Iff.rfl rfl rfl)
  case hStart | hWrlenLo | hWrlenHi => exact .next (rel_ite Iff.rfl rfl rfl)
  case hRdctrl | hRdstatus | hRdlenLo | hRdlenHi | hNop => exact .next rfl
  all_goals cases hi

theorem select_host_sameForHost (h : s.SameForHost u) (hsel : BitVec 5) (data : Word) :
    OutcomesAgree State.SameForHost (select (.host hsel data) s).perform (select (.host hsel data) u).perform := by
  unfold select
  cases hd : decode (.host hsel data) with
  | ok i => exact exec_sameForHost h (isHost_of_decode_host hd)
  | error e =>
    obtain ⟨A, B, C, D, E, W, P, PVALID, PLEN, N, FSM, T, IDX, BLK, rfl⟩ := sameForHost_iff.1 h
    obtain rfl | rfl := decode_host_error hd <;> exact .next rfl

theorem step_access_sameForHost (h : s.SameForHost u) {hsel : BitVec 5} {data : Word} {rest : List Turn}
    (hi : s.inbox = .access hsel data :: rest) : OutcomesAgree State.SameForHost (step s) (step u) := by
  have hinbox : u.inbox = s.inbox := by rw [h]
  rw [step_eq_perform, step_eq_perform, fetch, fetch, hinbox, hi]
  have htaken : (s.takeTurn rest).SameForHost (u.takeTurn rest) := by
    obtain ⟨A, B, C, D, E, W, P, PVALID, PLEN, N, FSM, T, IDX, BLK, rfl⟩ := sameForHost_iff.1 h
    rfl
  have hrst : (u.takeTurn rest).rst = (s.takeTurn rest).rst := by rw [htaken]
  exact rel_ite (R := fun (a b : Fetched) => OutcomesAgree _ a.perform b.perform) (by rw [hrst]) (.next htaken)
    (select_host_sameForHost htaken hsel data)

/-- Settles O18: an access always completes (`exists_step_access`), and the two sides agree. -/
theorem hiddenStateIsNotReadable : Obligations.HiddenStateIsNotReadable := by
  intro s u hsel data rest h hi
  have hagree := step_access_sameForHost h hi
  obtain ⟨t, ht⟩ := exists_step_access hi
  obtain ⟨v, hv, htv⟩ := (ht ▸ hagree).of_next
  exact ⟨t, v, ht, hv, htv⟩

end Sys2Proof.Machine
end

section
/-! PROOFS. Whole computations side by side (`10_state.md` R36): two blocks started on equal inputs, whatever they held
before, stay equal in everything a result can come to depend on (`State.Twin`). -/

namespace Sys2Proof.Machine

variable {s u s0 : State}

/-- Between C.LOAD and C.FEED: the ring and the working registers are in use (R161 to R172). -/
def Fsm.inBlock : Fsm → Bool
  | .sched | .round | .feed => true
  | _ => false

/-- What two computations on equal inputs have in common from the grant of the storage to its release: each register from
where the computation has written it, and the words of `P` written so far. -/
structure State.Twin (s u : State) : Prop where
  fsm : u.FSM = s.FSM
  len : u.LEN = s.LEN
  msg : ∀ off, off < s.LEN.toNat → u.msgByte off = s.msgByte off
  pad : u.IDX = s.IDX ∧ u.P = s.P
  written : ∀ i, i < s.IDX → (Memory.read s.P i).isSome = true
  hash : s.FSM.hashing = true → u.H = s.H ∧ u.BLK = s.BLK
  work : s.FSM.inBlock = true →
    u.A = s.A ∧ u.B = s.B ∧ u.C = s.C ∧ u.D = s.D ∧ u.E = s.E ∧ u.W = s.W ∧ u.T = s.T

/-- A word written is the same in both, and the other words are nobody's yet. -/
theorem padWord_eq_of_written {i : Nat} (hp : u.P = s.P) (hw : (Memory.read s.P i).isSome = true) :
    u.padWord i = s.padWord i := by
  obtain ⟨v, hv⟩ := Option.isSome_iff_exists.1 hw
  rw [State.padWord, State.padWord, hp, hv]
  rfl

/-- The word due is made of message bytes below `LEN`. -/
theorem State.Twin.wordDue (h : s.Twin u) (hc : s.OnCourse) (hf : s.FSM = .copy) : u.wordDue = s.wordDue := by
  have hlt := hc.word_below hf
  simp only [State.wordDue, h.pad.1]
  rw [h.msg _ (by omega), h.msg _ (by omega), h.msg _ (by omega), h.msg _ (by omega)]

theorem State.Twin.tailDue (h : s.Twin u) (hc : s.OnCourse) (hf : s.FSM = .tail) : u.tailDue = s.tailDue := by
  have hleft := hc.tail_left hf
  simp only [State.tailDue, h.pad.1, h.len]
  obtain h4 | h4 | h4 | h4 := lt_four_cases (Nat.mod_lt s.LEN.toNat (by decide : 0 < 4)) <;> simp only [h4]
  · rw [h.msg _ (by omega)]
  · rw [h.msg _ (by omega), h.msg _ (by omega)]
  · rw [h.msg _ (by omega), h.msg _ (by omega), h.msg _ (by omega)]

/-- The block due has been written whole. -/
theorem State.Twin.blockDue (h : s.Twin u) (hc : s.OnCourse) (hf : s.FSM = .load) : u.blockDue = s.blockDue := by
  have hidx : s.IDX = 16 * s.N := by simpa [State.indexInPlace, hf] using hc.index
  have hlt : s.BLK < s.N := by simpa [State.roundsInPlace, hf] using hc.rounds
  have hblk := (h.hash (by rw [hf]; rfl)).2
  refine Vector.ext fun j hj => ?_
  simp only [State.blockDue, Vector.getElem_ofFn, hblk]
  exact padWord_eq_of_written h.pad.2 (h.written _ (by omega))

theorem State.Twin.tempDue (h : s.Twin u) (hf : s.FSM = .round) : u.tempDue = s.tempDue := by
  obtain ⟨hA, hB, hC, hD, hE, hW, hT⟩ := h.work (by rw [hf]; rfl)
  simp only [State.tempDue, State.roundSum, hA, hB, hC, hD, hE, hW, hT]

theorem Fsm.hashing_of_inBlock {f : Fsm} : f.inBlock = true → f.hashing = true := by
  cases f <;> decide

/-- Two stores of one word keep the two together; no Hash and no round is due in the states they lead to. -/
theorem State.Twin.pushPad (h : s.Twin u) {v w : Word} (hvw : w = v) {f : Fsm} (hf : f.hashing = false) :
    (s.pushPad v f).Twin (u.pushPad w f) where
  fsm := rfl
  len := h.len
  msg := h.msg
  pad := by simp [h.pad, hvw]
  written i hi := by
    simp only [State.pushPad_P, State.pushPad_IDX, Memory.read_write] at hi ⊢
    split
    · rfl
    · exact h.written i (by omega)
  hash hh := by simp [hf] at hh
  work hb := by simpa [hf] using Fsm.hashing_of_inBlock hb

/-- R36, one micro-operation at a time. -/
theorem State.Twin.advance (h : s.Twin u) (hs : s.OnCourse) (hu : u.OnCourse) (hf : s.FSM.holdsPad = true)
    (hr : s.FSM ≠ .release) : s.advance.Twin u.advance := by
  have hN : u.N = s.N := by
    rw [hs.counted_of_holdsPad hf, hu.counted_of_holdsPad (h.fsm ▸ hf), h.len]
  cases hfs : s.FSM
  case idle | count | alloc | fail => simp [hfs, Fsm.holdsPad] at hf
  case release => exact absurd hfs hr
  all_goals simp only [State.advance, hfs, h.fsm.trans hfs]
  case copy =>
    rw [h.len, h.pad.1]
    exact h.pushPad (h.wordDue hs hfs) (hashing_afterWord _ _)
  case tail =>
    rw [h.pad.1]
    exact h.pushPad (h.tailDue hs hfs) (hashing_afterFill _)
  case zero =>
    rw [h.pad.1]
    exact h.pushPad rfl (hashing_afterFill _)
  case lenhi | lenlo => exact h.pushPad (by rw [h.len]) rfl
  case init => exact ⟨rfl, h.len, h.msg, h.pad, h.written, fun _ => ⟨rfl, rfl⟩, fun hb => by cases hb⟩
  all_goals obtain ⟨hH, hblk⟩ := h.hash (by rw [hfs]; rfl)
  case next =>
    rw [hblk, hN]
    refine ⟨rfl, h.len, h.msg, h.pad, h.written, fun _ => ⟨hH, hblk⟩, fun hb => ?_⟩
    simp only [State.goto] at hb
    split at hb <;> cases hb
  case load =>
    rw [h.blockDue hs hfs]
    exact ⟨rfl, h.len, h.msg, h.pad, h.written, fun _ => ⟨hH, hblk⟩, fun _ => by simp [hH]⟩
  case sched =>
    obtain ⟨hA, hB, hC, hD, hE, hW, hT⟩ := h.work (by rw [hfs]; rfl)
    exact ⟨rfl, h.len, h.msg, h.pad, h.written, fun _ => ⟨hH, hblk⟩, fun _ => by simp [hA, hB, hC, hD, hE, hW, hT]⟩
  case round =>
    rw [h.tempDue hfs]
    obtain ⟨hA, hB, hC, hD, hE, hW, hT⟩ := h.work (by rw [hfs]; rfl)
    exact ⟨by simp [hT], h.len, h.msg, h.pad, h.written, fun _ => ⟨hH, hblk⟩, fun _ => by simp [hA, hB, hC, hD, hW, hT]⟩
  case feed =>
    obtain ⟨hA, hB, hC, hD, hE, -, -⟩ := h.work (by rw [hfs]; rfl)
    exact ⟨rfl, h.len, h.msg, h.pad, h.written, fun _ => by simp [hH, hblk, hA, hB, hC, hD, hE], fun hb => by cases hb⟩

/-- R36, to the last micro-operation but one. -/
theorem State.Twin.iterate (h : s.Twin u) (hs : s.OnCourse) (hu : u.OnCourse) (hf : s.FSM.holdsPad = true) {k : Nat}
    (hk : k < s.stepsLeft) :
    (State.advance^[k] s).Twin (State.advance^[k] u) ∧ (State.advance^[k] s).FSM.holdsPad = true := by
  induction k generalizing s u with
  | zero => exact ⟨h, hf⟩
  | succ k ih =>
    have hr : s.FSM ≠ .release := fun hr => by simp [State.stepsLeft, hr] at hk
    have hleft := hs.stepsLeft_advance (Fsm.ne_idle_of_holdsPad hf)
    exact ih (h.advance hs hu hf hr) hs.advance hu.advance (holdsPad_advance hf hr) (by omega)

/-! ### The end of a computation -/

theorem State.FlagsSound.iterate (h : s.FlagsSound) (n : Nat) : (State.advance^[n] s).FlagsSound := by
  induction n generalizing s with
  | zero => exact h
  | succ n ih => exact ih h.advance

/-- Of the states that hold the storage, RELEASE alone is one micro-operation from IDLE. -/
theorem State.OnCourse.release_of_stepsLeft (h : s.OnCourse) (hf : s.FSM.holdsPad = true) (h1 : s.stepsLeft = 1) :
    s.FSM = .release := by
  cases hs : s.FSM
  case release => rfl
  case idle | count | alloc | fail => simp [hs, Fsm.holdsPad] at hf
  all_goals simp only [State.stepsLeft, hs] at h1
  case load =>
    have hlt : s.BLK < s.N := by simpa [State.roundsInPlace, hs] using h.rounds
    omega
  all_goals omega

/-- O.RELEASE reports the Hash as it stands (R194). -/
theorem release_reports (h : s.FlagsSound) (hf : s.FSM = .release) :
    s.advance.BUSY = false ∧ s.advance.DONE = true ∧ s.advance.ERR = false ∧ s.advance.ERRCODE = 0 ∧
      s.advance.H = s.H := by
  have herr := (h.busy_clears (h.busy.2 (by simp [hf]))).2
  simp [State.advance, hf, herr, h.code_none herr]

/-- R36, to the end: two computations that hold their storage report the same Hash after the same number of steps. -/
theorem State.Twin.finish (h : s.Twin u) (hs : s.OnCourse) (hu : u.OnCourse) (hf : s.FSM.holdsPad = true)
    (fs : s.FlagsSound) (fu : u.FlagsSound) :
    ∃ n t v, State.advance^[n] s = t ∧ State.advance^[n] u = v ∧
      (t.BUSY = false ∧ t.DONE = true ∧ t.ERR = false ∧ t.ERRCODE = 0) ∧
      (v.BUSY = false ∧ v.DONE = true ∧ v.ERR = false ∧ v.ERRCODE = 0) ∧ t.H = v.H := by
  have hpos : s.stepsLeft ≠ 0 := fun h0 => Fsm.ne_idle_of_holdsPad hf (stepsLeft_eq_zero_iff.1 h0)
  obtain ⟨k, hk⟩ := Nat.exists_eq_succ_of_ne_zero hpos
  obtain ⟨htwin, hheld⟩ := h.iterate hs hu hf (k := k) (by omega)
  have hrel : (State.advance^[k] s).FSM = .release :=
    (hs.iterate k).release_of_stepsLeft hheld (by rw [hs.stepsLeft_iterate]; omega)
  obtain ⟨hb, hd, he, hc, hH⟩ := release_reports (fs.iterate k) hrel
  obtain ⟨hb', hd', he', hc', hH'⟩ := release_reports (fu.iterate k) (htwin.fsm.trans hrel)
  refine ⟨k + 1, _, _, Function.iterate_succ_apply' .., Function.iterate_succ_apply' .., ⟨hb, hd, he, hc⟩,
    ⟨hb', hd', he', hc'⟩, ?_⟩
  rw [hH, hH', (htwin.hash (by rw [hrel]; rfl)).1]

/-! ### From the START -/

/-- An accepted START, whatever came before it, begins a computation with its flags in order. -/
theorem exec_hStart_of_idle {data : Word} (hb : s0.BUSY = false) (h : exec (.hStart data) s0 = .next s) :
    s = s0.acceptStart := by
  simpa [exec, execHStart, hb, eq_comm] using h

/-- The storage granted: P.COUNT and P.ALLOC (R131, R132). -/
theorem advance_granted (hf : s.FSM = .count) (hok : s.allocOK (16 * blockCount s.LEN.toNat) = true) :
    State.advance^[2] s = (s.counted (blockCount s.LEN.toNat)).allocated := by
  have hcount : s.advance = s.counted (blockCount s.LEN.toNat) := by simp [State.advance, hf]
  rw [Function.iterate_succ_apply, Function.iterate_one, hcount]
  simp [State.advance, hok]

/-- The storage refused: P.COUNT, P.ALLOC and O.FAIL (R131, R132, R233). -/
theorem advance_refused (hf : s.FSM = .count) (hno : s.allocOK (16 * blockCount s.LEN.toNat) = false) :
    State.advance^[3] s = (s.counted (blockCount s.LEN.toNat)).raiseResourceExhausted.enterResourceExhausted := by
  have hcount : s.advance = s.counted (blockCount s.LEN.toNat) := by simp [State.advance, hf]
  have halloc : s.advance.advance = (s.counted (blockCount s.LEN.toNat)).raiseResourceExhausted := by
    rw [hcount]
    simp [State.advance, hno]
  rw [Function.iterate_succ_apply, Function.iterate_succ_apply, Function.iterate_one, halloc]
  simp [State.advance]

/-- Two computations whose storage has been granted begin alike: nothing is written yet. -/
theorem twin_allocated (hlen : u.LEN = s.LEN) (hmsg : ∀ off, off < s.LEN.toNat → u.msgByte off = s.msgByte off) :
    (s.allocated).Twin u.allocated where
  fsm := by simp [hlen]
  len := hlen
  msg := hmsg
  pad := ⟨rfl, rfl⟩
  written i hi := by simp at hi
  hash hf := by simp at hf
  work hf := by simpa using Fsm.hashing_of_inBlock hf

/-- Settles O50: refused, both end after the three steps of `advance_refused` with their Hashes as they were; granted, they
go on as twins. -/
theorem equalInputsGiveEqualResults : Obligations.EqualInputsGiveEqualResults := by
  intro s0 u0 s u d e hs0 hu0 hs hu hds hdu hlen hmsg halloc
  obtain rfl := exec_hStart_of_idle hs0 hs
  obtain rfl := exec_hStart_of_idle hu0 hu
  have cs : s0.acceptStart.OnCourse := onCourse_of_count rfl
  have cu : u0.acceptStart.OnCourse := onCourse_of_count rfl
  rw [← blockCount_eq] at halloc
  cases hok : s0.acceptStart.allocOK (16 * blockCount s0.acceptStart.LEN.toNat) with
  | false =>
    rw [hok, hlen] at halloc
    refine ⟨3, _, _, run_undisturbed cs hds 3, run_undisturbed cu hdu 3, ?_⟩
    rw [advance_refused rfl hok, advance_refused rfl halloc.symm]
    simp
  | true =>
    rw [hok, hlen] at halloc
    have htwin := twin_allocated (s := s0.acceptStart.counted (blockCount s0.acceptStart.LEN.toNat))
      (u := u0.acceptStart.counted (blockCount u0.acceptStart.LEN.toNat)) hlen.symm fun off h => (hmsg off h).symm
    rw [← advance_granted rfl hok, ← advance_granted rfl halloc.symm] at htwin
    obtain ⟨n, t, v, ht, hv, ⟨hb, hd, he, hc⟩, ⟨hb', hd', he', hc'⟩, hH⟩ :=
      htwin.finish (cs.iterate 2) (cu.iterate 2) (by rw [advance_granted rfl hok]; simp)
        ((State.FlagsSound.acceptStart s0).iterate 2) ((State.FlagsSound.acceptStart u0).iterate 2)
    rw [← Function.iterate_add_apply] at ht hv
    exact ⟨n + 2, t, v, ht ▸ run_undisturbed cs hds _, hv ▸ run_undisturbed cu hdu _, hb, hb', .inl hd, by rw [hd, hd'],
      by rw [he, he'], by rw [hc, hc'], fun _ => hH, fun herr => by rw [he] at herr; cases herr⟩

end Sys2Proof.Machine
end

section
/-! PROOFS. Where the model stops by name (`20_memory.md` R62, R64; `10_state.md` R31; `30_encoding.md` R100): each guarded
operation with its guard failed, and the instructions and the step that come to it. -/

namespace Sys2Proof.Machine

variable {s : State} {i : Instr}

/-! ### The guarded operations with the guard failed -/

/-- R64: the two ways for a word of `P` to have no access. -/
theorem not_within_of_outside {n : Nat} (h : s.PVALID = false ∨ s.PLEN ≤ n) : ¬(s.PVALID = true ∧ n < s.PLEN) := by
  rintro ⟨hv, hn⟩
  rcases h with h | h
  · simp [hv] at h
  · omega

theorem storeNext_of_outside (h : s.PVALID = false ∨ s.PLEN ≤ s.IDX) (v : Word) (next : Nat → Fsm) :
    outcome (s.storeNext v next) = .fault .padOutOfRange := by
  rw [State.storeNext, if_neg (mt padRoom_iff.1 (not_within_of_outside h))]
  rfl

theorem round_of_ge (hT : 80 ≤ s.T.toNat) (k : Word) (f : Word → Word → Word → Word) :
    outcome (s.round k f) = .fault .roundIndexOutOfRange := by
  rw [State.round, if_neg (Nat.not_lt.2 hT)]
  rfl

theorem opSel_eq_none_of_ge (hf : s.FSM = .round) (hT : 80 ≤ s.T.toNat) : opSel s = none := by
  simp [opSel, subSelector, hf, Nat.not_lt.2 hT]

/-! ### The instructions and the step -/

/-- R64: the Padder's writes that read no message byte. -/
theorem exec_fill_of_outside (h : s.PVALID = false ∨ s.PLEN ≤ s.IDX)
    (hi : i ∈ [Instr.pTail0, .pZero, .pLenhi, .pLenlo]) : exec i s = .fault .padOutOfRange := by
  simp only [List.mem_cons, List.not_mem_nil, or_false] at hi
  rcases hi with rfl | rfl | rfl | rfl <;> exact storeNext_of_outside h _ _

theorem exec_cLoad_of_outside (h : s.PVALID = false ∨ s.PLEN ≤ 16 * s.BLK + 15) :
    exec .cLoad s = .fault .padOutOfRange := by
  rw [exec_cLoad_eq, if_neg (not_within_of_outside h)]

theorem exec_round_of_ge (hi : i ∈ Instr.roundOps) (hT : 80 ≤ s.T.toNat) :
    exec i s = .fault .roundIndexOutOfRange := by
  rcases Instr.mem_roundOps.1 hi with rfl | rfl | rfl | rfl <;> exact round_of_ge hT _ _

theorem step_of_noSelector (hb : s.blocksTurn) (hr : s.rst = false) (ho : opSel s = none) :
    step s = .refused .noSelector := by
  rw [step_eq_of_blocksTurn hb, blockTurn_of_noSelector (s := s.afterTurn) hr ho]
  rfl

/-- Settles O25: the message reads by the guarded forms of P.WORD and P.TAILr, the `P` accesses by `storeNext_of_outside`, the
rounds by `round_of_ge`. -/
theorem undefinedAccessesStop : Obligations.UndefinedAccessesStop := by
  refine ⟨fun s h => ?word, fun s h => ?tail1, fun s h => ?tail2, fun s h => ?tail3,
    fun s h => ⟨fun i hi => exec_fill_of_outside h hi, fun hm => ?wordRoom, fun hm => ?tail1Room, fun hm => ?tail2Room,
      fun hm => ?tail3Room⟩,
    fun s h => exec_cLoad_of_outside h, fun s i hi hT => exec_round_of_ge hi hT,
    fun s hf hT hb hr => step_of_noSelector hb hr (opSel_eq_none_of_ge hf hT)⟩
  case word => rw [exec_pWord_eq, if_neg (Nat.not_lt.2 h)]
  case tail1 => rw [exec_pTail1_eq, if_neg (Nat.not_lt.2 h)]
  case tail2 => rw [exec_pTail2_eq, if_neg (Nat.not_lt.2 h)]
  case tail3 => rw [exec_pTail3_eq, if_neg (Nat.not_lt.2 h)]
  case wordRoom => rw [exec_pWord_eq, if_pos hm, storeNext_of_outside h]
  case tail1Room => rw [exec_pTail1_eq, if_pos hm, storeNext_of_outside h]
  case tail2Room => rw [exec_pTail2_eq, if_pos hm, storeNext_of_outside h]
  case tail3Room => rw [exec_pTail3_eq, if_pos hm, storeNext_of_outside h]

end Sys2Proof.Machine
end

section
/-! PROOFS. The encodings (`30_encoding.md` R102, R104, R107): the decoder and the encoder undo each other, on each of the
three channels. -/

namespace Sys2Proof

theorem decode_encode {i : Instr} (h : i.wellFormed = true) : decode (encode i) = .ok i := by
  cases i
  case hStart data => exact congrArg Except.ok (if_pos h)
  case hNop data =>
    have hbit : ¬data.getLsbD 0 = true := by simpa [Instr.wellFormed] using h
    exact congrArg Except.ok (if_neg hbit)
  all_goals rfl

/-- Settles O1, row by row; bit 0 of the write data keeps H.START and H.NOP apart. -/
theorem encodeDecodeRoundTrip : Obligations.EncodeDecodeRoundTrip := fun _ => decode_encode

/-- R102, one row at a time. -/
theorem encode_of_decodeUop {op : BitVec 6} {i : Instr} (h : decodeUop op = .ok i) :
    i.wellFormed = true ∧ encode i = .uop op := by
  unfold decodeUop at h
  split at h
  case h_1 | h_23 => cases h
  all_goals
    rename_i hop
    cases h
    exact ⟨rfl, congrArg Selector.uop (BitVec.eq_of_toNat_eq hop).symm⟩

theorem eq_ofNat_of_toNat_eq {w n : Nat} {x : BitVec w} (h : x.toNat = n) : x = BitVec.ofNat w n := by
  rw [← h, BitVec.ofNat_toNat, BitVec.setWidth_eq]

/-- R104: bit 0 of the data chooses between the two rows of a write to CTRL. -/
theorem encode_writeCtrl (data : Word) :
    (if data.getLsbD 0 then Instr.hStart data else .hNop data).wellFormed = true ∧
      encode (if data.getLsbD 0 then .hStart data else .hNop data) = .host 0x10 data := by
  split
  · exact ⟨‹_›, rfl⟩
  · exact ⟨by simpa [Instr.wellFormed] using ‹¬data.getLsbD 0 = true›, rfl⟩

/-- R104, one row at a time; the data lines of a read are written as 0. -/
theorem encode_of_decodeHost {hsel : BitVec 5} {data : Word} {i : Instr} (h : decodeHost hsel data = .ok i) :
    i.wellFormed = true ∧ encode i = .host hsel (if 16 ≤ hsel.toNat then data else 0) := by
  unfold decodeHost at h
  split at h
  case h_13 => cases h
  all_goals
    obtain rfl := eq_ofNat_of_toNat_eq ‹hsel.toNat = _›
    cases h
  case h_10 => exact encode_writeCtrl data
  all_goals exact ⟨rfl, rfl⟩

/-- R107. -/
theorem encode_of_decodePin {level : Bool} {i : Instr} (h : decodePin level = .ok i) :
    i.wellFormed = true ∧ encode i = .pin level := by
  cases level <;> cases h
  exact ⟨rfl, rfl⟩

theorem wellFormed_of_decode {sel : Selector} {i : Instr} (h : decode sel = .ok i) : i.wellFormed = true := by
  cases sel with
  | uop op => exact (encode_of_decodeUop h).1
  | host hsel data => exact (encode_of_decodeHost h).1
  | pin level => exact (encode_of_decodePin h).1

theorem encode_injective {i j : Instr} (hi : i.wellFormed = true) (hj : j.wellFormed = true)
    (h : encode j = encode i) : j = i :=
  Except.ok.inj ((decode_encode hj).symm.trans (h ▸ decode_encode hi))

/-- Settles O2: one lemma per channel, and the round trip of O1. -/
theorem decodeThenEncodeGivesTheSelectorBack : Obligations.DecodeThenEncodeGivesTheSelectorBack := by
  intro sel i h
  have hi := wellFormed_of_decode h
  refine ⟨hi, ?_, ?_, ?_, fun j hj => encode_injective hi hj⟩
  · rintro op rfl
    exact (encode_of_decodeUop h).2
  · rintro hsel data rfl
    exact (encode_of_decodeHost h).2
  · rintro level rfl
    exact (encode_of_decodePin h).2

/-- Settles O3: the decoder computes each of the thirteen words. -/
theorem wordsOfTheSpecDecode : Obligations.WordsOfTheSpecDecode :=
  ⟨rfl, rfl, rfl, rfl, rfl, rfl, rfl, rfl, rfl, rfl, rfl, rfl, rfl⟩

end Sys2Proof
end

section
/-! PROOFS. What the control state selects (`30_encoding.md` R100, R105), and what a step performs on each agent's turn
(R101, R103, R107; `70_reset_and_hazards.md` R262). -/

namespace Sys2Proof.Machine

variable {s : State}

/-! ### The selectors of the control state -/

theorem toNat_append_eq_add {m n : Nat} (x : BitVec m) (y : BitVec n) :
    (x ++ y).toNat = x.toNat * 2 ^ n + y.toNat := by
  rw [BitVec.toNat_append, ← Nat.shiftLeft_add_eq_or_of_lt y.isLt, Nat.shiftLeft_eq]

/-- R100: the two fields of `op_sel`, as numbers. -/
theorem toNat_opSel {op : BitVec 6} (h : opSel s = some op) : op.toNat = 4 * (fsmCode s.FSM).toNat +
    (if s.FSM = .tail then s.LEN.toNat % 4 else if s.FSM = .round then s.T.toNat / 20 else 0) := by
  obtain ⟨sel, hsel, rfl⟩ := Option.map_eq_some_iff.1 h
  rw [toNat_append_eq_add, Nat.mul_comm]
  refine congrArg (4 * (fsmCode s.FSM).toNat + ·) ?_
  unfold subSelector at hsel
  cases hf : s.FSM <;> simp only [hf] at hsel
  case tail =>
    cases hsel
    simp
  case round =>
    split at hsel <;> cases hsel
    rw [if_neg (by decide), if_pos rfl, BitVec.toNat_ofNat]
    exact Nat.mod_eq_of_lt (by omega)
  all_goals
    cases hsel
    rfl

theorem microOp_eq_none_iff (hT : s.FSM = .round → s.T.toNat < 80) : s.microOp = none ↔ s.FSM = .idle := by
  cases hf : s.FSM
  case tail => simp only [State.microOp, hf]; split <;> simp
  case round =>
    have hlt := hT hf
    obtain h4 | h4 | h4 | h4 := lt_four_cases (show s.T.toNat / 20 < 4 by omega) <;> simp [State.microOp, hf, h4]
  all_goals simp [State.microOp, hf]

/-- Settles O5: the selector exists but beyond round 79 (`exists_opSel`), and decodes to the table's micro-operation
(`decode_opSel`). -/
theorem controlStateSelectsItsMicroOperation : Obligations.ControlStateSelectsItsMicroOperation := by
  intro s hT
  have hlt : s.FSM = .round → s.T.toNat < 80 := fun hf => Nat.lt_succ_of_le (hT hf)
  obtain ⟨op, ho⟩ := exists_opSel hlt
  exact ⟨op, ho, toNat_opSel ho, decode_opSel ho, microOp_eq_none_iff hlt⟩

theorem round_below_of_opSel {op : BitVec 6} (h : opSel s = some op) : s.FSM = .round → s.T.toNat < 80 := by
  intro hf
  by_contra hT
  rw [opSel_eq_none_of_ge hf (Nat.le_of_not_lt hT)] at h
  cases h

/-- R105: the machine never asks the decoder for an invalid selector. -/
theorem decode_opSel_ne_unreachable {op : BitVec 6} (h : opSel s = some op) :
    decode (.uop op) ≠ .error (.unreachableSelector op) := by
  intro hd
  have hnone : s.microOp = none := by
    rw [← decode_opSel h, hd]
    rfl
  have hidle := (microOp_eq_none_iff (round_below_of_opSel h)).1 hnone
  obtain rfl : op = 0 := Option.some.inj (h.symm.trans (opSel_eq_zero_iff.2 hidle))
  cases hd

theorem exists_ok_iff_toBool {ε α : Type} {x : Except ε α} : (∃ a, x = .ok a) ↔ x.toBool = true := by
  cases x <;> simp [Except.toBool]

/-- Settles O4: the two lists by going through the 64 selectors, then `decode_opSel_ne_unreachable`. -/
theorem unreachableSelectorsAreRejected : Obligations.UnreachableSelectorsAreRejected := by
  refine ⟨rfl, ?_, ?_, fun s op => decode_opSel_ne_unreachable⟩
  · simp only [exists_ok_iff_toBool]
    decide
  · decide

/-! ### What a step performs -/

/-- Settles O6: `op_sel` stands for the table's micro-operation, which a step on the block's turn executes. -/
theorem stepRunsTheSelectedMicroOperation : Obligations.StepRunsTheSelectedMicroOperation :=
  ⟨fun _ _ _ hb hr ho hd => step_of_microOp hb hr (microOp_of_opSel ho hd), fun _ => step_of_idle, fun _ => step_of_rst⟩

theorem fetch_access {hsel : BitVec 5} {data : Word} {rest : List Turn} {i : Instr}
    (hi : s.inbox = .access hsel data :: rest) (hr : s.rst = false) (hd : decode (.host hsel data) = .ok i) :
    fetch s = .run i (s.takeTurn rest) := by
  simp [fetch, hi, accessTurn, hr, select, hd]

theorem fetch_access_of_rst {hsel : BitVec 5} {data : Word} {rest : List Turn}
    (hi : s.inbox = .access hsel data :: rest) (hr : s.rst = true) : fetch s = .done (s.takeTurn rest) := by
  simp [fetch, hi, accessTurn, hr]

theorem fetch_pin_true {rest : List Turn} (hi : s.inbox = .pin true :: rest) :
    fetch s = .run .hReset ((s.takeTurn rest).setPin true) := by
  simp [fetch, hi, pinTurn, select]

theorem fetch_pin_false {rest : List Turn} (hi : s.inbox = .pin false :: rest) :
    fetch s = .done ((s.takeTurn rest).setPin false) := by
  simp [fetch, hi, pinTurn, select]

/-- Settles O7: the access and the pin by what their turn fetches, the message by the law of consecutive cells. -/
theorem stepPerformsTheTransaction : Obligations.StepPerformsTheTransaction := by
  refine ⟨fun s hsel data rest i hi hr hd => ?_, fun s hsel data rest hi hr => ?_, fun s rest hi => ?_,
    fun s rest hi => ?_, fun s bytes rest hi hb => ?_⟩
  · rw [step_eq_perform, fetch_access hi hr hd]
    rfl
  · rw [step_eq_perform, fetch_access_of_rst hi hr]
    rfl
  · rw [step_eq_perform, fetch_pin_true hi]
    rfl
  · rw [step_eq_perform, fetch_pin_false hi]
    rfl
  · refine ⟨(s.takeTurn rest).placeMessage bytes, ?_, rfl, fun off => ?_⟩
    · simp [step_eq_perform, fetch, hi, messageTurn, hb, Fetched.perform]
    · simp [Memory.read_ofList]

end Sys2Proof.Machine
end

section
/-! PROOFS. Placing an instruction next (log entry 6): the control state `State.controlFor` gives a micro-operation selects
it, with its guards met (`20_memory.md` R62, R64; `10_state.md` R31). -/

namespace Sys2Proof.Machine

variable {s : State} {i : Instr} {op : BitVec 6}

/-! ### The control states placed -/

theorem atWord_FSM (s : State) : s.atWord.FSM = .copy := by
  simp only [State.atWord]; split <;> rfl

theorem atTail_FSM (s : State) (r : Nat) : (s.atTail r).FSM = .tail := by
  simp only [State.atTail]; split <;> rfl

theorem atFill_FSM (s : State) (f : Fsm) (ok : Nat → Bool) (idx : Nat) : (s.atFill f ok idx).FSM = f := by
  simp only [State.atFill]; split <;> rfl

theorem atLoad_FSM (s : State) : s.atLoad.FSM = .load := by
  simp only [State.atLoad]; split <;> rfl

theorem atRound_FSM (s : State) (f : Fsm) (ok : Nat → Bool) (t : BitVec 7) : (s.atRound f ok t).FSM = f := by
  simp only [State.atRound]; split <;> rfl

/-- R133: the access is within the allocation, and the group of four bytes within the message. -/
theorem atWord_guards (s : State) :
    (s.atWord.PVALID = true ∧ s.atWord.IDX < s.atWord.PLEN) ∧ 4 * s.atWord.IDX + 3 < s.atWord.LEN.toNat := by
  simp only [State.atWord, Bool.and_eq_true, decide_eq_true_eq]
  split
  case isTrue h => exact ⟨padRoom_iff.1 h.1, by omega⟩
  case isFalse => exact ⟨⟨rfl, Nat.zero_lt_succ _⟩, by simp [State.inOneBlock]⟩

/-- R134 to R137: the access is within the allocation, and `r` bytes of the message are left. -/
theorem atTail_guards (s : State) {r : Nat} (hr : r < 4) :
    ((s.atTail r).PVALID = true ∧ (s.atTail r).IDX < (s.atTail r).PLEN) ∧ (s.atTail r).LEN.toNat % 4 = r ∧
      4 * (s.atTail r).IDX + r = (s.atTail r).LEN.toNat := by
  simp only [State.atTail, Bool.and_eq_true, decide_eq_true_eq]
  split
  case isTrue h =>
    obtain ⟨⟨hroom, hmod⟩, hidx⟩ := h
    exact ⟨padRoom_iff.1 hroom, hmod, by omega⟩
  case isFalse =>
    have hlen : (BitVec.ofNat 61 r).toNat = r := Nat.mod_eq_of_lt (by omega)
    refine ⟨⟨rfl, Nat.zero_lt_succ _⟩, ?_⟩
    simp only [State.inOneBlock, hlen]
    omega

/-- R138 to R140: the access is within the allocation. -/
theorem atFill_guards (s : State) (f : Fsm) (ok : Nat → Bool) {idx : Nat} (hidx : idx < 16) :
    (s.atFill f ok idx).PVALID = true ∧ (s.atFill f ok idx).IDX < (s.atFill f ok idx).PLEN := by
  simp only [State.atFill, Bool.and_eq_true]
  split
  case isTrue h => exact padRoom_iff.1 h.1
  case isFalse => exact ⟨rfl, hidx⟩

/-- R161: the block is within the allocation. -/
theorem atLoad_guards (s : State) : s.atLoad.PVALID = true ∧ 16 * s.atLoad.BLK + 15 < s.atLoad.PLEN := by
  simp only [State.atLoad, Bool.and_eq_true, decide_eq_true_eq]
  split
  case isTrue h => exact h.1
  case isFalse => exact ⟨rfl, by simp [State.inOneBlock]⟩

/-- R167 to R170: the round index is in phase `p`. -/
theorem atRound_phase (s : State) {p : Nat} {t : BitVec 7} (ht : t.toNat / 20 = p) :
    (s.atRound .round (fun n => n / 20 == p) t).T.toNat / 20 = p := by
  simp only [State.atRound]
  split
  case isTrue h => exact beq_iff_eq.1 h
  case isFalse => exact ht

theorem lt_of_div_twenty {n p : Nat} (h : n / 20 = p) (hp : p < 4) : n < 80 := by omega

/-! ### The guards -/

/-- The guards under which an instruction stops by name nowhere (R62, R64, R31). -/
def State.Allows (s : State) : Instr → Prop
  | .pWord => (s.PVALID = true ∧ s.IDX < s.PLEN) ∧ 4 * s.IDX + 3 < s.LEN.toNat
  | .pTail1 => (s.PVALID = true ∧ s.IDX < s.PLEN) ∧ 4 * s.IDX < s.LEN.toNat
  | .pTail2 => (s.PVALID = true ∧ s.IDX < s.PLEN) ∧ 4 * s.IDX + 1 < s.LEN.toNat
  | .pTail3 => (s.PVALID = true ∧ s.IDX < s.PLEN) ∧ 4 * s.IDX + 2 < s.LEN.toNat
  | .pTail0 | .pZero | .pLenhi | .pLenlo => s.PVALID = true ∧ s.IDX < s.PLEN
  | .cLoad => s.PVALID = true ∧ 16 * s.BLK + 15 < s.PLEN
  | .cRound0 | .cRound1 | .cRound2 | .cRound3 => s.T.toNat < 80
  | _ => True

theorem exists_exec_of_allows (h : s.Allows i) : ∃ t, exec i s = .next t := by
  cases i
  case pWord =>
    obtain ⟨⟨hv, hroom⟩, hmsg⟩ := h
    exact ⟨_, by rw [exec_pWord_eq, if_pos hmsg, storeNext_of_room hv hroom]⟩
  case pTail1 =>
    obtain ⟨⟨hv, hroom⟩, hmsg⟩ := h
    exact ⟨_, by rw [exec_pTail1_eq, if_pos hmsg, storeNext_of_room hv hroom]⟩
  case pTail2 =>
    obtain ⟨⟨hv, hroom⟩, hmsg⟩ := h
    exact ⟨_, by rw [exec_pTail2_eq, if_pos hmsg, storeNext_of_room hv hroom]⟩
  case pTail3 =>
    obtain ⟨⟨hv, hroom⟩, hmsg⟩ := h
    exact ⟨_, by rw [exec_pTail3_eq, if_pos hmsg, storeNext_of_room hv hroom]⟩
  case pTail0 | pZero | pLenhi | pLenlo => exact ⟨_, storeNext_of_room h.1 h.2 _ _⟩
  case cLoad => exact ⟨_, (exec_cLoad_eq s).trans (if_pos h)⟩
  case cRound0 | cRound1 | cRound2 | cRound3 => exact ⟨_, round_of_lt h _ _⟩
  all_goals exact ⟨_, rfl⟩

theorem allows_of_isHost (h : i.isHost = true) : s.Allows i := by
  cases i
  case hRdctrl | hRdstatus | hRdlenLo | hRdlenHi | hRddigest0 | hRddigest1 | hRddigest2 | hRddigest3 | hRddigest4 |
      hStart | hNop | hWrlenLo | hWrlenHi => trivial
  all_goals cases h

theorem allows_placeUop (s : State) (i : Instr) : (s.placeUop i).afterTurn.Allows i := by
  cases i
  case pWord => exact atWord_guards s
  case pTail0 => exact (atTail_guards s (r := 0) (by decide)).1
  case pTail1 => exact (atTail_guards s (r := 1) (by decide)).imp_right fun h => Nat.lt_of_succ_le h.2.le
  case pTail2 => exact (atTail_guards s (r := 2) (by decide)).imp_right fun h => Nat.lt_of_succ_le h.2.le
  case pTail3 => exact (atTail_guards s (r := 3) (by decide)).imp_right fun h => Nat.lt_of_succ_le h.2.le
  case pZero => exact atFill_guards s .zero (· != 14) (idx := 1) (by decide)
  case pLenhi => exact atFill_guards s .lenhi (· == 14) (idx := 14) (by decide)
  case pLenlo => exact atFill_guards s .lenlo (· == 15) (idx := 15) (by decide)
  case cLoad => exact atLoad_guards s
  case cRound0 => exact lt_of_div_twenty (atRound_phase s (t := 0) (p := 0) rfl) (by decide)
  case cRound1 => exact lt_of_div_twenty (atRound_phase s (t := 20) (p := 1) rfl) (by decide)
  case cRound2 => exact lt_of_div_twenty (atRound_phase s (t := 40) (p := 2) rfl) (by decide)
  case cRound3 => exact lt_of_div_twenty (atRound_phase s (t := 60) (p := 3) rfl) (by decide)
  all_goals trivial

/-! ### A micro-operation placed is fetched, and goes on -/

/-- R100, R101: the control state selects the micro-operation. -/
theorem microOp_controlFor (s : State) (he : encode i = .uop op) : (s.controlFor i).microOp = some i := by
  cases i <;> simp only [State.controlFor]
  case pWord => simp only [State.microOp, atWord_FSM]
  case pTail0 => simp only [State.microOp, atTail_FSM, atTail_guards s (r := 0) (by decide)]
  case pTail1 => simp only [State.microOp, atTail_FSM, atTail_guards s (r := 1) (by decide)]
  case pTail2 => simp only [State.microOp, atTail_FSM, atTail_guards s (r := 2) (by decide)]
  case pTail3 => simp only [State.microOp, atTail_FSM, atTail_guards s (r := 3) (by decide)]
  case pZero | pLenhi | pLenlo => simp only [State.microOp, atFill_FSM]
  case cLoad => simp only [State.microOp, atLoad_FSM]
  case cSched | cFeed => simp only [State.microOp, atRound_FSM]
  case cRound0 => simp only [State.microOp, atRound_FSM, atRound_phase s (t := 0) (p := 0) rfl]
  case cRound1 => simp only [State.microOp, atRound_FSM, atRound_phase s (t := 20) (p := 1) rfl]
  case cRound2 => simp only [State.microOp, atRound_FSM, atRound_phase s (t := 40) (p := 2) rfl]
  case cRound3 => simp only [State.microOp, atRound_FSM, atRound_phase s (t := 60) (p := 3) rfl]
  case pCount | pAlloc | oInit | oNext | oRelease | oFail => rfl
  all_goals cases he

/-- The state placed differs from `State.controlFor` in `BUSY` and the environment only, which select nothing. -/
theorem fetch_placeUop (s : State) (he : encode i = .uop op) :
    fetch (s.placeUop i) = .run i (s.placeUop i).afterTurn := by
  rw [fetch_of_blocksTurn (.inr ⟨s.inbox, rfl⟩)]
  exact blockTurn_of_microOp (s := (s.placeUop i).afterTurn) rfl (microOp_controlFor s he)

/-- Settles O8: on the block's channel by `fetch_placeUop`, on the host's and the reset input's by the turn put at the head of
the list; the guards are met on each. -/
theorem placedInstructionRuns : Obligations.PlacedInstructionRuns := by
  intro s i hi
  have hd := decode_encode hi
  suffices h : ∃ u, fetch (s.placeSelector (encode i)) = .run i u ∧ u.Allows i by
    obtain ⟨u, hfetch, hallows⟩ := h
    obtain ⟨t, ht⟩ := exists_exec_of_allows hallows
    exact ⟨u, t, hfetch, by rw [step_eq_perform, hfetch]; exact ht⟩
  cases he : encode i with
  | uop op =>
    rw [he] at hd
    have hplace : s.placeSelector (.uop op) = s.placeUop i := by
      rw [State.placeSelector, show decodeUop op = .ok i from hd]
    rw [hplace]
    exact ⟨_, fetch_placeUop s he, allows_placeUop s i⟩
  | host hsel data =>
    rw [he] at hd
    exact ⟨_, fetch_access rfl rfl hd, allows_of_isHost (isHost_of_decode_host hd)⟩
  | pin level =>
    cases i <;> cases he
    exact ⟨_, fetch_pin_true rfl, trivial⟩

end Sys2Proof.Machine
end

section
/-! PROOFS. The padded sequence as words (`40_padder.md` R144): each word of the contract as the micro-operation that is to
write it has it (R133 to R140). -/

namespace Sys2Proof.Contract

open Machine

variable {M : Nat → Byte} {L i k : Nat}

/-! ### The four kinds of bytes -/

theorem paddedByte_of_lt (h : k < L) : paddedByte M L k = M k := if_pos h

@[simp] theorem paddedByte_marker (M : Nat → Byte) (L : Nat) : paddedByte M L L = 0x80 := by
  simp [paddedByte]

theorem paddedByte_zero (h : L < k) (hlen : k + 8 < 64 * blocks L) : paddedByte M L k = 0 := by
  rw [paddedByte, if_neg (by omega), if_neg (by omega), if_pos hlen]

theorem paddedByte_length (h : L < k) (hlen : 64 * blocks L ≤ k + 8) {e : Nat} (he : e = 8 * (64 * blocks L - 1 - k)) :
    paddedByte M L k = BitVec.ofNat 8 (8 * L / 2 ^ e) := by
  rw [paddedByte, if_neg (by omega), if_neg (by omega), if_neg (by omega), he]

/-! ### The words -/

/-- R90: format WORD as a number. -/
theorem toNat_messageWord (b0 b1 b2 b3 : Byte) : (messageWord b0 b1 b2 b3).toNat =
    b0.toNat * 2 ^ 24 + b1.toNat * 2 ^ 16 + b2.toNat * 2 ^ 8 + b3.toNat := by
  simp only [messageWord, toNat_append_eq_add]
  omega

/-- R66, R90: the two spellings of a big-endian word. -/
theorem paddedWord_eq_messageWord (M : Nat → Byte) (L i : Nat) : paddedWord M L i =
    messageWord (paddedByte M L (4 * i)) (paddedByte M L (4 * i + 1)) (paddedByte M L (4 * i + 2))
      (paddedByte M L (4 * i + 3)) := by
  rw [paddedWord, ← toNat_messageWord, BitVec.ofNat_toNat, BitVec.setWidth_eq]

/-- A number's four low bytes, most significant first. -/
theorem messageWord_ofNat (x : Nat) :
    messageWord (BitVec.ofNat 8 (x / 2 ^ 24)) (BitVec.ofNat 8 (x / 2 ^ 16)) (BitVec.ofNat 8 (x / 2 ^ 8))
      (BitVec.ofNat 8 x) = BitVec.ofNat 32 x := by
  refine BitVec.eq_of_toNat_eq ?_
  simp only [toNat_messageWord, BitVec.toNat_ofNat]
  omega

/-- R133. -/
theorem paddedWord_message (h : 4 * i + 3 < L) :
    paddedWord M L i = messageWord (M (4 * i)) (M (4 * i + 1)) (M (4 * i + 2)) (M (4 * i + 3)) := by
  rw [paddedWord_eq_messageWord, paddedByte_of_lt (by omega), paddedByte_of_lt (by omega), paddedByte_of_lt (by omega),
    paddedByte_of_lt h]

/-- R138. -/
theorem paddedWord_zero (h : L < 4 * i) (hlen : i + 2 < 16 * blocks L) : paddedWord M L i = 0 := by
  rw [paddedWord_eq_messageWord, paddedByte_zero (by omega) (by omega), paddedByte_zero (by omega) (by omega),
    paddedByte_zero (by omega) (by omega), paddedByte_zero (by omega) (by omega)]
  rfl

/-- R139. -/
theorem paddedWord_lengthHigh (h : L < 4 * i) (hlen : i + 2 = 16 * blocks L) :
    paddedWord M L i = BitVec.ofNat 32 (8 * L / 2 ^ 32) := by
  rw [paddedWord_eq_messageWord, paddedByte_length (e := 56) (by omega) (by omega) (by omega),
    paddedByte_length (e := 48) (by omega) (by omega) (by omega),
    paddedByte_length (e := 40) (by omega) (by omega) (by omega),
    paddedByte_length (e := 32) (by omega) (by omega) (by omega), ← messageWord_ofNat (8 * L / 2 ^ 32)]
  simp only [Nat.div_div_eq_div_mul, ← Nat.pow_add]

/-- R140. -/
theorem paddedWord_lengthLow (h : L < 4 * i) (hlen : i + 1 = 16 * blocks L) :
    paddedWord M L i = BitVec.ofNat 32 (8 * L) := by
  rw [paddedWord_eq_messageWord, paddedByte_length (e := 24) (by omega) (by omega) (by omega),
    paddedByte_length (e := 16) (by omega) (by omega) (by omega),
    paddedByte_length (e := 8) (by omega) (by omega) (by omega),
    paddedByte_length (e := 0) (by omega) (by omega) (by omega), ← messageWord_ofNat (8 * L), Nat.pow_zero, Nat.div_one]

end Sys2Proof.Contract
end

section
/-! PROOFS. The schedule and the rounds of the contract (`41_compressor.md` R160, R162 to R164, R173), in the machine's
spelling. -/

namespace Sys2Proof.Contract

open Machine

/-! ### The logical schedule -/

theorem schedule_of_lt {t : Nat} (block : Nat → Word) (h : t < 16) : schedule block t = block t := if_pos h

theorem schedule_add_sixteen (block : Nat → Word) (n : Nat) :
    schedule block (n + 16) = nextScheduleWord (scheduleRev block n) := by
  rw [schedule, if_neg (by omega), show n + 16 - 15 = n + 1 by omega]
  rfl

/-- The list holds the schedule up to `w_(n+15)`, newest first. -/
theorem getD_scheduleRev (block : Nat → Word) {n j : Nat} (h : j ≤ n + 15) :
    (scheduleRev block n).getD j 0 = schedule block (n + 15 - j) := by
  induction n generalizing j with
  | zero =>
    have hj : j < 16 := by omega
    rw [schedule_of_lt block (by omega)]
    simp [scheduleRev, List.getD_eq_getElem?_getD, hj]
  | succ n ih =>
    cases j with
    | zero => rw [show n + 1 + 15 - 0 = n + 16 by omega, schedule_add_sixteen]; rfl
    | succ j =>
      rw [show n + 1 + 15 - (j + 1) = n + 15 - j by omega, ← ih (by omega)]
      rfl

/-- R173: the rule's recursion. -/
theorem schedule_eq (block : Nat → Word) {t : Nat} (h : 16 ≤ t) : schedule block t =
    (schedule block (t - 3) ^^^ schedule block (t - 8) ^^^ schedule block (t - 14) ^^^
      schedule block (t - 16)).rotateLeft 1 := by
  obtain ⟨n, rfl⟩ := Nat.exists_eq_add_of_le' h
  rw [schedule_add_sixteen, nextScheduleWord, getD_scheduleRev block (by omega), getD_scheduleRev block (by omega),
    getD_scheduleRev block (by omega), getD_scheduleRev block (by omega)]
  rfl

/-! ### The round functions -/

/-- R164: choose, bit by bit. -/
theorem choose_eq (b c d : Word) : choose b c d = (b &&& c) ||| (~~~b &&& d) := by
  refine BitVec.eq_of_getLsbD_eq fun i hi => ?_
  simp only [choose, BitVec.getLsbD_xor, BitVec.getLsbD_and, BitVec.getLsbD_or, BitVec.getLsbD_not, hi, decide_true,
    Bool.true_and]
  generalize b.getLsbD i = x, c.getLsbD i = y, d.getLsbD i = z
  revert x y z
  decide

/-- R164: majority, bit by bit. -/
theorem majority_eq (b c d : Word) : majority b c d = (b &&& c) ||| (b &&& d) ||| (c &&& d) := by
  refine BitVec.eq_of_getLsbD_eq fun i hi => ?_
  simp only [majority, BitVec.getLsbD_xor, BitVec.getLsbD_and, BitVec.getLsbD_or]
  generalize b.getLsbD i = x, c.getLsbD i = y, d.getLsbD i = z
  revert x y z
  decide

end Sys2Proof.Contract
end

section
/-! PROOFS. The data invariant (`State.DataInv`), kept by the block's own turn micro-operation by micro-operation, and so by
every agent's step. -/

namespace Sys2Proof.Machine

variable {s t : State}

/-! ### The words the Padder writes -/

/-- R134 to R137: the marker follows what is left of the message. -/
theorem State.OnCourse.tailDue_eq (h : s.OnCourse) (hf : s.FSM = .tail) :
    s.tailDue = Contract.paddedWord s.msgByte s.LEN.toNat s.IDX := by
  have hleft := h.tail_left hf
  have hroom := (h.bounds (by rw [hf]; rfl)).1
  rw [h.counted_of_holdsPad (by rw [hf]; rfl), blockCount_eq] at hroom
  have hidx : s.IDX = s.LEN.toNat / 4 := by simpa [State.indexInPlace, hf] using h.index
  have hmarker {k : Nat} (hk : s.LEN.toNat = k) : Contract.paddedByte s.msgByte s.LEN.toNat k = 0x80 :=
    hk ▸ Contract.paddedByte_marker _ _
  have hzero {k : Nat} (hk : s.LEN.toNat < k) (hk' : k < 4 * s.IDX + 4) :
      Contract.paddedByte s.msgByte s.LEN.toNat k = 0 :=
    Contract.paddedByte_zero hk (by unfold Contract.blocks; omega)
  rw [Contract.paddedWord_eq_messageWord]
  obtain h4 | h4 | h4 | h4 := lt_four_cases (Nat.mod_lt s.LEN.toNat (by decide : 0 < 4)) <;>
    simp only [State.tailDue, h4]
  · rw [hmarker (by omega), hzero (by omega) (by omega), hzero (by omega) (by omega), hzero (by omega) (by omega)]
    rfl
  · rw [Contract.paddedByte_of_lt (by omega), hmarker (by omega), hzero (by omega) (by omega),
      hzero (by omega) (by omega)]
    rfl
  · rw [Contract.paddedByte_of_lt (by omega), Contract.paddedByte_of_lt (by omega), hmarker (by omega),
      hzero (by omega) (by omega)]
    rfl
  · rw [Contract.paddedByte_of_lt (by omega), Contract.paddedByte_of_lt (by omega), Contract.paddedByte_of_lt (by omega),
      hmarker (by omega)]
    rfl

/-- From P.COUNT on, `N` is the contract's block count. -/
theorem State.OnCourse.blocks_eq (h : s.OnCourse) (hf : s.FSM.holdsPad = true) :
    Contract.blocks s.LEN.toNat = s.N := by
  rw [h.counted_of_holdsPad hf, blockCount_eq]
  rfl

/-! ### The rounds -/

/-- R162, R173: the taps of C.SCHED are the four words of the rule, where the ring holds the schedule. -/
theorem scheduleWord_eq {w : Vector Word 16} {block : Nat → Word} {n : Nat} (hn : 16 ≤ n)
    (hw : ∀ u, u ≤ n - 1 → n - 1 < u + 16 → ringAt w u = Contract.schedule block u) :
    scheduleWord w n = Contract.schedule block n := by
  have htap {a u : Nat} (ha : a % 16 = u % 16) (hu : u ≤ n - 1) (hu' : n - 1 < u + 16) :
      ringAt w a = Contract.schedule block u := by
    rw [← ringAt_mod, ha, ringAt_mod, hw u hu hu']
  rw [scheduleWord, rotl_eq_rotateLeft, Contract.schedule_eq block hn, htap (u := n - 3) (by omega) (by omega) (by omega),
    htap (u := n - 8) (by omega) (by omega) (by omega), htap (u := n - 14) (by omega) (by omega) (by omega),
    htap (u := n - 16) (by omega) (by omega) (by omega)]

/-- R163, R164, R167 to R170: the constant and the function of the round due. -/
theorem tempDue_eq (hT : s.T.toNat < 80) :
    s.tempDue = s.roundSum (Contract.roundConstant s.T.toNat) (Contract.roundFunction s.T.toNat) := by
  obtain h4 | h4 | h4 | h4 := lt_four_cases (show s.T.toNat / 20 < 4 by omega) <;>
    simp (disch := omega) only [State.tempDue, State.roundSum, h4, Contract.roundConstant, Contract.roundFunction,
      if_pos, if_neg, Contract.choose_eq, Contract.majority_eq, parity]

/-- The working registers, as the contract has them. -/
def State.working (s : State) : Vector Word 5 := #v[s.A, s.B, s.C, s.D, s.E]

/-- R160, R166: the register shift is the contract's round. -/
theorem working_shiftRound {block : Nat → Word} (hT : s.T.toNat < 80)
    (hw : ringAt s.W s.T.toNat = Contract.schedule block s.T.toNat) :
    (s.shiftRound s.tempDue).working = Contract.round block s.T.toNat s.working := by
  simp [State.working, Contract.round, tempDue_eq hT, State.roundSum, hw, rotl_eq_rotateLeft]

/-! ### The clauses of the data invariant -/

/-- Every word written so far is the finished sequence's (R93, R144). -/
def State.PadAgrees (s : State) : Prop :=
  s.PVALID = true → ∀ i, i < s.IDX → s.padWord i = Contract.paddedWord s.msgByte s.LEN.toNat i

/-- `H` is the Hash after the first `BLK` blocks (R191). -/
def State.HashAgrees (s : State) : Prop :=
  s.FSM.hashing = true → s.H = Contract.chain s.msgByte s.LEN.toNat s.BLK

/-- Outside the rounds of a block the invariant is about `P` and `H` alone. -/
theorem dataInv_of_not_inBlock (hf : s.FSM.inBlock = false) (hpad : s.PadAgrees) (hhash : s.HashAgrees) : s.DataInv where
  pad := hpad
  hash := hhash
  work hs := by rcases hs with hs | hs | hs <;> rw [hs] at hf <;> cases hf
  ring hs := by rcases hs with hs | hs <;> rw [hs] at hf <;> cases hf

theorem hashAgrees_of_not_hashing (hf : s.FSM.hashing = false) : s.HashAgrees :=
  fun hs => by rw [hf] at hs; cases hs

/-- Before O.INIT the invariant is about `P` alone. -/
theorem dataInv_of_not_hashing (hf : s.FSM.hashing = false) (hpad : s.PadAgrees) : s.DataInv :=
  dataInv_of_not_inBlock (Bool.eq_false_iff.2 fun hb => by simp [Fsm.hashing_of_inBlock hb] at hf) hpad
    (hashAgrees_of_not_hashing hf)

theorem Fsm.holdsPad_of_hashing {f : Fsm} : f.hashing = true → f.holdsPad = true := by
  cases f <;> decide

/-- Where no storage is held the invariant asks nothing. -/
theorem State.Inv.dataInv_of_free (h : s.Inv) (hf : s.FSM.holdsPad = false) : s.DataInv := by
  refine dataInv_of_not_hashing (Bool.eq_false_iff.2 fun hh => ?_) fun hv => ?_
  · rw [Fsm.holdsPad_of_hashing hh] at hf
    cases hf
  · rw [h.pvalid, hf] at hv
    cases hv

theorem State.DataInv.of_environment (h : s.DataInv) (inbox : List Turn) (rst : Bool) (rdata : Word) (draws : Nat) :
    ({ s with inbox, rst, rdata, draws } : State).DataInv :=
  ⟨h.pad, h.hash, h.work, h.ring⟩

/-! ### The micro-operations of the Padder and the Orchestrator -/

/-- R133 to R140: a word written as the contract has it. -/
theorem State.DataInv.pushPad (h : s.DataInv) {v : Word} (hv : v = Contract.paddedWord s.msgByte s.LEN.toNat s.IDX)
    {f : Fsm} (hf : f.hashing = false) : (s.pushPad v f).DataInv := by
  refine dataInv_of_not_hashing hf fun hp i hi => ?_
  rw [padWord_pushPad]
  split
  case isTrue heq => rw [hv, heq]; rfl
  case isFalse hne =>
    rw [State.pushPad_IDX] at hi
    exact h.pad hp i (by omega)

theorem State.DataInv.initHash (h : s.DataInv) : s.initHash.DataInv :=
  dataInv_of_not_inBlock rfl h.pad fun _ => rfl

/-- R193: what O.NEXT chooses, it leaves `P` and `H` as they are. -/
theorem State.DataInv.goto (h : s.DataInv) (hs : s.FSM.hashing = true) {f : Fsm} (hf : f.inBlock = false) :
    (s.goto f).DataInv :=
  dataInv_of_not_inBlock hf h.pad fun _ => h.hash hs

/-! ### The micro-operations of the Compressor -/

theorem vector_five_eta (v : Vector Word 5) : #v[v[0], v[1], v[2], v[3], v[4]] = v := by
  refine Vector.ext fun i hi => ?_
  interval_cases i <;> rfl

/-- R161: the ring holds the block's words, which have all been written, and `A..E` hold `H`. -/
theorem State.DataInv.loadBlock (h : s.DataInv) (hc : s.OnCourse) (hf : s.FSM = .load) :
    (s.loadBlock s.blockDue).DataInv where
  pad := h.pad
  hash _ := h.hash (by rw [hf]; rfl)
  work _ := vector_five_eta s.H
  ring _ u hu _ := by
    have hu16 : u < 16 := Nat.lt_succ_of_le hu
    have hidx : s.IDX = 16 * s.N := by simpa [State.indexInPlace, hf] using hc.index
    have hlt : s.BLK < s.N := by simpa [State.roundsInPlace, hf] using hc.rounds
    have hpad := h.pad (hc.block_within hf).1 (16 * s.BLK + u) (by omega)
    rw [Contract.schedule_of_lt _ hu16]
    refine Eq.trans ?_ hpad
    simp only [State.loadBlock_W, State.blockDue, ringAt, Vector.getElem_ofFn, Nat.mod_eq_of_lt hu16]

/-- R162: the slot of round `T - 16` takes the word of round `T`. -/
theorem State.DataInv.putSchedule (h : s.DataInv) (hc : s.OnCourse) (hf : s.FSM = .sched) :
    (s.putSchedule (scheduleWord s.W s.T.toNat)).DataInv where
  pad := h.pad
  hash _ := h.hash (by rw [hf]; rfl)
  work _ := h.work (.inl hf)
  ring _ u hu hu' := by
    obtain ⟨-, hT, -⟩ : s.BLK < s.N ∧ 16 ≤ s.T.toNat ∧ s.T.toNat ≤ 79 := by
      simpa [State.roundsInPlace, hf] using hc.rounds
    have hring := h.ring (.inl hf)
    simp only [State.lastScheduled, hf, State.putSchedule_FSM, State.putSchedule_T] at hring hu hu'
    rw [State.putSchedule_W, ringAt_ringSet]
    split
    case isTrue hmod =>
      obtain rfl : u = s.T.toNat := by omega
      exact scheduleWord_eq hT hring
    case isFalse hmod =>
      have hne : u ≠ s.T.toNat := fun heq => hmod (by rw [heq])
      exact hring u (by omega) (by omega)

/-- A round leaves the ring, and with it the last round scheduled, as it is (R166, R173). -/
theorem lastScheduled_shiftRound (hf : s.FSM = .round) (hT : s.T.toNat < 80) (temp : Word)
    (h80 : (s.shiftRound temp).FSM ≠ .feed) : (s.shiftRound temp).lastScheduled = s.lastScheduled := by
  have hsucc := toNat_round_succ hT
  rw [State.shiftRound_FSM] at h80
  simp only [State.lastScheduled, hf, State.shiftRound_FSM, State.shiftRound_T, hsucc]
  unfold afterRound at h80 ⊢
  split_ifs at h80 ⊢
  · exact absurd rfl h80
  · show s.T.toNat + 1 - 1 = _
    omega
  · show max (s.T.toNat + 1) 15 = _
    omega

theorem State.DataInv.shiftRound (h : s.DataInv) (hc : s.OnCourse) (hf : s.FSM = .round) :
    (s.shiftRound s.tempDue).DataInv := by
  have hT := hc.round_below hf
  have hlast : s.lastScheduled = max s.T.toNat 15 := by simp [State.lastScheduled, hf]
  constructor
  case pad => exact h.pad
  case hash => exact fun _ => h.hash (by rw [hf]; rfl)
  case work =>
    intro _
    rw [State.shiftRound_T, toNat_round_succ hT]
    have hw := h.ring (.inr hf) s.T.toNat (by omega) (by omega)
    exact (working_shiftRound hT hw).trans (congrArg _ (h.work (.inr (.inl hf))))
  case ring =>
    intro hs
    rw [lastScheduled_shiftRound hf hT _ (by rcases hs with hs | hs <;> rw [hs] <;> decide)]
    exact h.ring (.inr hf)

/-- R172, R191: the Hash after one more block. -/
theorem State.DataInv.feedForward (h : s.DataInv) (hc : s.OnCourse) (hf : s.FSM = .feed) : s.feedForward.DataInv := by
  refine dataInv_of_not_inBlock rfl h.pad fun _ => ?_
  obtain ⟨-, hT⟩ : s.BLK < s.N ∧ s.T.toNat = 80 := by simpa [State.roundsInPlace, hf] using hc.rounds
  have hhash := h.hash (by rw [hf]; rfl)
  have hwork := h.work (.inr (.inr hf))
  rw [hT] at hwork
  show Contract.feedForward s.H #v[s.A, s.B, s.C, s.D, s.E] = _
  rw [hwork, hhash]
  rfl

/-! ### Every step -/

/-- The block's own turn keeps the data invariant. -/
theorem State.DataInv.advance (h : s.DataInv) (hs : s.Inv) : s.advance.DataInv := by
  have hc := hs.onCourse
  cases hf : s.FSM
  case idle | count | release | fail =>
    exact hs.advance.dataInv_of_free (by simp [State.advance, hf, Fsm.holdsPad])
  case alloc =>
    by_cases hok : s.allocOK (16 * s.N) = true
    · rw [show s.advance = s.allocated by simp [State.advance, hf, hok]]
      exact dataInv_of_not_hashing (hashing_afterAlloc _) fun _ _ hi => absurd hi (Nat.not_lt_zero _)
    · exact hs.advance.dataInv_of_free (by simp [State.advance, hf, hok, Fsm.holdsPad])
  all_goals simp only [State.advance, hf]
  case init => exact h.initHash
  case next => exact h.goto (by rw [hf]; rfl) (by split <;> rfl)
  case load => exact h.loadBlock hc hf
  case sched => exact h.putSchedule hc hf
  case round => exact h.shiftRound hc hf
  case feed => exact h.feedForward hc hf
  all_goals
    have hi := hc.index
    have hN := hc.blocks_eq (by rw [hf]; rfl)
    have hbounds := (hc.bounds (by rw [hf]; rfl)).1
    simp only [State.indexInPlace, hf] at hi
  case copy => exact h.pushPad (Contract.paddedWord_message (hc.word_below hf)).symm (hashing_afterWord _ _)
  case tail => exact h.pushPad (hc.tailDue_eq hf) (hashing_afterFill _)
  case zero => exact h.pushPad (Contract.paddedWord_zero (by omega) (by omega)).symm (hashing_afterFill _)
  case lenhi => exact h.pushPad (Contract.paddedWord_lengthHigh (by omega) (by omega)).symm rfl
  case lenlo => exact h.pushPad (Contract.paddedWord_lengthLow (by omega) (by omega)).symm rfl

/-- A host transaction starts a computation or writes `LEN` only where no storage is held. -/
theorem State.DataInv.host (h : s.DataInv) (hs : s.Inv) {i : Instr} (hi : i.isHost = true) (he : exec i s = .next t) :
    t.DataInv := by
  have ht := hs.host hi he
  obtain rfl | ⟨v, rfl⟩ | ⟨k, rfl⟩ | ⟨hb, rfl | ⟨len, rfl⟩⟩ := (exec_does he).host_cases hi
  · exact h
  · exact h.of_environment s.inbox s.rst v s.draws
  · exact h.of_environment s.inbox s.rst _ _
  · exact ht.dataInv_of_free rfl
  · exact ht.dataInv_of_free (by rw [State.setLen_FSM, hs.idle hb]; rfl)

theorem State.DataInv.takeTurn (h : s.DataInv) (rest : List Turn) : (s.takeTurn rest).DataInv :=
  h.of_environment rest s.rst s.rdata s.draws

/-- Settles O53: the block's turn is `State.advance` on course, reset and the placing of a message leave the block without
storage, and nothing else of the environment's is in the invariant. -/
theorem everyStepKeepsTheDataInvariant : Obligations.EveryStepKeepsTheDataInvariant := by
  intro s t hs h hstep
  have ht := everyStepKeepsTheControlInvariant s t hs hstep
  rcases step_cases hstep with ⟨-, -, rfl⟩ | ⟨hb, hr, -⟩ | ⟨_, _, rest, -, -, rfl⟩ |
    ⟨_, _, rest, i, -, -, hd, he⟩ | ⟨_, _, rest, -, -, -, rfl⟩ | ⟨_, _, rest, -, -, -, rfl⟩ | ⟨rest, -, he⟩ |
    ⟨rest, -, rfl⟩ | ⟨bytes, rest, -, hb, rfl⟩
  · exact h.takeTurn _
  · rw [hs.onCourse.step_eq hb hr] at hstep
    cases hstep
    exact (h.takeTurn _).advance (hs.takeTurn _)
  · exact h.takeTurn rest
  · exact (h.takeTurn rest).host (hs.takeTurn rest) (isHost_of_decode_host hd) he
  · exact h.of_environment rest s.rst 0 s.draws
  · exact h.takeTurn rest
  · cases he
    exact ht.dataInv_of_free rfl
  · exact h.of_environment rest false s.rdata s.draws
  · exact ht.dataInv_of_free (by rw [State.placeMessage_FSM, State.takeTurn_FSM, hs.idle hb]; rfl)

end Sys2Proof.Machine
end

section
/-! PROOFS. The finished sequence as a byte string (`40_padder.md` R142, R144): the bytes of a word by their places, the two
length words as one number, and that only the message's own bytes matter. -/

namespace Sys2Proof.Contract

open Machine

variable {M M' : Nat → Byte} {L : Nat}

/-- R90, R142: byte `j` of a word stands at bits `31 - 8*j` down. -/
theorem extractLsb'_messageWord (b0 b1 b2 b3 : Byte) :
    (messageWord b0 b1 b2 b3).extractLsb' 24 8 = b0 ∧ (messageWord b0 b1 b2 b3).extractLsb' 16 8 = b1 ∧
      (messageWord b0 b1 b2 b3).extractLsb' 8 8 = b2 ∧ (messageWord b0 b1 b2 b3).extractLsb' 0 8 = b3 := by
  refine ⟨?_, ?_, ?_, ?_⟩ <;> refine BitVec.eq_of_toNat_eq ?_ <;>
    simp only [BitVec.extractLsb'_toNat, toNat_messageWord, Nat.shiftRight_eq_div_pow] <;> omega

/-- R142, R144: word `k div 4` has byte `k` at its place. -/
theorem extractLsb'_paddedWord (M : Nat → Byte) (L k : Nat) :
    (paddedWord M L (k / 4)).extractLsb' (24 - 8 * (k % 4)) 8 = paddedByte M L k := by
  obtain ⟨h0, h1, h2, h3⟩ := extractLsb'_messageWord (paddedByte M L (4 * (k / 4))) (paddedByte M L (4 * (k / 4) + 1))
    (paddedByte M L (4 * (k / 4) + 2)) (paddedByte M L (4 * (k / 4) + 3))
  have hk := Nat.div_add_mod k 4
  rw [paddedWord_eq_messageWord]
  obtain h4 | h4 | h4 | h4 := lt_four_cases (Nat.mod_lt k (by decide : 0 < 4)) <;> rw [h4] at hk ⊢
  · exact h0.trans (congrArg _ hk)
  · exact h1.trans (congrArg _ hk)
  · exact h2.trans (congrArg _ hk)
  · exact h3.trans (congrArg _ hk)

/-- R139, R140: the two length words are the halves of the bit length. -/
theorem lengthWords_toNat (M : Nat → Byte) (hL : L < 2 ^ 61) :
    (paddedWord M L (16 * blocks L - 2)).toNat * 2 ^ 32 + (paddedWord M L (16 * blocks L - 1)).toNat = 8 * L := by
  have hroom : L + 9 ≤ 64 * blocks L := by unfold blocks; omega
  rw [paddedWord_lengthHigh (by omega) (by omega), paddedWord_lengthLow (by omega) (by omega), BitVec.toNat_ofNat,
    BitVec.toNat_ofNat]
  omega

/-- Settles O26: each byte at its place by `extractLsb'_paddedWord`, the kinds of bytes by their lemmas. -/
theorem sequenceReadsAsTheByteString : Obligations.SequenceReadsAsTheByteString := fun M L k =>
  ⟨extractLsb'_paddedWord M L k, paddedByte_of_lt, paddedByte_marker M L, paddedByte_zero, lengthWords_toNat M⟩

/-- Only the bytes below the length are the message's. -/
theorem paddedByte_congr (h : ∀ off, off < L → M off = M' off) (k : Nat) : paddedByte M L k = paddedByte M' L k := by
  by_cases hk : k < L
  · rw [paddedByte_of_lt hk, paddedByte_of_lt hk, h k hk]
  · rw [paddedByte, paddedByte, if_neg hk, if_neg hk]

theorem paddedWord_congr (h : ∀ off, off < L → M off = M' off) (i : Nat) : paddedWord M L i = paddedWord M' L i := by
  simp only [paddedWord, paddedByte_congr h]

end Sys2Proof.Contract
end

section
/-! PROOFS. The Padder's micro-operations one by one (`40_padder.md` R131 to R140): the words they write in the sums of the
rules, and the store they have in common. -/

namespace Sys2Proof.Machine

variable {s : State}

/-! ### Counting and allocation -/

/-- Settles O19: the closed form is `blockCount_eq`, its leastness arithmetic. -/
theorem countStoresTheLeastNumberOfBlocks : Obligations.CountStoresTheLeastNumberOfBlocks := by
  refine ⟨fun s => ?_, fun L => ⟨(blockCount_eq L).symm, by omega, fun n => by omega⟩⟩
  rw [← blockCount_eq]
  rfl

theorem exec_pAlloc_granted (h : s.allocOK (16 * s.N) = true) : exec .pAlloc s = .next s.allocated :=
  congrArg Host.Outcome.next (if_pos h)

theorem exec_pAlloc_refused (h : s.allocOK (16 * s.N) = false) : exec .pAlloc s = .next s.raiseResourceExhausted :=
  congrArg Host.Outcome.next (if_neg (by simp [h]))

/-- Settles O20: the two answers of P.ALLOC. -/
theorem allocObtainsTheStorageOrRaises : Obligations.AllocObtainsTheStorageOrRaises :=
  ⟨fun _ => exec_pAlloc_granted, fun _ => exec_pAlloc_refused⟩

/-- D8: a store of `cap` words grants the requests that fit. -/
theorem allocOK_of_capacity {cap : Nat} (h : s.alloc = .capacity cap) (words : Nat) :
    s.allocOK words = decide (words ≤ cap) := by
  simp only [State.allocOK, h]

theorem afterAlloc_ne_fail (len : Nat) : afterAlloc len ≠ .fail :=
  fun hf => by simpa [hf, Fsm.holdsPad] using holdsPad_afterAlloc len

/-- Settles O21: the request of P.ALLOC fits the capacity, and the storage is granted, or it does not, and FAIL follows. -/
theorem capacityDecidesAllocation : Obligations.CapacityDecidesAllocation := by
  intro s cap hcap hN
  have hok := allocOK_of_capacity hcap (16 * s.N)
  rw [← hN]
  by_cases hfit : 16 * s.N ≤ cap
  · refine ⟨_, exec_pAlloc_granted (by simpa [hfit] using hok), ?_, fun _ => ⟨rfl, hfit⟩⟩
    exact iff_of_false (afterAlloc_ne_fail _) (Nat.not_lt.2 hfit)
  · refine ⟨_, exec_pAlloc_refused (by simpa [hfit] using hok), ?_, fun hf => absurd rfl hf⟩
    exact iff_of_true rfl (Nat.lt_of_not_le hfit)

/-! ### The words in the sums of the rules -/

/-- R66, R90. -/
theorem messageWord_eq_ofNat (b0 b1 b2 b3 : Byte) : messageWord b0 b1 b2 b3 =
    BitVec.ofNat 32 (b0.toNat * 2 ^ 24 + b1.toNat * 2 ^ 16 + b2.toNat * 2 ^ 8 + b3.toNat) :=
  eq_ofNat_of_toNat_eq (Contract.toNat_messageWord b0 b1 b2 b3)

/-- R135. -/
theorem tailWord1_eq_ofNat (b0 : Byte) : tailWord1 b0 = BitVec.ofNat 32 (b0.toNat * 2 ^ 24 + 0x00800000) := by
  simp [tailWord1, messageWord_eq_ofNat]

/-- R136. -/
theorem tailWord2_eq_ofNat (b0 b1 : Byte) :
    tailWord2 b0 b1 = BitVec.ofNat 32 (b0.toNat * 2 ^ 24 + b1.toNat * 2 ^ 16 + 0x00008000) := by
  simp [tailWord2, messageWord_eq_ofNat]

/-- R137. -/
theorem tailWord3_eq_ofNat (b0 b1 b2 : Byte) : tailWord3 b0 b1 b2 =
    BitVec.ofNat 32 (b0.toNat * 2 ^ 24 + b1.toNat * 2 ^ 16 + b2.toNat * 2 ^ 8 + 0x00000080) :=
  messageWord_eq_ofNat b0 b1 b2 0x80

/-- R92, R139: `LEN[60:29]`. -/
theorem lengthHigh_eq_ofNat (len : BitVec 61) : lengthHigh len = BitVec.ofNat 32 (len.toNat / 2 ^ 29) := by
  rw [lengthHigh, bitLength, show 8 * len.toNat / 2 ^ 32 = len.toNat / 2 ^ 29 by omega]

/-- R92, R140: the bits of `8 * LEN` from 32 up are cut off. -/
theorem lengthLow_eq_ofNat (len : BitVec 61) : lengthLow len = BitVec.ofNat 32 (len.toNat % 2 ^ 29 * 8) := by
  refine BitVec.eq_of_toNat_eq ?_
  simp only [lengthLow, bitLength, BitVec.toNat_ofNat]
  omega

/-! ### The stores -/

theorem padStore_pushPad (s : State) (v : Word) (f : Fsm) : s.PadStore (s.pushPad v f) v f :=
  ⟨fun j => Memory.read_write s.P s.IDX j v, rfl⟩

/-- Within the allocation a Padder write completes, and stores its word. -/
theorem padStore_of_storeNext {i : Instr} {v w : Word} {next : Nat → Fsm} (hv : s.PVALID = true) (hidx : s.IDX < s.PLEN)
    (he : exec i s = outcome (s.storeNext w next)) (hw : w = v) :
    ∃ t, exec i s = .next t ∧ s.PadStore t v (next (s.IDX + 1)) := by
  subst hw
  exact ⟨_, he.trans (storeNext_of_room hv hidx w next), padStore_pushPad s w _⟩

/-- Settles O22: the four bytes are below `4 * q`, so below `LEN`. -/
theorem wordCopiesFourBytesBigEndian : Obligations.WordCopiesFourBytesBigEndian := by
  intro s hv hidx hq
  refine padStore_of_storeNext hv hidx (next := afterWord s.LEN.toNat) ?_ (messageWord_eq_ofNat _ _ _ _)
  rw [exec_pWord_eq, if_pos (by omega)]
  rfl

/-- Settles O23: each of the four forms is a store of its word. -/
theorem tailWritesTheMarkerWord : Obligations.TailWritesTheMarkerWord := by
  intro s hv hidx
  have store {i : Instr} {v w : Word} := padStore_of_storeNext (i := i) (v := v) (w := w) (next := afterFill) hv hidx
  exact ⟨store rfl rfl,
    fun h => store (((exec_pTail1_eq s).trans (if_pos h))) (tailWord1_eq_ofNat _),
    fun h => store (((exec_pTail2_eq s).trans (if_pos h))) (tailWord2_eq_ofNat _ _),
    fun h => store (((exec_pTail3_eq s).trans (if_pos h))) (tailWord3_eq_ofNat _ _ _)⟩

/-- Settles O24: each of the three is a store of its word, and the two halves of `8 * LEN` are split at `2^29` bytes. -/
theorem fillWritesZerosAndTheBitLength : Obligations.FillWritesZerosAndTheBitLength := fun s hv hidx =>
  ⟨padStore_of_storeNext hv hidx (next := afterFill) rfl rfl,
    padStore_of_storeNext hv hidx (next := fun _ => .lenlo) rfl (lengthHigh_eq_ofNat s.LEN),
    padStore_of_storeNext hv hidx (next := fun _ => .init) rfl (lengthLow_eq_ofNat s.LEN), by omega⟩

end Sys2Proof.Machine
end

section
/-! PROOFS. The Padder as a whole (`40_padder.md` R130, R144): each of its writes stores the contract's word, so `k` of them in
a row store `k` words (`State.PaddedBy`), and all `16 * N` the finished sequence. -/

namespace Sys2Proof.Machine

variable {s t : State} {k : Nat}

/-- `t` is `s` after the next `k` words of the finished sequence have been written, and nothing else. -/
structure State.PaddedBy (s : State) (k : Nat) (t : State) : Prop where
  frame : t = { s with P := t.P, IDX := s.IDX + k, FSM := t.FSM }
  words : ∀ i, Memory.read t.P i =
    if s.IDX ≤ i ∧ i < s.IDX + k then some (Contract.paddedWord s.msgByte s.LEN.toNat i) else Memory.read s.P i

theorem State.PaddedBy.zero (s : State) : s.PaddedBy 0 s where
  frame := rfl
  words i := by rw [if_neg (by omega)]

@[simp] theorem msgByte_counted (s : State) (n : Nat) : (s.counted n).msgByte = s.msgByte := rfl

@[simp] theorem msgByte_allocated (s : State) : s.allocated.msgByte = s.msgByte := rfl

/-- One word, then `k` more. -/
theorem State.PaddedBy.of_pushPad {f : Fsm}
    (h : (s.pushPad (Contract.paddedWord s.msgByte s.LEN.toNat s.IDX) f).PaddedBy k t) : s.PaddedBy (k + 1) t where
  frame := h.frame.trans (by rw [State.pushPad_IDX, Nat.add_assoc, Nat.add_comm 1]; rfl)
  words i := by
    rw [h.words i, State.pushPad_IDX, State.pushPad_P, Memory.read_write]
    by_cases hfirst : i = s.IDX
    · rw [if_neg (by omega), if_pos hfirst, if_pos (by omega), hfirst]
    · by_cases hlater : s.IDX + 1 ≤ i ∧ i < s.IDX + 1 + k
      · rw [if_pos hlater, if_pos (by omega)]
        rfl
      · rw [if_neg hlater, if_neg hfirst, if_neg (by omega)]

/-- While the Padder writes, and at INIT when it has ended. -/
def Fsm.padding (f : Fsm) : Prop := f.pads = true ∨ f = .init

theorem padding_afterAlloc (len : Nat) : (afterAlloc len).padding := by
  unfold afterAlloc; split <;> exact .inl rfl

theorem padding_afterWord (len idx : Nat) : (afterWord len idx).padding := by
  unfold afterWord; split <;> exact .inl rfl

theorem padding_afterFill (idx : Nat) : (afterFill idx).padding := by
  unfold afterFill; split <;> exact .inl rfl

/-- R133 to R140, R144: on course, each of the Padder's writes is of the contract's word. -/
theorem State.OnCourse.advance_of_pads (h : s.OnCourse) (hf : s.FSM.pads = true) :
    ∃ f, f.padding ∧ s.advance = s.pushPad (Contract.paddedWord s.msgByte s.LEN.toNat s.IDX) f := by
  have hi := h.index
  have hN := h.blocks_eq (Fsm.holdsPad_of_pads hf)
  have hbounds := (h.bounds (Fsm.holdsPad_of_pads hf)).1
  cases hs : s.FSM <;> simp only [hs, Fsm.pads, Bool.false_eq_true] at hf <;>
    simp only [State.indexInPlace, hs] at hi <;> simp only [State.advance, hs]
  case copy => exact ⟨_, padding_afterWord _ _, by rw [Contract.paddedWord_message (h.word_below hs)]; rfl⟩
  case tail => exact ⟨_, padding_afterFill _, by rw [h.tailDue_eq hs]⟩
  case zero => exact ⟨_, padding_afterFill _, by rw [Contract.paddedWord_zero (by omega) (by omega)]⟩
  case lenhi => exact ⟨_, .inl rfl, by rw [Contract.paddedWord_lengthHigh (by omega) (by omega)]; rfl⟩
  case lenlo => exact ⟨_, .inr rfl, by rw [Contract.paddedWord_lengthLow (by omega) (by omega)]; rfl⟩

/-- R140, R144: the Padder ends at INIT, where the whole sequence has been written, and not before. -/
theorem State.OnCourse.init_iff (h : s.OnCourse) (hf : s.FSM.padding) : s.FSM = .init ↔ s.IDX = 16 * s.N := by
  constructor
  · intro hs
    simpa [State.indexInPlace, hs] using h.index
  · intro hidx
    refine hf.resolve_left fun hpads => ?_
    have hlen := (h.room (Fsm.holdsPad_of_pads hpads)).2
    have := (h.writes_within hpads).2
    omega

/-- On course, `k` turns of the Padder write `k` words of the finished sequence, as long as there are so many left. -/
theorem State.OnCourse.paddedBy_iterate (h : s.OnCourse) (hf : s.FSM.padding) (hk : s.IDX + k ≤ 16 * s.N) :
    s.PaddedBy k (State.advance^[k] s) ∧ (State.advance^[k] s).FSM.padding := by
  induction k generalizing s with
  | zero => exact ⟨.zero s, hf⟩
  | succ k ih =>
    have hpads : s.FSM.pads = true := hf.resolve_right fun hs => by
      have := (h.init_iff hf).1 hs
      omega
    obtain ⟨f, hpadding, hadv⟩ := h.advance_of_pads hpads
    have hcourse := h.advance
    rw [Function.iterate_succ_apply]
    rw [hadv] at hcourse ⊢
    obtain ⟨hby, hlast⟩ := ih hcourse hpadding (by rw [State.pushPad_IDX, State.pushPad_N]; omega)
    exact ⟨hby.of_pushPad, hlast⟩

/-- R130: from the grant of the storage the Padder writes the whole sequence and ends at INIT. -/
theorem State.OnCourse.pad_allocated {n : Nat} (hn : s.N = n) (h : s.allocated.OnCourse) :
    s.allocated.PaddedBy (16 * n) (State.advance^[16 * n] s.allocated) ∧
      (State.advance^[16 * n] s.allocated).FSM = .init := by
  subst hn
  obtain ⟨hby, hf⟩ := h.paddedBy_iterate (k := 16 * s.N) (padding_afterAlloc _) (Nat.zero_add _).le
  refine ⟨hby, ((h.iterate _).init_iff hf).2 ?_⟩
  rw [hby.frame]
  exact Nat.zero_add _

/-- Settles O27: P.COUNT and P.ALLOC, then the `16 * N` writes of `pad_allocated`. -/
theorem padderProducesThePaddedSequence : Obligations.PadderProducesThePaddedSequence := by
  intro s M n hf hu hn hok hmsg
  rw [← blockCount_eq] at hn
  subst hn
  have hcourse := onCourse_of_count hf
  have hgranted := advance_granted hf hok
  obtain ⟨hby, hinit⟩ := (hgranted ▸ hcourse.iterate 2).pad_allocated (s.counted_N _)
  have hrun := run_undisturbed hcourse hu (16 * blockCount s.LEN.toNat + 2)
  rw [Function.iterate_add_apply, hgranted] at hrun
  refine ⟨_, hrun, hby.frame.trans ?_, fun i => (hby.words i).trans ?_⟩
  · rw [hinit, State.allocated_IDX, Nat.zero_add]
    rfl
  · simp [Contract.paddedWord_congr hmsg]

end Sys2Proof.Machine
end

section
/-! PROOFS. The Compressor's micro-operations one by one (`41_compressor.md` R161 to R172), in the words of the rules. -/

namespace Sys2Proof.Machine

variable {s : State}

/-! ### The mixing functions -/

/-- Settles O29: the other spellings are `Contract.choose_eq` and `Contract.majority_eq`; at one position, the three bits
decide. -/
theorem mixingFunctionsFollowTheirTable : Obligations.MixingFunctionsFollowTheirTable := by
  refine fun b c d => ⟨fun i _ => ?_, Contract.choose_eq b c d, Contract.majority_eq b c d⟩
  simp only [choose, parity, majority, BitVec.getLsbD_xor, BitVec.getLsbD_and]
  generalize b.getLsbD i = x, c.getLsbD i = y, d.getLsbD i = z
  revert x y z
  decide

/-! ### C.LOAD and C.SCHED -/

/-- Settles O30: within the allocation the guard of C.LOAD holds. -/
theorem loadTakesTheBlockAndTheHash : Obligations.LoadTakesTheBlockAndTheHash :=
  fun s hv hblk => (exec_cLoad_eq s).trans (if_pos ⟨hv, hblk⟩)

theorem ringAt_eq_of_mod_eq (w : Vector Word 16) {i j : Nat} (h : i % 16 = j % 16) : ringAt w i = ringAt w j := by
  rw [← ringAt_mod, h, ringAt_mod]

/-- R162: the four taps, counted back from the slot to be overwritten. -/
theorem scheduleWord_eq_taps (w : Vector Word 16) {n : Nat} (hn : 16 ≤ n) : scheduleWord w n =
    (ringAt w (n - 3) ^^^ ringAt w (n - 8) ^^^ ringAt w (n - 14) ^^^ ringAt w (n - 16)).rotateLeft 1 := by
  rw [scheduleWord, rotl_eq_rotateLeft, ringAt_eq_of_mod_eq w (j := n + 13) (i := n - 3) (by omega),
    ringAt_eq_of_mod_eq w (j := n + 8) (i := n - 8) (by omega),
    ringAt_eq_of_mod_eq w (j := n + 2) (i := n - 14) (by omega),
    ringAt_eq_of_mod_eq w (j := n) (i := n - 16) (by omega)]

/-- Settles O31: the word written is `scheduleWord_eq_taps`, and a write to the ring changes one slot. -/
theorem schedExpandsOneWord : Obligations.SchedExpandsOneWord := by
  refine fun s h16 _ => ⟨_, rfl, rfl, fun j => ?_⟩
  rw [← scheduleWord_eq_taps s.W h16]
  simp only [State.putSchedule_W, ringSet, Fin.getElem_fin, Vector.getElem_set, @eq_comm _ j.val]

/-! ### The rounds and C.FEED -/

/-- R166: control after a round. -/
theorem afterRound_eq {n : Nat} (hn : n ≤ 80) :
    afterRound n = if n = 80 then .feed else if 16 ≤ n ∧ n ≤ 79 then .sched else .round := by
  unfold afterRound
  split
  · rfl
  · exact if_congr (by omega) rfl rfl

/-- R166 to R170: a round with constant `k` and function `f`, as one state. -/
theorem exec_round_eq (hT : s.T.toNat ≤ 79) {i : Instr} {k : Word} {f : Word → Word → Word → Word}
    (he : exec i s = outcome (s.round k f)) : exec i s =
      .next { s with A := k + s.E + s.A.rotateLeft 5 + f s.B s.C s.D + ringAt s.W s.T.toNat, B := s.A,
                     C := s.B.rotateLeft 30, D := s.C, E := s.D, T := BitVec.ofNat 7 (s.T.toNat + 1),
                     FSM := if s.T.toNat + 1 = 80 then .feed
                            else if 16 ≤ s.T.toNat + 1 ∧ s.T.toNat + 1 ≤ 79 then .sched else .round } := by
  have hsucc : BitVec.ofNat 7 (s.T.toNat + 1) = s.T + 1 := (BitVec.add_def s.T 1).symm
  rw [he, round_of_lt (by omega), State.shiftRound, State.roundSum, rotl_eq_rotateLeft, rotl_eq_rotateLeft,
    afterRound_eq (by omega), hsucc]

/-- Settles O32: each of the four forms is `exec_round_eq` with its constant and function. -/
theorem roundsMixAndShift : Obligations.RoundsMixAndShift := by
  intro s hT i k f h
  obtain ⟨rfl, rfl, rfl⟩ | ⟨rfl, rfl, rfl⟩ | ⟨rfl, rfl, rfl⟩ | ⟨rfl, rfl, rfl⟩ := h
  · exact exec_round_eq hT (k := k0) (f := choose) rfl
  · exact exec_round_eq hT (k := k1) (f := parity) rfl
  · exact exec_round_eq hT (k := k2) (f := majority) rfl
  · exact exec_round_eq hT (k := k3) (f := parity) rfl

/-- Settles O33: addition of words is the sum of the naturals cut to 32 bits. -/
theorem feedAddsTheWorkingRegisters : Obligations.FeedAddsTheWorkingRegisters := by
  intro s
  simp only [← BitVec.add_def]
  rfl

end Sys2Proof.Machine
end

section
/-! PROOFS. The Compressor as a whole (`41_compressor.md` R160, R173, R174): from LOAD, left undisturbed, every state short of
the end is in the rounds of the block (`State.Compressing`), and C.FEED ends it. Nothing is assumed of the counters and the
length but that the block is within the allocation. -/

namespace Sys2Proof.Machine

variable {s t u : State} {k : Nat}

/-! ### Steps of a block left to itself -/

theorem State.undisturbed.step_eq (h : s.undisturbed) {i : Instr} (hi : s.microOp = some i) : step s = exec i s := by
  rw [step_of_microOp (.inl h.2) h.1 hi, afterTurn_nil h.2]

theorem run_succ_of_step (h : Host.Core.run core k s = .next u) (hstep : step u = .next t) :
    Host.Core.run core (k + 1) s = .next t := by
  induction k generalizing s with
  | zero =>
    cases h
    have hcore : core.step u = .next t := hstep
    simp only [Host.Core.run, hcore]
  | succ k ih =>
    cases hs : core.step s with
    | next v =>
      simp only [Host.Core.run, hs] at h ⊢
      exact ih h
    | fault r => simp [Host.Core.run, hs] at h
    | refused r => simp [Host.Core.run, hs] at h

/-! ### The ring -/

/-- The ring holds the sixteen latest words of the schedule up to `w_n`, each in its slot (R173). -/
def RingHolds (w : Vector Word 16) (block : Nat → Word) (n : Nat) : Prop :=
  ∀ j, j ≤ n → n < j + 16 → ringAt w j = Contract.schedule block j

/-- R161: C.LOAD puts the first sixteen words there. -/
theorem ringHolds_ofFn (block : Nat → Word) : RingHolds (Vector.ofFn fun j => block j) block 15 := by
  intro j hj _
  have hlt : j < 16 := by omega
  simp only [Contract.schedule_of_lt block hlt, ringAt, Vector.getElem_ofFn, Nat.mod_eq_of_lt hlt]

/-- R162: C.SCHED puts the next word in the place of the oldest. -/
theorem RingHolds.expand {w : Vector Word 16} {block : Nat → Word} {n : Nat} (hn : 16 ≤ n)
    (h : RingHolds w block (n - 1)) : RingHolds (ringSet w n (scheduleWord w n)) block n := by
  intro j hj hj'
  rw [ringAt_ringSet]
  split
  case isTrue hslot =>
    obtain rfl : j = n := by omega
    exact scheduleWord_eq hn h
  case isFalse hslot =>
    have hne : j ≠ n := fun heq => hslot (by rw [heq])
    exact h j (by omega) (by omega)

/-! ### In the rounds of a block -/

/-- Where the round index stands between C.LOAD and C.FEED (R31, R162, R172). -/
def State.InRounds (u : State) : Prop :=
  (u.FSM = .round ∧ u.T.toNat ≤ 79) ∨ (u.FSM = .sched ∧ 16 ≤ u.T.toNat ∧ u.T.toNat ≤ 79) ∨
    (u.FSM = .feed ∧ u.T.toNat = 80)

/-- The number of the latest schedule word in the ring (R173). It differs from `State.lastScheduled` in FEED alone, which the
data invariant leaves out. -/
def State.ringTop (u : State) : Nat := if u.FSM = .round then max u.T.toNat 15 else u.T.toNat - 1

theorem ringTop_of_round (h : u.FSM = .round) : u.ringTop = max u.T.toNat 15 := if_pos h

theorem ringTop_of_ne_round (h : u.FSM ≠ .round) : u.ringTop = u.T.toNat - 1 := if_neg h

/-- R166: control after a round, with the new round index. -/
theorem afterRound_cases {n : Nat} (hn : n ≤ 80) :
    (afterRound n = .round ∧ n ≤ 15) ∨ (afterRound n = .sched ∧ 16 ≤ n ∧ n ≤ 79) ∨ (afterRound n = .feed ∧ n = 80) := by
  unfold afterRound
  split_ifs with h80 h16
  · exact .inr (.inr ⟨rfl, h80⟩)
  · exact .inr (.inl ⟨rfl, h16, by omega⟩)
  · exact .inl ⟨rfl, by omega⟩

/-- A round changes neither the ring nor, by the control state it goes to, the number of its latest word. -/
theorem ringTop_shiftRound (hf : u.FSM = .round) (hT : u.T.toNat < 80) (temp : Word) :
    (u.shiftRound temp).ringTop = u.ringTop := by
  have hsucc : (u.shiftRound temp).T.toNat = u.T.toNat + 1 := toNat_round_succ hT
  rw [ringTop_of_round hf]
  obtain ⟨hnext, hn⟩ | ⟨hnext, hn⟩ | ⟨hnext, hn⟩ := afterRound_cases (n := u.T.toNat + 1) hT
  · rw [ringTop_of_round hnext, hsucc]
    omega
  all_goals
    rw [ringTop_of_ne_round (by rw [State.shiftRound_FSM, hnext]; decide), hsucc]
    omega

theorem inRounds_shiftRound (hT : u.T.toNat < 80) (temp : Word) : (u.shiftRound temp).InRounds := by
  rw [State.InRounds, State.shiftRound_FSM, State.shiftRound_T, toNat_round_succ hT]
  exact (afterRound_cases hT).imp_left (And.imp_right fun h15 => by omega)

/-- R167 to R170: the round due, where `T <= 79`. -/
theorem step_of_round (hu : u.undisturbed) (hf : u.FSM = .round) (hT : u.T.toNat < 80) :
    step u = .next (u.shiftRound u.tempDue) := by
  obtain h4 | h4 | h4 | h4 := lt_four_cases (show u.T.toNat / 20 < 4 by omega) <;>
    rw [hu.step_eq (by simp only [State.microOp, hf, h4]; rfl)] <;> simp only [State.tempDue, h4] <;>
    exact round_of_lt hT _ _

theorem step_of_sched (hu : u.undisturbed) (hf : u.FSM = .sched) :
    step u = .next (u.putSchedule (scheduleWord u.W u.T.toNat)) :=
  hu.step_eq (i := .cSched) (by simp only [State.microOp, hf])

theorem step_of_feed (hu : u.undisturbed) (hf : u.FSM = .feed) : step u = .next u.feedForward :=
  hu.step_eq (i := .cFeed) (by simp only [State.microOp, hf])

theorem step_of_load (hu : s.undisturbed) (hf : s.FSM = .load) (hv : s.PVALID = true) (hblk : 16 * s.BLK + 15 < s.PLEN) :
    step s = .next (s.loadBlock s.blockDue) := by
  rw [hu.step_eq (i := .cLoad) (by simp only [State.microOp, hf]), exec_cLoad_eq, if_pos ⟨hv, hblk⟩]

/-! ### The block's run -/

/-- The words of the block due (R161), as the contract takes them. -/
def State.blockWords (s : State) : Nat → Word := fun j => s.padWord (16 * s.BLK + j)

/-- `u` is `s`, a state in LOAD, after `k` of the micro-operations before C.FEED: C.LOAD, a round for each of `0` to `T - 1`,
an expansion for each word after `w_15`; the working registers and the ring are the contract's. -/
structure State.Compressing (s : State) (k : Nat) (u : State) : Prop where
  frame : u = { s with W := u.W, A := u.A, B := u.B, C := u.C, D := u.D, E := u.E, T := u.T, FSM := u.FSM }
  place : u.InRounds
  count : u.T.toNat + u.ringTop = k + 14
  work : u.working = Contract.rounds s.blockWords s.H u.T.toNat
  ring : RingHolds u.W s.blockWords u.ringTop

theorem compressing_loadBlock (s : State) : s.Compressing 1 (s.loadBlock s.blockDue) where
  frame := rfl
  place := .inl ⟨rfl, Nat.zero_le _⟩
  count := rfl
  work := vector_five_eta s.H
  ring := ringHolds_ofFn s.blockWords

namespace State.Compressing

variable (h : s.Compressing k u)
include h

theorem undisturbed (hs : s.undisturbed) : u.undisturbed := by
  rw [h.frame]
  exact hs

theorem hash_eq : u.H = s.H := by
  rw [h.frame]

/-- R162, R173. -/
theorem putSchedule (hf : u.FSM = .sched) (hT : 16 ≤ u.T.toNat ∧ u.T.toNat ≤ 79) :
    s.Compressing (k + 1) (u.putSchedule (scheduleWord u.W u.T.toNat)) where
  frame := congrArg (State.putSchedule · (scheduleWord u.W u.T.toNat)) h.frame
  place := .inl ⟨rfl, hT.2⟩
  count := by
    have hcount := h.count
    rw [ringTop_of_ne_round (by simp [hf])] at hcount
    rw [ringTop_of_round rfl, State.putSchedule_T]
    omega
  work := h.work
  ring := by
    have hring := h.ring
    rw [ringTop_of_ne_round (by simp [hf])] at hring
    rw [ringTop_of_round rfl, State.putSchedule_T, max_eq_left (by omega)]
    exact hring.expand hT.1

/-- R160, R166. -/
theorem shiftRound (hf : u.FSM = .round) (hT : u.T.toNat < 80) :
    s.Compressing (k + 1) (u.shiftRound u.tempDue) where
  frame := congrArg (State.shiftRound · u.tempDue) h.frame
  place := inRounds_shiftRound hT _
  count := by
    have hcount := h.count
    rw [ringTop_shiftRound hf hT, State.shiftRound_T, toNat_round_succ hT]
    omega
  work := by
    have hw : ringAt u.W u.T.toNat = Contract.schedule s.blockWords u.T.toNat := by
      refine h.ring _ ?_ ?_ <;> rw [ringTop_of_round hf] <;> omega
    rw [working_shiftRound hT hw, h.work, State.shiftRound_T, toNat_round_succ hT]
    rfl
  ring := by
    rw [ringTop_shiftRound hf hT]
    exact h.ring

/-- R173, R174: the round index and the control state follow from the number of micro-operations, whatever the data. -/
theorem position : u.T.toNat = (if k ≤ 16 then k - 1 else 16 + (k - 17) / 2) ∧
    u.FSM = (if k = 145 then .feed else if 16 < k ∧ k % 2 = 1 then .sched else .round) := by
  have hcount := h.count
  obtain ⟨hf, hT⟩ | ⟨hf, hT⟩ | ⟨hf, hT⟩ := h.place
  · rw [ringTop_of_round hf] at hcount
    refine ⟨by split <;> omega, ?_⟩
    rw [hf, if_neg (by omega), if_neg (by omega)]
  · rw [ringTop_of_ne_round (by simp [hf])] at hcount
    refine ⟨by split <;> omega, ?_⟩
    rw [hf, if_neg (by omega), if_pos (by omega)]
  · rw [ringTop_of_ne_round (by simp [hf])] at hcount
    refine ⟨by split <;> omega, ?_⟩
    rw [hf, if_pos (by omega)]

theorem feed_iff : u.FSM = .feed ↔ k = 145 := by
  rw [h.position.2]
  split_ifs <;> simp_all

theorem exists_step (hs : s.undisturbed) (hk : k ≠ 145) : ∃ t, step u = .next t ∧ s.Compressing (k + 1) t := by
  have hu := h.undisturbed hs
  obtain ⟨hf, hT⟩ | ⟨hf, hT⟩ | ⟨hf, -⟩ := h.place
  · exact ⟨_, step_of_round hu hf (by omega), h.shiftRound hf (by omega)⟩
  · exact ⟨_, step_of_sched hu hf, h.putSchedule hf hT⟩
  · exact absurd (h.feed_iff.1 hf) hk

end State.Compressing

/-- R174: the states of the block's run, one by one. -/
theorem exists_run_compressing (hf : s.FSM = .load) (hs : s.undisturbed) (hv : s.PVALID = true)
    (hblk : 16 * s.BLK + 15 < s.PLEN) (hk : 0 < k) (hk' : k < 146) :
    ∃ u, Host.Core.run core k s = .next u ∧ s.Compressing k u := by
  induction k, hk using Nat.le_induction with
  | base => exact ⟨_, run_succ_of_step (k := 0) rfl (step_of_load hs hf hv hblk), compressing_loadBlock s⟩
  | succ k hk ih =>
    obtain ⟨u, hrun, hu⟩ := ih (by omega)
    obtain ⟨t, hstep, ht⟩ := hu.exists_step hs (by omega)
    exact ⟨t, run_succ_of_step hrun hstep, ht⟩

/-- R172: C.FEED ends the block with COMPRESS in `H`. -/
theorem State.Compressing.feedForward (h : s.Compressing 145 u) : u.feedForward =
    { s with H := Contract.compress s.blockWords s.H, BLK := s.BLK + 1, FSM := .next, T := 80, W := u.W, A := u.A,
             B := u.B, C := u.C, D := u.D, E := u.E } := by
  have hT : u.T.toNat = 80 := h.position.1
  have hcompress : u.feedForward.H = Contract.compress s.blockWords s.H := by
    rw [Contract.compress, ← hT, ← h.work, ← h.hash_eq]
    rfl
  rw [← hcompress, ← BitVec.eq_of_toNat_eq (x := u.T) (y := 80) hT]
  exact congrArg (fun v : State => { v.feedForward with H := u.feedForward.H }) h.frame

/-- Settles O35: the 145 states of `exists_run_compressing`, then C.FEED. -/
theorem compressorComputesCompress : Obligations.CompressorComputesCompress := by
  intro s hf hs hv hblk
  constructor
  · obtain ⟨u, hrun, hu⟩ := exists_run_compressing hf hs hv hblk (k := 145) (by decide) (by decide)
    exact ⟨_, run_succ_of_step hrun (step_of_feed (hu.undisturbed hs) (hu.feed_iff.2 rfl)), hu.feedForward⟩
  · intro k hk hk'
    obtain ⟨u, hrun, hu⟩ := exists_run_compressing hf hs hv hblk hk hk'
    refine ⟨u, hrun, ?_, hu.feed_iff, hu.hash_eq⟩
    exact hu.place.imp And.left (Or.imp And.left And.left)

/-- Settles O34: the recursion is `Contract.schedule_eq`, a block's run by `State.Compressing`, and every agent's step by the
two invariants it keeps. -/
theorem ringHoldsTheLogicalSchedule : Obligations.RingHoldsTheLogicalSchedule := by
  refine ⟨fun b t ht => Contract.schedule_of_lt b (by omega), fun b t => Contract.schedule_eq b, ?run, ?step⟩
  case run =>
    intro s k hf hs hv hblk hk hk'
    obtain ⟨u, hrun, hu⟩ := exists_run_compressing hf hs hv hblk hk hk'
    have hring := hu.ring
    refine ⟨u, hrun, hu.position.1, hu.position.2, fun hround => ?_, fun hother j hj hj' => ?_⟩
    · rwa [ringTop_of_round hround] at hring
    · rw [ringTop_of_ne_round hother] at hring
      exact hring j (by omega) (by omega)
  case step =>
    intro s t hinv hdata hstep
    have hring := (everyStepKeepsTheDataInvariant s t hinv hdata hstep).ring
    refine ⟨fun hf j hj hj' => ?_, fun hf j hj hj' => ?_⟩
    · have hlast : t.lastScheduled = max t.T.toNat 15 := by simp only [State.lastScheduled, hf]
      exact hring (.inr hf) j (by omega) (by omega)
    · have hlast : t.lastScheduled = t.T.toNat - 1 := by simp only [State.lastScheduled, hf]
      exact hring (.inl hf) j (by omega) (by omega)

end Sys2Proof.Machine
end

section
/-! PROOFS. A block of sixteen words is all the Compressor's contract reads (`41_compressor.md` R160, R173). -/

namespace Sys2Proof.Contract

open Machine

variable {b b' : Nat → Word}

theorem scheduleRev_congr (h : ∀ j, j < 16 → b j = b' j) (n : Nat) : scheduleRev b n = scheduleRev b' n := by
  induction n with
  | zero => exact List.map_congr_left fun j hj => h j (by simpa using hj)
  | succ n ih => simp only [scheduleRev, ih]

theorem schedule_congr (h : ∀ j, j < 16 → b j = b' j) (t : Nat) : schedule b t = schedule b' t := by
  unfold schedule
  split
  case isTrue ht => exact h t ht
  case isFalse => rw [scheduleRev_congr h]

theorem round_congr (h : ∀ j, j < 16 → b j = b' j) (t : Nat) (v : Vector Word 5) : round b t v = round b' t v := by
  rw [round, schedule_congr h, round]

theorem rounds_congr (h : ∀ j, j < 16 → b j = b' j) (v : Vector Word 5) (t : Nat) : rounds b v t = rounds b' v t := by
  induction t with
  | zero => rfl
  | succ t ih => exact (round_congr h t _).trans (congrArg (round b' t) ih)

theorem compress_congr (h : ∀ j, j < 16 → b j = b' j) (v : Vector Word 5) : compress b v = compress b' v := by
  simp only [compress, rounds_congr h]

end Sys2Proof.Contract
end

section
/-! PROOFS. The whole computation (`42_orchestrator.md` R191, R196): the Padder's contract, O.INIT, then for each block
O.NEXT and the Compressor's contract, so that the Hash goes along the chain (`State.Chained`), and O.RELEASE. Nothing is
assumed of the state before the START but `BUSY = 0`. -/

namespace Sys2Proof.Machine

variable {s u : State} {M : Nat → Byte} {k n : Nat}

/-! ### Along the chain -/

/-- `u` is `s`, a state in INIT, after O.INIT and `k` blocks: `H` is the contract's Hash after `k` blocks, `BLK` counts
them, and beside these only the Compressor's registers have been written. -/
def State.Chained (s : State) (M : Nat → Byte) (k : Nat) (u : State) : Prop :=
  ∃ A B C D E W T, u = { s with H := Contract.chain M s.LEN.toNat k, BLK := k, FSM := .next, hashWritten := true,
                                A := A, B := B, C := C, D := D, E := E, W := W, T := T }

/-- R192: O.INIT puts the IV at the head of the chain. -/
theorem chained_advance_init (hf : s.FSM = .init) : s.Chained M 0 s.advance := by
  simp only [State.advance, hf]
  exact ⟨_, _, _, _, _, _, _, rfl⟩

theorem advance_next_of_lt (hf : s.FSM = .next) (hlt : s.BLK < s.N) : s.advance = s.goto .load := by
  simp only [State.advance, hf, if_pos hlt]

theorem advance_next_of_ge (hf : s.FSM = .next) (hge : s.N ≤ s.BLK) : s.advance = s.goto .release := by
  simp only [State.advance, hf, if_neg (Nat.not_lt.2 hge)]

/-- R160, R174: C.LOAD to C.FEED, as the block's own turns. -/
theorem State.OnCourse.advance_block (h : s.OnCourse) (hu : s.undisturbed) (hf : s.FSM = .load) :
    ∃ A B C D E W, State.advance^[146] s =
      { s with H := Contract.compress s.blockWords s.H, BLK := s.BLK + 1, FSM := .next, T := 80, A := A, B := B, C := C,
               D := D, E := E, W := W } := by
  obtain ⟨hv, hblk⟩ := h.block_within hf
  obtain ⟨t, hrun, ht⟩ := (compressorComputesCompress s hf hu hv hblk).1
  rw [run_undisturbed h hu] at hrun
  exact ⟨_, _, _, _, _, _, (Host.Outcome.next.inj hrun).trans ht⟩

/-- R191, R193: O.NEXT and the 146 micro-operations of a block go one link along the chain. -/
theorem State.Chained.next_block (h : s.Chained M k u) (hc : u.OnCourse) (hu : u.undisturbed) (hk : k < s.N)
    (hpad : ∀ j, j < 16 → s.padWord (16 * k + j) = Contract.paddedWord M s.LEN.toNat (16 * k + j)) :
    s.Chained M (k + 1) (State.advance^[147] u) := by
  have hload := hc.advance
  have hundisturbed := hu.advance
  obtain ⟨A, B, C, D, E, W, T, rfl⟩ := h
  rw [advance_next_of_lt rfl hk] at hload hundisturbed
  obtain ⟨A', B', C', D', E', W', hblock⟩ := hload.advance_block hundisturbed rfl
  rw [Function.iterate_succ_apply, advance_next_of_lt rfl hk]
  have hlink : Contract.compress (fun j => s.padWord (16 * k + j)) (Contract.chain M s.LEN.toNat k) =
      Contract.chain M s.LEN.toNat (k + 1) := Contract.compress_congr hpad _
  refine ⟨A', B', C', D', E', W', 80, hblock.trans ?_⟩
  rw [← hlink]
  rfl

/-- R191: from INIT, with the finished sequence in `P`, the first `k` blocks. -/
theorem State.OnCourse.chained_iterate (h : s.OnCourse) (hu : s.undisturbed) (hf : s.FSM = .init)
    (hpad : ∀ i, i < 16 * s.N → s.padWord i = Contract.paddedWord M s.LEN.toNat i) (hk : k ≤ s.N) :
    s.Chained M k (State.advance^[147 * k + 1] s) := by
  induction k with
  | zero => exact chained_advance_init hf
  | succ k ih =>
    have hblock := (ih (Nat.le_of_succ_le hk)).next_block (h.iterate _) (hu.iterate _) hk fun j hj => hpad _ (by omega)
    rwa [← Function.iterate_add_apply, show 147 + (147 * k + 1) = 147 * (k + 1) + 1 by omega] at hblock

/-- R191, R193: with every block done, O.NEXT goes to RELEASE. -/
theorem State.OnCourse.hash_padded (h : s.OnCourse) (hu : s.undisturbed) (hf : s.FSM = .init)
    (hpad : ∀ i, i < 16 * s.N → s.padWord i = Contract.paddedWord M s.LEN.toNat i) :
    (State.advance^[147 * s.N + 2] s).FSM = .release ∧
      (State.advance^[147 * s.N + 2] s).H = Contract.digest M s.LEN.toNat := by
  have hdigest : Contract.digest M s.LEN.toNat = Contract.chain M s.LEN.toNat s.N := by
    rw [Contract.digest, h.blocks_eq (by rw [hf]; rfl)]
  rw [Function.iterate_succ_apply', hdigest]
  obtain ⟨A, B, C, D, E, W, T, hlast⟩ := h.chained_iterate hu hf hpad le_rfl
  rw [hlast, advance_next_of_ge rfl le_rfl]
  exact ⟨rfl, rfl⟩

/-! ### From the START to IDLE -/

/-- R191: with the storage granted, the last micro-operation but one leaves the digest in `H`, O.RELEASE due. -/
theorem release_of_granted (hf : s.FSM = .count) (hu : s.undisturbed) (hn : n = blockCount s.LEN.toNat)
    (hok : s.allocOK (16 * n) = true) (hmsg : ∀ off, off < s.LEN.toNat → s.msgByte off = M off) :
    (State.advance^[163 * n + 4] s).FSM = .release ∧
      (State.advance^[163 * n + 4] s).H = Contract.digest M s.LEN.toNat := by
  have hc := onCourse_of_count hf
  obtain ⟨t, hrun, ht, hread⟩ := padderProducesThePaddedSequence s M n hf hu (hn.trans (blockCount_eq _)) hok hmsg
  rw [run_undisturbed hc hu] at hrun
  obtain rfl := Host.Outcome.next.inj hrun
  have hN := congrArg State.N ht
  have hpad (i : Nat) (hi : i < 16 * n) :
      (State.advance^[16 * n + 2] s).padWord i = Contract.paddedWord M s.LEN.toNat i := by
    rw [State.padWord, hread, if_pos hi]
    rfl
  have hLEN := congrArg State.LEN ht
  have hhash := (hc.iterate _).hash_padded (hu.iterate _) (congrArg State.FSM ht) (M := M) (by rwa [hN, hLEN])
  rwa [hN, hLEN, ← Function.iterate_add_apply, show 147 * n + 2 + (16 * n + 2) = 163 * n + 4 by omega] at hhash

theorem iterate_advance_message (s : State) (n : Nat) :
    (State.advance^[n] s).LEN = s.LEN ∧ (State.advance^[n] s).msg = s.msg := by
  induction n generalizing s with
  | zero => exact ⟨rfl, rfl⟩
  | succ n ih =>
    obtain ⟨hmsg, hlen, -⟩ := advance_environment s
    exact ⟨(ih s.advance).1.trans hlen, (ih s.advance).2.trans hmsg⟩

/-- R196: left undisturbed, a block on course stays out of IDLE until its last micro-operation. -/
theorem State.OnCourse.run_before_idle (h : s.OnCourse) (hu : s.undisturbed) (hk : k < s.stepsLeft) :
    ∃ u, Host.Core.run core k s = .next u ∧ u.FSM ≠ .idle := by
  refine ⟨_, run_undisturbed h hu k, fun hidle => ?_⟩
  have hleft := stepsLeft_eq_zero_iff.2 hidle
  rw [h.stepsLeft_iterate] at hleft
  omega

theorem stepsLeft_of_granted (hf : s.FSM = .count) (hok : s.allocOK (16 * blockCount s.LEN.toNat) = true) :
    s.stepsLeft = 163 * blockCount s.LEN.toNat + 5 := by
  simp only [State.stepsLeft, hf, if_pos hok]

theorem stepsLeft_of_refused (hf : s.FSM = .count) (hno : s.allocOK (16 * blockCount s.LEN.toNat) = false) :
    s.stepsLeft = 3 := by
  simp [State.stepsLeft, hf, hno]

theorem advance_release (hf : s.FSM = .release) : s.advance = s.releasePad := by
  simp only [State.advance, hf]

/-- Settles O58: granted, `release_of_granted` and O.RELEASE; refused, the three steps of `advance_refused`; the block
stays out of IDLE as long as `State.stepsLeft` says. -/
theorem computationReturnsTheDigest : Obligations.ComputationReturnsTheDigest := by
  intro s0 s data M n hs0 hs hu hmsg hn
  rw [← blockCount_eq] at hn
  subst hn
  obtain rfl := exec_hStart_of_idle hs0 hs
  have hc : s0.acceptStart.OnCourse := onCourse_of_count rfl
  constructor
  · intro hok
    have hleft := stepsLeft_of_granted rfl hok
    refine ⟨⟨_, run_undisturbed hc hu _, ?_⟩, fun k hk => hc.run_before_idle hu (hleft ▸ hk)⟩
    obtain ⟨hf, hH⟩ := release_of_granted rfl hu rfl hok hmsg
    obtain ⟨hlen, hmem⟩ := iterate_advance_message s0.acceptStart (163 * blockCount s0.acceptStart.LEN.toNat + 5)
    have hreports := release_reports ((State.FlagsSound.acceptStart s0).iterate _) hf
    rw [Function.iterate_succ_apply', advance_release hf] at hlen hmem ⊢
    rw [advance_release hf, hH] at hreports
    obtain ⟨hb, hd, he, hcode, hdigest⟩ := hreports
    exact ⟨rfl, hb, hd, he, hcode, rfl, rfl, hlen, hmem, hdigest⟩
  · intro hno
    have hleft := stepsLeft_of_refused rfl hno
    refine ⟨⟨_, run_undisturbed hc hu 3, ?_⟩, fun k hk => hc.run_before_idle hu (hleft ▸ hk)⟩
    rw [advance_refused rfl hno]
    simp [resourceExhaustedCode]

end Sys2Proof.Machine
end

section
/-! PROOFS. The transition table (`42_orchestrator.md` R190) against every agent's step, and the ways back to IDLE that can
be read off it (R195). -/

namespace Sys2Proof.Machine

variable {s t : State}

/-! ### The block's turn -/

/-- R190: the successor of each row, from the counters as they stand after the micro-operation. -/
theorem State.OnCourse.advance_FSM (h : s.OnCourse) : s.advance.FSM = s.successor s.advance := by
  cases hf : s.FSM <;> simp only [State.advance, State.successor, hf]
  case alloc =>
    split <;> rfl
  case round =>
    rw [State.shiftRound_T, toNat_round_succ (h.round_below hf)]
    rfl
  all_goals rfl

theorem State.OnCourse.step_microOp (h : s.OnCourse) (hb : s.blocksTurn) (hr : s.rst = false) (hf : s.FSM ≠ .idle)
    (hstep : step s = .next t) : (∃ i, s.microOp = some i ∧ exec i s.afterTurn = .next t) ∧ t.FSM = s.successor t := by
  obtain ⟨i, hi⟩ := h.exists_microOp hf
  refine ⟨⟨i, hi, (step_of_microOp hb hr hi).symm.trans hstep⟩, ?_⟩
  rw [h.step_eq hb hr] at hstep
  cases hstep
  exact (h.takeTurn _).advance_FSM

/-- Held by reset or idle, the block keeps its whole state. -/
theorem step_of_held (hb : s.blocksTurn) (h : s.rst = true ∨ s.FSM = .idle) : step s = .next s.afterTurn :=
  h.elim (step_of_rst hb) (step_of_idle hb)

/-! ### The host's turn -/

theorem getLsbD_zero_iff (data : Word) : data.getLsbD 0 = true ↔ data.toNat % 2 = 1 := by
  simp [BitVec.getLsbD]

/-- R104: what selects H.START. -/
theorem decode_host_start {hsel : BitVec 5} {data d : Word} (h : decode (.host hsel data) = .ok (.hStart d)) :
    hsel = 0x10 ∧ data.toNat % 2 = 1 := by
  obtain ⟨hwf, henc⟩ := encode_of_decodeHost h
  injection henc with hsel' hdata
  subst hsel'
  have hd : d = data := hdata
  exact ⟨rfl, (getLsbD_zero_iff data).1 (hd ▸ hwf)⟩

theorem decode_start {data : Word} (h : data.toNat % 2 = 1) : decode (.host 0x10 data) = .ok (.hStart data) :=
  decode_encode (i := .hStart data) ((getLsbD_zero_iff data).2 h)

/-- No host transaction but H.START touches the control state. -/
theorem exec_host_FSM {i : Instr} (hi : i.isHost = true) (hs : ∀ data, i ≠ .hStart data) (he : exec i s = .next t) :
    t.FSM = s.FSM := by
  cases exec_does he
  case start data _ => exact absurd rfl (hs data)
  case store hw => rcases Instr.mem_padWrites.1 hw with rfl | rfl | rfl | rfl | rfl | rfl | rfl | rfl <;> cases hi
  case round hw => rcases Instr.mem_roundOps.1 hw with rfl | rfl | rfl | rfl <;> cases hi
  case read | readFree | startLost | nop | lengthLow | lengthHigh | lengthLowLost | lengthHighLost => rfl
  all_goals cases hi

theorem start_FSM (h : s.Inv) {data : Word} (he : exec (.hStart data) s = .next t) :
    t.FSM = if s.FSM = .idle then .count else s.FSM := by
  cases exec_does he
  case start hb => rw [if_pos (h.idle hb), State.acceptStart_FSM]
  case startLost hb => rw [if_neg (h.busy.1 hb)]
  case store hw => simp [Instr.padWrites] at hw
  case round hw => simp [Instr.roundOps] at hw
  case read hw | readFree hw => simp [Instr.hostReads] at hw

/-- R103, R190, R212: an access takes the block from IDLE to COUNT if it is a START, and leaves the control state else. -/
theorem step_access_FSM (h : s.Inv) {hsel : BitVec 5} {data : Word} {rest : List Turn}
    (hi : s.inbox = .access hsel data :: rest) (hstep : step s = .next t) :
    t.FSM = if s.FSM = .idle ∧ s.rst = false ∧ hsel = 0x10 ∧ data.toNat % 2 = 1 then .count else s.FSM := by
  cases hr : s.rst with
  | true =>
    rw [step_eq_perform, fetch_access_of_rst hi hr] at hstep
    cases hstep
    simp
  | false =>
    have hf : fetch s = select (.host hsel data) (s.takeTurn rest) := by simp [fetch, hi, accessTurn, hr]
    by_cases hstart : hsel = 0x10 ∧ data.toNat % 2 = 1
    · have hd : decode (.host hsel data) = .ok (.hStart data) := by rw [hstart.1, decode_start hstart.2]
      have he : exec (.hStart data) (s.takeTurn rest) = .next t := by
        rwa [step_eq_perform, fetch_access hi hr hd] at hstep
      rw [start_FSM (h.takeTurn rest) he]
      exact if_congr (by simp [hstart]) rfl rfl
    · rw [if_neg fun hall => hstart hall.2.2]
      obtain ⟨i, hd, he⟩ | ⟨-, rfl⟩ | ⟨-, rfl⟩ | ⟨_, -, rfl⟩ | ⟨_, -, rfl⟩ := step_of_select hf hstep
      · have hne (d : Word) (hid : i = .hStart d) : False := hstart (decode_host_start (hid ▸ hd))
        exact exec_host_FSM (s := s.takeTurn rest) (isHost_of_decode_host hd) hne he
      all_goals rfl

/-! ### The environment's turns -/

/-- R107, R262. -/
theorem step_pin_FSM {level : Bool} {rest : List Turn} (hi : s.inbox = .pin level :: rest) (hstep : step s = .next t) :
    t.FSM = if level = true then .idle else s.FSM := by
  cases level
  · rw [step_eq_perform, fetch_pin_false hi] at hstep
    cases hstep
    rfl
  · rw [step_eq_perform, fetch_pin_true hi] at hstep
    cases hstep
    rfl

theorem step_message_FSM {bytes : List Byte} {rest : List Turn} (hi : s.inbox = .message bytes :: rest)
    (hstep : step s = .next t) : t.FSM = s.FSM := by
  simp only [step_eq_perform, fetch, hi, messageTurn] at hstep
  split at hstep <;> cases hstep
  rfl

/-- Settles O41: one lemma per agent's turn. -/
theorem controlFollowsTheTransitionTable : Obligations.ControlFollowsTheTransitionTable := by
  refine fun s t h hstep => ⟨fun hb hr hf => h.onCourse.step_microOp hb hr hf hstep, fun hb hheld => ?_,
    fun hsel data rest hi => step_access_FSM h hi hstep, fun level rest hi => step_pin_FSM hi hstep,
    fun bytes rest hi => step_message_FSM hi hstep⟩
  rw [step_of_held hb hheld] at hstep
  cases hstep
  rfl

/-! ### The ways back to IDLE -/

/-- R190: the rows with successor IDLE. -/
theorem release_or_fail_of_successor (hf : s.FSM ≠ .idle) (h : s.successor t = .idle) :
    s.FSM = .release ∨ s.FSM = .fail := by
  cases hs : s.FSM
  case idle => exact absurd hs hf
  case release => exact .inl rfl
  case fail => exact .inr rfl
  case alloc | copy | tail | zero | next | round =>
    simp only [State.successor, hs] at h
    split_ifs at h
  all_goals simp [State.successor, hs] at h

theorem State.Inv.free (h : s.Inv) (hf : s.FSM.holdsPad = false) :
    s.PVALID = false ∧ s.PLEN = 0 ∧ ∀ i, Memory.read s.P i = none := by
  have hv : s.PVALID = false := h.pvalid.trans hf
  refine ⟨hv, h.plen_free hv, fun i => ?_⟩
  have hw := h.written i
  simpa [hv] using hw

/-- The agents whose turn it can be. -/
theorem turn_cases (s : State) : s.blocksTurn ∨ (∃ hsel data rest, s.inbox = .access hsel data :: rest) ∨
    (∃ level rest, s.inbox = .pin level :: rest) ∨ ∃ bytes rest, s.inbox = .message bytes :: rest := by
  cases hi : s.inbox with
  | nil => exact .inl (.inl hi)
  | cons turn rest =>
    cases turn with
    | block => exact .inl (.inr ⟨rest, hi⟩)
    | access hsel data => exact .inr (.inl ⟨hsel, data, rest, rfl⟩)
    | pin level => exact .inr (.inr (.inl ⟨level, rest, rfl⟩))
    | message bytes => exact .inr (.inr (.inr ⟨bytes, rest, rfl⟩))

/-- Settles O46, from the transition table: the block's own turn goes back to IDLE from RELEASE and FAIL alone, and of the
other agents' turns only the reset input asserted does. -/
theorem noSequenceSurvivesItsComputation : Obligations.NoSequenceSurvivesItsComputation := by
  refine ⟨fun s h hf => h.free (by rw [hf]; rfl), fun s t h hstep hf ht => ⟨?_, ?_⟩⟩
  · exact ((everyStepKeepsTheControlInvariant s t h hstep).free (by rw [ht]; rfl)).1
  obtain ⟨hblock, hheld, haccess, hpin, hmessage⟩ := controlFollowsTheTransitionTable s t h hstep
  obtain hb | ⟨hsel, data, rest, hi⟩ | ⟨level, rest, hi⟩ | ⟨bytes, rest, hi⟩ := turn_cases s
  · have hr : s.rst = false := Bool.eq_false_iff.2 fun hr => hf ((hheld hb (.inl hr)).symm.trans ht)
    obtain ⟨⟨i, hi, he⟩, hsucc⟩ := hblock hb hr hf
    obtain hs | hs := release_or_fail_of_successor hf (hsucc.symm.trans ht) <;>
      simp only [State.microOp, hs, Option.some.injEq] at hi <;> subst hi
    · exact .inr (.inl ⟨hb, hs, he⟩)
    · exact .inr (.inr ⟨hb, hs, (h.free (by rw [hs]; rfl)).1, he⟩)
  · have hsame := haccess hsel data rest hi
    rw [if_neg fun hstart => hf hstart.1] at hsame
    exact absurd (hsame.symm.trans ht) hf
  · have hlevel := hpin level rest hi
    cases level
    · exact absurd (hlevel.symm.trans ht) hf
    · exact .inl ⟨rest, hi⟩
  · exact absurd ((hmessage bytes rest hi).symm.trans ht) hf

end Sys2Proof.Machine
end

section
/-! PROOFS. The Orchestrator's own micro-operations (`42_orchestrator.md` R192 to R194), and the digest in `H` at the end of
a computation, in every interleaving with the other agents (R191, R198). -/

namespace Sys2Proof.Machine

variable {s t : State}

/-! ### O.INIT, O.NEXT, O.RELEASE -/

/-- Settles O36: `State.initHash`, with the IV's words written out. -/
theorem initLoadsTheInitialHash : Obligations.InitLoadsTheInitialHash := fun _ => ⟨true, rfl⟩

/-- Settles O37: the two branches of R193. -/
theorem nextChoosesAnotherBlockOrTheEnd : Obligations.NextChoosesAnotherBlockOrTheEnd := by
  constructor
  · intro s hlt
    rw [exec, execONext, if_pos hlt]
    rfl
  · intro s hge
    rw [exec, execONext, if_neg (Nat.not_lt.2 hge)]
    rfl

/-- Settles O38: `State.releasePad`. -/
theorem releaseReportsCompletion : Obligations.ReleaseReportsCompletion := fun _ => rfl

/-! ### The digest -/

/-- R191, R193: in RELEASE the last block has been compressed, so the Hash of `BLK` blocks is the digest. -/
theorem State.DataInv.hash_eq_digest (h : s.DataInv) (hc : s.OnCourse) (hf : s.FSM = .release) :
    s.H = Contract.digest s.msgByte s.LEN.toNat := by
  have hblk : s.BLK = s.N := by simpa [State.roundsInPlace, hf] using hc.rounds
  rw [h.hash (by rw [hf]; rfl), hblk, Contract.digest, hc.blocks_eq (by rw [hf]; rfl)]

/-- Settles O54, by induction on the number of steps; the digest is `State.DataInv.hash_eq_digest`. -/
theorem runsStaySound : Obligations.RunsStaySound := by
  intro n s t h hd hrun
  induction n generalizing s with
  | zero =>
    cases hrun
    exact ⟨h, hd, hd.hash_eq_digest h.onCourse⟩
  | succ n ih =>
    cases hs : core.step s with
    | next u =>
      simp only [Host.Core.run, hs] at hrun
      exact ih u (everyStepKeepsTheControlInvariant s u h hs) (everyStepKeepsTheDataInvariant s u h hd hs) hrun
    | fault r => simp [Host.Core.run, hs] at hrun
    | refused r => simp [Host.Core.run, hs] at hrun

/-- R37: of the micro-operations O.RELEASE alone writes `DONE`. -/
theorem advance_DONE (hr : s.FSM ≠ .release) : s.advance.DONE = s.DONE := by
  cases hs : s.FSM
  case release => exact absurd hs hr
  case alloc => simp only [State.advance, hs]; split <;> rfl
  all_goals simp [State.advance, hs]

/-- R37, R194, R212, R260: a host transaction leaves `DONE` or clears it. -/
theorem exec_host_DONE {i : Instr} (hi : i.isHost = true) (he : exec i s = .next t) (hdone : t.DONE = true) :
    s.DONE = true := by
  obtain rfl | ⟨v, rfl⟩ | ⟨k, rfl⟩ | ⟨-, rfl | ⟨len, rfl⟩⟩ := (exec_does he).host_cases hi
  case inr.inr.inr.inl => simp at hdone
  all_goals exact hdone

/-- R194: no step but O.RELEASE sets `DONE`. -/
theorem release_of_step_DONE (h : s.OnCourse) (hstep : step s = .next t) (hclear : s.DONE = false)
    (hdone : t.DONE = true) : s.FSM = .release ∧ t = s.afterTurn.releasePad := by
  have hne {u : State} (hu : u.DONE = s.DONE) (hut : u.DONE = true) : False := by simp [hu, hclear] at hut
  rcases step_cases hstep with ⟨-, -, rfl⟩ | ⟨hb, hr, -⟩ | ⟨_, _, _, -, -, rfl⟩ |
    ⟨_, _, rest, i, -, -, hd, he⟩ | ⟨_, _, _, -, -, -, rfl⟩ | ⟨_, _, _, -, -, -, rfl⟩ | ⟨_, -, he⟩ |
    ⟨_, -, rfl⟩ | ⟨_, _, -, -, rfl⟩
  · exact (hne rfl hdone).elim
  · rw [h.step_eq hb hr] at hstep
    cases hstep
    by_cases hf : s.FSM = .release
    · exact ⟨hf, advance_release (s := s.afterTurn) hf⟩
    · exact (hne (advance_DONE (s := s.afterTurn) hf) hdone).elim
  · exact (hne rfl hdone).elim
  · exact (hne (u := s.takeTurn rest) rfl (exec_host_DONE (isHost_of_decode_host hd) he hdone)).elim
  · exact (hne rfl hdone).elim
  · exact (hne rfl hdone).elim
  · cases he
    cases hdone
  · exact (hne rfl hdone).elim
  · exact (hne rfl hdone).elim

/-- Settles O47: the step is O.RELEASE, which keeps `H`. -/
theorem doneMeansTheDigestIsReady : Obligations.DoneMeansTheDigestIsReady := by
  intro s t h hd hstep hclear hdone
  have ht := everyStepKeepsTheControlInvariant s t h hstep
  have herr : t.ERR = false := Bool.eq_false_iff.2 fun herr => ht.done_or_err ⟨hdone, herr⟩
  obtain ⟨hf, rfl⟩ := release_of_step_DONE h.onCourse hstep hclear hdone
  exact ⟨rfl, rfl, herr, rfl, hd.hash_eq_digest h.onCourse hf⟩

end Sys2Proof.Machine
end

section
/-! PROOFS. The host's turn (`43_host_interface.md` R210 to R213, R221, R225): what a register access leaves of the state,
said once (`step_access_cases`), and the writes that are taken, lost or ignored. -/

namespace Sys2Proof.Machine

variable {s t : State} {hsel : BitVec 5} {data : Word} {rest : List Turn}

/-! ### Any access -/

theorem step_access (hi : s.inbox = .access hsel data :: rest) (hr : s.rst = false) :
    step s = (select (.host hsel data) (s.takeTurn rest)).perform := by
  simp [step_eq_perform, fetch, hi, accessTurn, hr]

/-- R210: what is left of an access is its turn gone, the data of a read, and, only while `BUSY = 0`, a START accepted or `LEN`
written. -/
theorem step_access_cases (hi : s.inbox = .access hsel data :: rest) (hstep : step s = .next t) :
    t = s.takeTurn rest ∨ (∃ v, t = (s.takeTurn rest).respond v) ∨ (∃ k, t = (s.takeTurn rest).respondFree k) ∨
      (s.BUSY = false ∧ (t = (s.takeTurn rest).acceptStart ∨ ∃ len, t = (s.takeTurn rest).setLen len)) := by
  cases hr : s.rst with
  | true =>
    rw [step_eq_perform, fetch_access_of_rst hi hr] at hstep
    cases hstep
    exact .inl rfl
  | false =>
    rw [step_access hi hr, select] at hstep
    cases hd : decode (.host hsel data) with
    | ok i =>
      rw [hd] at hstep
      exact (exec_does hstep).host_cases (isHost_of_decode_host hd)
    | error e =>
      rw [hd] at hstep
      obtain rfl | rfl := decode_host_error hd <;> cases hstep
      · exact .inr (.inl ⟨0, rfl⟩)
      · exact .inl rfl

/-! ### Starts and length writes, taken or lost -/

theorem exec_hStart_taken (hb : s.BUSY = false) (data : Word) : exec (.hStart data) s = .next s.acceptStart := by
  obtain ⟨t, ht⟩ := exec_host_next (i := .hStart data) rfl s
  rw [ht, exec_hStart_of_idle hb ht]

theorem exec_hStart_lost (hb : s.BUSY = true) (data : Word) : exec (.hStart data) s = .next s := by
  rw [exec, execHStart, if_pos hb]

theorem writeLen_taken (hb : s.BUSY = false) (len : BitVec 61) : s.writeLen len = s.setLen len :=
  if_neg (by simp [hb])

theorem writeLen_lost (hb : s.BUSY = true) (len : BitVec 61) : s.writeLen len = s := if_pos hb

/-- Settles O11: bit 0 of the data is what selects H.START, and `State.acceptStart` is the state it leaves. -/
theorem startBeginsAComputation : Obligations.StartBeginsAComputation := fun s data hodd =>
  ⟨decode_start hodd, fun hb => ⟨s.calls + 1, exec_hStart_taken hb data⟩⟩

/-- Settles O12: the writes are lost, and of the ways an access can go the first three are left. -/
theorem hostCannotDisturbAComputation : Obligations.HostCannotDisturbAComputation := by
  refine ⟨fun s data hb => ?_, fun s hsel data rest hb hi => ?_⟩
  · exact ⟨exec_hStart_lost hb data, rfl, congrArg _ (writeLen_lost hb _), congrArg _ (writeLen_lost hb _)⟩
  · obtain ⟨t, hstep⟩ := exists_step_access hi
    rw [hstep]
    obtain rfl | ⟨v, rfl⟩ | ⟨k, rfl⟩ | ⟨hidle, -⟩ := step_access_cases hi hstep
    · exact ⟨s.rdata, s.draws, rfl⟩
    · exact ⟨v, s.draws, rfl⟩
    · exact ⟨_, s.draws + 1, rfl⟩
    · simp [hb] at hidle

/-- Settles O48, one agent's turn after the other: in IDLE the block does nothing, and of the accesses only a START accepted
touches a flag. -/
theorem resultStaysUntilTheNextStart : Obligations.ResultStaysUntilTheNextStart := by
  intro s t h hb hstep hpin
  obtain hturn | ⟨hsel, data, rest, hi⟩ | ⟨level, rest, hi⟩ | ⟨bytes, rest, hi⟩ := turn_cases s
  · rw [step_of_idle hturn (h.idle hb)] at hstep
    cases hstep
    exact ⟨rfl, fun _ => ⟨rfl, rfl, rfl⟩⟩
  · obtain rfl | ⟨v, rfl⟩ | ⟨k, rfl⟩ | ⟨-, rfl | ⟨len, rfl⟩⟩ := step_access_cases hi hstep
    case inr.inr.inr.inl => exact ⟨rfl, fun hstarted => by cases hstarted⟩
    all_goals exact ⟨rfl, fun _ => ⟨rfl, rfl, rfl⟩⟩
  · cases level
    · rw [step_eq_perform, fetch_pin_false hi] at hstep
      cases hstep
      exact ⟨rfl, fun _ => ⟨rfl, rfl, rfl⟩⟩
    · exact absurd hi (hpin rest)
  · simp only [step_eq_perform, fetch, hi, messageTurn] at hstep
    split at hstep <;> cases hstep
    exact ⟨rfl, fun _ => ⟨rfl, rfl, rfl⟩⟩

/-! ### Accesses that are ignored -/

theorem decode_nop {data : Word} (h : data.toNat % 2 = 0) : decode (.host 0x10 data) = .ok (.hNop data) :=
  decode_encode (i := .hNop data) (by
    have hbit : ¬data.getLsbD 0 = true := by rw [getLsbD_zero_iff]; omega
    simpa [Instr.wellFormed] using hbit)

/-- R106: the writes without a row, to STATUS, to DIGESTi and to the reserved registers. -/
theorem decode_ignoredWrite (data : Word)
    (h : hsel ∈ [0x11, 0x14, 0x15, 0x16, 0x17, 0x18, 0x19, 0x1A, 0x1B, 0x1C, 0x1D, 0x1E, 0x1F]) :
    decode (.host hsel data) = .error (.ignoredWrite hsel) := by
  fin_cases h <;> rfl

/-- R106: the reads without a row, of the reserved registers. -/
theorem decode_reservedRead (data : Word) (h : hsel ∈ [0x04, 0x05, 0x06, 0x07, 0x0D, 0x0E, 0x0F]) :
    decode (.host hsel data) = .error (.reservedRead hsel) := by
  fin_cases h <;> rfl

/-- Settles O17: what each of these accesses decodes to, performed. -/
theorem ignoredAccessesChangeNothing : Obligations.IgnoredAccessesChangeNothing := by
  refine ⟨fun s data => rfl, fun s hsel data rest hi hr h => ?_, fun s hsel data rest hi hr h => ?_⟩
  · rw [step_access hi hr, select]
    rcases h with ⟨rfl, heven⟩ | h
    · rw [decode_nop heven]
      rfl
    · rw [decode_ignoredWrite data h]
      rfl
  · rw [step_access hi hr, select, decode_reservedRead data h]
    rfl

end Sys2Proof.Machine
end

section
/-! PROOFS. The registers as the host reads and writes them, as numbers (`10_state.md` R42 to R45; `43_host_interface.md` R214
to R220). -/

namespace Sys2Proof.Machine

variable {s : State}

/-! ### LEN -/

/-- R43. -/
theorem toNat_lenLow (len : BitVec 61) : (lenLow len).toNat = len.toNat % 2 ^ 32 := BitVec.extractLsb'_toNat 0 32 len

theorem lenLow_eq_ofNat (len : BitVec 61) : lenLow len = BitVec.ofNat 32 (len.toNat % 2 ^ 32) :=
  eq_ofNat_of_toNat_eq (toNat_lenLow len)

/-- R44: `LEN` has no bit above bit 60. -/
theorem toNat_lenHigh (len : BitVec 61) : (lenHigh len).toNat = len.toNat / 2 ^ 32 := by
  rw [lenHigh, BitVec.extractLsb'_toNat, Nat.shiftRight_eq_div_pow]
  exact Nat.mod_eq_of_lt (by omega)

theorem lenHighRead_eq_ofNat (len : BitVec 61) : lenHighRead len = BitVec.ofNat 32 (len.toNat / 2 ^ 32) := by
  rw [lenHighRead, ← BitVec.ofNat_toNat, toNat_lenHigh]

theorem withLenLow_eq_ofNat (len : BitVec 61) (data : Word) :
    withLenLow len data = BitVec.ofNat 61 (len.toNat / 2 ^ 32 * 2 ^ 32 + data.toNat) :=
  eq_ofNat_of_toNat_eq (by rw [withLenLow, toNat_append_eq_add, toNat_lenHigh])

theorem withLenHigh_eq_ofNat (len : BitVec 61) (data : Word) :
    withLenHigh len data = BitVec.ofNat 61 (data.toNat % 2 ^ 29 * 2 ^ 32 + len.toNat % 2 ^ 32) :=
  eq_ofNat_of_toNat_eq (by rw [withLenHigh, toNat_append_eq_add, BitVec.extractLsb'_toNat, toNat_lenLow]; rfl)

/-- Settles O13: the words returned, as numbers; `LEN` is below `2^61`. -/
theorem lengthAndControlReadsReturnTheRegister : Obligations.LengthAndControlReadsReturnTheRegister := fun s =>
  ⟨rfl, congrArg (Host.Outcome.next ∘ s.respond) (lenLow_eq_ofNat s.LEN),
    congrArg (Host.Outcome.next ∘ s.respond) (lenHighRead_eq_ofNat s.LEN), by omega⟩

/-- Settles O15: the write is taken or lost as `BUSY` says, and the new length as a number. -/
theorem lengthWritesReplaceTheirPart : Obligations.LengthWritesReplaceTheirPart := by
  refine fun s data => ⟨fun hb => ⟨?low, ?high⟩, fun hb => ⟨?lostLow, ?lostHigh⟩⟩
  case low => rw [exec, execHWrlenLo, writeLen_taken hb, withLenLow_eq_ofNat]; rfl
  case high => rw [exec, execHWrlenHi, writeLen_taken hb, withLenHigh_eq_ofNat]; rfl
  case lostLow | lostHigh => exact congrArg _ (writeLen_lost hb _)

/-! ### STATUS -/

/-- R42: where each flag stands. -/
theorem toNat_statusWord (s : State) : (statusWord s).toNat =
    s.BUSY.toNat + 2 * s.DONE.toNat + 4 * s.ERR.toNat + 16 * s.ERRCODE.toNat := by
  simp only [statusWord, toNat_append_eq_add, BitVec.toNat_ofBool, BitVec.ofNat_eq_ofNat, BitVec.toNat_ofNat]
  omega

/-- R215: the flags of a sound state, and the value each combination gives. -/
theorem State.Inv.statusWord_cases (h : s.Inv) :
    (statusWord s = 0x00000000 ∧ s.FSM = .idle ∧ s.DONE = false ∧ s.ERR = false) ∨
    (statusWord s = 0x00000001 ∧ s.FSM ≠ .idle) ∨
    (statusWord s = 0x00000002 ∧ s.FSM = .idle ∧ s.DONE = true) ∨
    (statusWord s = 0x00000014 ∧ s.FSM = .idle ∧ s.ERR = true) := by
  cases hb : s.BUSY with
  | true =>
    obtain ⟨hd, he⟩ := h.busy_clears hb
    refine .inr (.inl ⟨?_, h.busy.1 hb⟩)
    rw [statusWord, hb, hd, he, h.code_none he]
    rfl
  | false =>
    have hidle := h.idle hb
    cases he : s.ERR with
    | true =>
      have hd : s.DONE = false := Bool.eq_false_iff.2 fun hd => h.done_or_err ⟨hd, he⟩
      refine .inr (.inr (.inr ⟨?_, hidle, rfl⟩))
      rw [statusWord, hb, hd, he, h.code_err he]
      rfl
    | false =>
      have hcode := h.code_none he
      cases hd : s.DONE with
      | true =>
        refine .inr (.inr (.inl ⟨?_, hidle, rfl⟩))
        rw [statusWord, hb, hd, he, hcode]
        rfl
      | false =>
        refine .inl ⟨?_, hidle, rfl, rfl⟩
        rw [statusWord, hb, hd, he, hcode]
        rfl

/-- Settles O14: the word returned is `statusWord`. -/
theorem statusReadsTheFlags : Obligations.StatusReadsTheFlags := fun s =>
  ⟨statusWord s, rfl, toNat_statusWord s, State.Inv.statusWord_cases⟩

/-! ### DIGEST -/

/-- R35, R45: a digest reported can be read. -/
theorem State.Inv.digest_readable (h : s.Inv) (hd : s.DONE = true) : s.BUSY = false ∧ s.hashWritten = true :=
  ⟨Bool.eq_false_iff.2 fun hb => by simp [(h.busy_clears hb).1] at hd, h.hash (.inr hd)⟩

/-- R220: a read changes the returned data and the model's count of free values at most, and returns `H[i]` where it has one. -/
theorem exists_readDigest_eq (s : State) (i : Fin 5) : ∃ r k, s.readDigest i = { s with rdata := r, draws := k } ∧
    (s.BUSY = false → s.hashWritten = true → r = s.H[i] ∧ k = s.draws) := by
  obtain ⟨-, -, h⟩ | ⟨hnovalue, h⟩ := readDigest_cases s i
  · exact ⟨s.H[i], s.draws, h, fun _ _ => ⟨rfl, rfl⟩⟩
  · refine ⟨_, s.draws + 1, h, fun hb hw => ?_⟩
    simp [hb, hw] at hnovalue

/-- Settles O16: each of the five reads is `State.readDigest`. -/
theorem digestReadsReturnTheHash : Obligations.DigestReadsReturnTheHash := by
  intro s i
  obtain ⟨r, k, hread, hvalue⟩ := exists_readDigest_eq s i
  refine ⟨r, k, Eq.trans ?_ (congrArg _ hread), hvalue, fun h hd => ?_⟩
  · fin_cases i <;> rfl
  · obtain ⟨hb, hw⟩ := h.digest_readable hd
    exact (hvalue hb hw).1

end Sys2Proof.Machine
end

section
/-! PROOFS. The exception (`60_exceptions.md` R230 to R236) and IDLE (R246): what leads to FAIL, what the failed computation
leaves behind, and what leads out of IDLE. -/

namespace Sys2Proof.Machine

variable {s t : State}

/-! ### FAIL among the instructions (R233) -/

theorem Fsm.ne_fail_of_holdsPad {f : Fsm} (h : f.holdsPad = true) : f ≠ .fail := by
  rintro rfl
  cases h

theorem holdsPad_of_storeNext {v : Word} {next : Nat → Fsm} (hnext : ∀ idx, (next idx).holdsPad = true)
    (h : outcome (s.storeNext v next) = .next t) : t.FSM.holdsPad = true := by
  obtain ⟨-, rfl⟩ := storeNext_eq_ok.1 (outcome_eq_next.1 h)
  exact hnext _

theorem holdsPad_of_guarded_storeNext {v : Word} {next : Nat → Fsm} {c : Prop} [Decidable c] {e : Fault}
    (hnext : ∀ idx, (next idx).holdsPad = true)
    (h : (if c then outcome (s.storeNext v next) else .fault e) = .next t) : t.FSM.holdsPad = true := by
  split at h
  · exact holdsPad_of_storeNext hnext h
  · cases h

/-- R133 to R140: each of the Padder's writes goes on with the computation. -/
theorem holdsPad_of_exec_padWrite {i : Instr} (hi : i ∈ Instr.padWrites) (he : exec i s = .next t) :
    t.FSM.holdsPad = true := by
  rcases Instr.mem_padWrites.1 hi with rfl | rfl | rfl | rfl | rfl | rfl | rfl | rfl
  · exact holdsPad_of_guarded_storeNext (holdsPad_afterWord _) (exec_pWord_eq s ▸ he)
  · exact holdsPad_of_storeNext holdsPad_afterFill he
  · exact holdsPad_of_guarded_storeNext holdsPad_afterFill (exec_pTail1_eq s ▸ he)
  · exact holdsPad_of_guarded_storeNext holdsPad_afterFill (exec_pTail2_eq s ▸ he)
  · exact holdsPad_of_guarded_storeNext holdsPad_afterFill (exec_pTail3_eq s ▸ he)
  · exact holdsPad_of_storeNext holdsPad_afterFill he
  · exact holdsPad_of_storeNext (fun _ => rfl) he
  · exact holdsPad_of_storeNext (fun _ => rfl) he

/-- R193: O.NEXT goes on to a block or to the release. -/
theorem holdsPad_of_exec_oNext (he : exec .oNext s = .next t) : t.FSM.holdsPad = true := by
  cases he
  rw [State.goto_FSM]
  split <;> rfl

/-- R231: no instruction but P.ALLOC raises the exception, whatever state it is executed in. -/
theorem eq_pAlloc_of_exec_fail {i : Instr} (he : exec i s = .next t) (ht : t.FSM = .fail) (hs : s.FSM ≠ .fail) :
    i = .pAlloc := by
  cases exec_does he
  case grant | refuse => rfl
  case store hi => exact absurd ht (Fsm.ne_fail_of_holdsPad (holdsPad_of_exec_padWrite hi he))
  case next => exact absurd ht (Fsm.ne_fail_of_holdsPad (holdsPad_of_exec_oNext he))
  case round => exact absurd ht (Fsm.ne_fail_of_holdsPad (holdsPad_afterRound _))
  case read | readFree | startLost | nop | lengthLow | lengthHigh | lengthLowLost | lengthHighLost => exact absurd ht hs
  all_goals cases ht

/-- Settles O39: `State.raiseResourceExhausted`, `State.enterResourceExhausted`, and `eq_pAlloc_of_exec_fail`. -/
theorem failReportsResourceExhausted : Obligations.FailReportsResourceExhausted :=
  ⟨fun _ => exec_pAlloc_refused, fun _ => rfl, fun _ _ _ => eq_pAlloc_of_exec_fail⟩

/-! ### FAIL among the steps (R231, R235) -/

/-- R190: the one row with successor FAIL. -/
theorem alloc_refused_of_successor (h : s.successor t = .fail) : s.FSM = .alloc ∧ s.allocOK (16 * s.N) = false := by
  cases hs : s.FSM
  case alloc =>
    cases hok : s.allocOK (16 * s.N)
    · exact ⟨rfl, rfl⟩
    · simp only [State.successor, hs, hok, if_true] at h
      split_ifs at h
  case copy | tail | zero | next | round =>
    simp only [State.successor, hs] at h
    split_ifs at h
  all_goals simp [State.successor, hs] at h

theorem step_of_refused (hf : s.FSM = .alloc) (hb : s.blocksTurn) (hr : s.rst = false)
    (hno : s.allocOK (16 * s.N) = false) : step s = .next s.afterTurn.raiseResourceExhausted := by
  have hi : s.microOp = some .pAlloc := by rw [State.microOp, hf]
  rw [step_of_microOp hb hr hi]
  exact exec_pAlloc_refused (s := s.afterTurn) hno

/-- R231: of all agents' turns, the block's alone leads to FAIL, by the transition table's one row. -/
theorem refused_of_step_fail (h : s.Inv) (hf : s.FSM ≠ .fail) (hstep : step s = .next t) (ht : t.FSM = .fail) :
    s.FSM = .alloc ∧ s.blocksTurn ∧ s.rst = false ∧ s.allocOK (16 * s.N) = false := by
  have hmoved {f : Fsm} (hsame : t.FSM = f) (hne : f ≠ .fail) : False := hne (hsame.symm.trans ht)
  obtain ⟨hblock, hheld, haccess, hpin, hmessage⟩ := controlFollowsTheTransitionTable s t h hstep
  obtain hb | ⟨hsel, data, rest, hi⟩ | ⟨level, rest, hi⟩ | ⟨bytes, rest, hi⟩ := turn_cases s
  · have hr : s.rst = false := Bool.eq_false_iff.2 fun hr => hmoved (hheld hb (.inl hr)) hf
    have hidle : s.FSM ≠ .idle := fun hidle => hmoved (hheld hb (.inr hidle)) hf
    obtain ⟨-, hsucc⟩ := hblock hb hr hidle
    obtain ⟨halloc, hno⟩ := alloc_refused_of_successor (hsucc.symm.trans ht)
    exact ⟨halloc, hb, hr, hno⟩
  · exact (hmoved (haccess hsel data rest hi) (by split_ifs; exacts [nofun, hf])).elim
  · exact (hmoved (hpin level rest hi) (by split_ifs; exacts [nofun, hf])).elim
  · exact (hmoved (hmessage bytes rest hi) hf).elim

/-- Settles O40: a step to FAIL is P.ALLOC refused (`refused_of_step_fail`), which keeps `H`, and in FAIL no word of `P`
exists. -/
theorem onlyARefusedAllocationRaises : Obligations.OnlyARefusedAllocationRaises := by
  intro s t h hf hstep
  refine ⟨⟨refused_of_step_fail h hf hstep, fun ⟨halloc, hb, hr, hno⟩ => ?_⟩, fun ht => ⟨?_, ?_⟩⟩
  · rw [step_of_refused halloc hb hr hno] at hstep
    cases hstep
    rfl
  · obtain ⟨halloc, hb, hr, hno⟩ := refused_of_step_fail h hf hstep ht
    rw [step_of_refused halloc hb hr hno] at hstep
    cases hstep
    rfl
  · obtain ⟨hv, -, hwords⟩ := (everyStepKeepsTheControlInvariant s t h hstep).free (by rw [ht]; rfl)
    exact ⟨hv, hwords⟩

/-! ### The failed computation (R234) -/

/-- On the way from COUNT through the refusal to IDLE, nothing of the Hash or the padded sequence is touched. -/
theorem iterate_advance_refused_keeps (hf : s.FSM = .count) (hno : s.allocOK (16 * blockCount s.LEN.toNat) = false)
    {k : Nat} (hk : k ≤ 3) :
    (State.advance^[k] s).H = s.H ∧ (State.advance^[k] s).P = s.P ∧ (State.advance^[k] s).PVALID = s.PVALID := by
  have hcount : s.advance = s.counted (blockCount s.LEN.toNat) := by simp only [State.advance, hf]
  have halloc : (s.counted (blockCount s.LEN.toNat)).advance =
      (s.counted (blockCount s.LEN.toNat)).raiseResourceExhausted := if_neg (Bool.eq_false_iff.1 hno)
  obtain rfl | rfl | rfl | rfl : k = 0 ∨ k = 1 ∨ k = 2 ∨ k = 3 := by omega
  · exact ⟨rfl, rfl, rfl⟩
  · simp [hcount]
  · simp [hcount, halloc]
  · simp [advance_refused hf hno]

/-- R233, R234: all that a computation refused after `n` blocks were counted has written. -/
theorem refused_state (s : State) (n : Nat) :
    (s.acceptStart.counted n).raiseResourceExhausted.enterResourceExhausted =
      { s with FSM := .idle, BUSY := false, DONE := false, ERR := true, ERRCODE := 1, N := n, calls := s.calls + 1 } := by
  simp only [State.acceptStart, State.flagsBusy, State.counted, State.raiseResourceExhausted,
    State.enterResourceExhausted, State.flagsFailed, resourceExhaustedCode]

/-- Settles O57: the three steps are those of `advance_refused`, and `State.stepsLeft` counts them. -/
theorem failureIsAtomic : Obligations.FailureIsAtomic := by
  intro s0 s data hs0 hs hu hno
  obtain rfl := exec_hStart_of_idle hs0 hs
  rw [← blockCount_eq] at hno ⊢
  have hc : s0.acceptStart.OnCourse := onCourse_of_count rfl
  refine ⟨?_, fun k hk => ?_⟩
  · rw [run_undisturbed hc hu, advance_refused rfl hno, refused_state]
    rfl
  · obtain ⟨hH, hP, hvalid⟩ := iterate_advance_refused_keeps rfl hno hk
    refine ⟨_, run_undisturbed hc hu k, hH, hP, hvalid, fun hidle => ?_⟩
    have hleft := stepsLeft_eq_zero_iff.2 hidle
    rw [hc.stepsLeft_iterate, stepsLeft_of_refused rfl hno] at hleft
    omega

/-! ### IDLE (R246) -/

/-- R212: an access that moves the control state is a START accepted; no soundness of the state is needed. -/
theorem start_of_step_access {hsel : BitVec 5} {data : Word} {rest : List Turn}
    (hi : s.inbox = .access hsel data :: rest) (hstep : step s = .next t) (hmoved : t.FSM ≠ s.FSM) :
    s.BUSY = false ∧ s.rst = false ∧ hsel = 0x10 ∧ data.toNat % 2 = 1 := by
  have hb : s.BUSY = false := by
    obtain rfl | ⟨v, rfl⟩ | ⟨k, rfl⟩ | ⟨hb, -⟩ := step_access_cases hi hstep
    case inr.inr.inr => exact hb
    all_goals exact absurd rfl hmoved
  have hr : s.rst = false := by
    refine Bool.eq_false_iff.2 fun hr => ?_
    rw [step_eq_perform, fetch_access_of_rst hi hr] at hstep
    cases hstep
    exact hmoved rfl
  have hf : fetch s = select (.host hsel data) (s.takeTurn rest) := by simp [fetch, hi, accessTurn, hr]
  refine ⟨hb, hr, ?_⟩
  obtain ⟨i, hd, he⟩ | ⟨-, rfl⟩ | ⟨-, rfl⟩ | ⟨_, -, rfl⟩ | ⟨_, -, rfl⟩ := step_of_select hf hstep
  · by_contra hstart
    have hne (d : Word) (hid : i = .hStart d) : False := hstart (decode_host_start (hid ▸ hd))
    exact hmoved (exec_host_FSM (s := s.takeTurn rest) (isHost_of_decode_host hd) hne he)
  all_goals exact absurd rfl hmoved

/-- R212: a START accepted, as a step. -/
theorem step_start {data : Word} {rest : List Turn} (hi : s.inbox = .access 0x10 data :: rest) (hb : s.BUSY = false)
    (hr : s.rst = false) (hodd : data.toNat % 2 = 1) : step s = .next (s.takeTurn rest).acceptStart := by
  rw [step_eq_perform, fetch_access hi hr (decode_start hodd)]
  exact exec_hStart_taken (s := s.takeTurn rest) hb data

/-- R246: of all agents' turns, a START accepted alone leads out of IDLE. -/
theorem start_of_step_leaves_idle (hf : s.FSM = .idle) (hstep : step s = .next t) (ht : t.FSM ≠ .idle) :
    s.BUSY = false ∧ s.rst = false ∧ ∃ data rest, s.inbox = .access 0x10 data :: rest ∧ data.toNat % 2 = 1 := by
  obtain hb | ⟨hsel, data, rest, hi⟩ | ⟨level, rest, hi⟩ | ⟨bytes, rest, hi⟩ := turn_cases s
  · rw [step_of_idle hb hf] at hstep
    cases hstep
    exact absurd hf ht
  · obtain ⟨hb, hr, rfl, hodd⟩ := start_of_step_access hi hstep (by rwa [hf])
    exact ⟨hb, hr, data, rest, hi, hodd⟩
  · exact absurd (step_pin_FSM hi hstep) (by split_ifs <;> simpa [hf] using ht)
  · exact absurd ((step_message_FSM hi hstep).trans hf) ht

/-- Settles O42: `step_of_idle` for the block's turn, and for leaving IDLE `start_of_step_leaves_idle` with `step_start`. -/
theorem onlyAStartLeavesIdle : Obligations.OnlyAStartLeavesIdle := by
  refine ⟨fun s hf hb => step_of_idle hb hf, fun s t hf hstep => ⟨start_of_step_leaves_idle hf hstep, ?_⟩⟩
  rintro ⟨hb, hr, data, rest, hi, hodd⟩
  rw [step_start hi hb hr hodd] at hstep
  cases hstep
  exact nofun

end Sys2Proof.Machine
end

section
/-! PROOFS. Every computation ends (`70_reset_and_hazards.md` R276; `43_host_interface.md` R210): with no reset and no message
to come, each turn of either agent leaves fewer turns to go (`State.turnsLeft`), and the turn that leads to IDLE reports. -/

namespace Sys2Proof.Machine

variable {s t : State} {k : Nat}

/-- A run begins with its first step. -/
theorem run_succ (hstep : step s = .next t) : Host.Core.run core (k + 1) s = Host.Core.run core k t := by
  have hcore : core.step s = .next t := hstep
  simp only [Host.Core.run, hcore]

/-- R196: no micro-operation is further from IDLE than P.COUNT with the storage granted. -/
theorem State.OnCourse.stepsLeft_le (h : s.OnCourse) : s.stepsLeft ≤ 163 * blockCount s.LEN.toNat + 5 := by
  have hr := h.rounds
  by_cases hidle : s.FSM = .idle
  · simp [stepsLeft_eq_zero_iff.2 hidle]
  by_cases hcount : s.FSM = .count
  · simp only [State.stepsLeft, hcount]
    split <;> omega
  rw [← h.counted hidle hcount]
  cases hf : s.FSM <;> simp only [State.roundsInPlace, hf] at hr <;> simp only [State.stepsLeft, hf, roundsLeft]
  case count => exact absurd hf hcount
  case alloc => split <;> omega
  all_goals omega

/-- An upper bound of the steps to IDLE: every turn still to come and every micro-operation left takes at most one. -/
def State.turnsLeft (s : State) : Nat := s.inbox.length + s.stepsLeft

/-- R194, R233: the micro-operation that leads to IDLE reports. -/
theorem advance_reports (hf : s.FSM ≠ .idle) (hidle : s.advance.FSM = .idle) :
    s.advance.DONE = true ∨ s.advance.ERR = true := by
  by_cases hr : s.FSM = .release
  · exact .inl (by simp [advance_release hr])
  by_cases hfail : s.FSM = .fail
  · exact .inr (by simp [State.advance, hfail])
  · exact absurd hidle (advance_flags hf hr hfail).1

/-- Taking a turn brings no new agent in. -/
theorem State.hostOnly.of_tail (h : s.hostOnly) (ht : t.inbox = s.inbox.tail) : t.hostOnly :=
  fun turn hturn => h turn (List.mem_of_mem_tail (ht ▸ hturn))

/-- With only host accesses to come, a turn that is not the block's is the host's. -/
theorem State.hostOnly.turn_cases (h : s.hostOnly) :
    s.blocksTurn ∨ ∃ hsel data rest, s.inbox = .access hsel data :: rest := by
  cases hi : s.inbox with
  | nil => exact .inl (.inl hi)
  | cons turn rest =>
    obtain rfl | ⟨hsel, data, rfl⟩ := h turn (by simp [hi])
    · exact .inl (.inr ⟨rest, hi⟩)
    · exact .inr ⟨hsel, data, rest, rfl⟩

/-- One turn of a computation, the block's or the host's, leaves fewer to go. -/
theorem State.Inv.step_turnsLeft (h : s.Inv) (hb : s.BUSY = true) (hr : s.rst = false) (ho : s.hostOnly) :
    ∃ t, step s = .next t ∧ t.rst = false ∧ t.hostOnly ∧ t.turnsLeft < s.turnsLeft ∧
      (t.FSM = .idle → t.DONE = true ∨ t.ERR = true) := by
  have hf : s.FSM ≠ .idle := h.busy.1 hb
  obtain hturn | ⟨hsel, data, rest, hi⟩ := ho.turn_cases
  · obtain ⟨-, -, -, hrst, hinbox, -⟩ := advance_environment s.afterTurn
    have hleft : s.afterTurn.advance.stepsLeft + 1 = s.stepsLeft := (h.onCourse.takeTurn _).stepsLeft_advance hf
    have hlen : s.afterTurn.advance.inbox.length ≤ s.inbox.length :=
      (congrArg List.length hinbox).trans_le (by simp [State.afterTurn])
    exact ⟨_, h.onCourse.step_eq hturn hr, hrst.trans hr, ho.of_tail hinbox, by unfold State.turnsLeft; omega,
      advance_reports hf⟩
  · obtain ⟨r, k, hstep⟩ := hostCannotDisturbAComputation.2 s hsel data rest hb hi
    have hless : ({ s with inbox := rest, rdata := r, draws := k } : State).turnsLeft < s.turnsLeft :=
      Nat.add_lt_add_right (by simp [hi]) s.stepsLeft
    exact ⟨_, hstep, hr, ho.of_tail (by simp [hi]), hless, fun hidle => absurd hidle hf⟩

/-- A computation ends within the turns left, by induction on them. -/
theorem State.Inv.exists_run_to_idle (h : s.Inv) (hb : s.BUSY = true) (hr : s.rst = false) (ho : s.hostOnly) :
    ∃ n t, n ≤ s.turnsLeft ∧ Host.Core.run core n s = .next t ∧ t.BUSY = false ∧ t.FSM = .idle ∧
      (t.DONE = true ∨ t.ERR = true) := by
  induction hn : s.turnsLeft using Nat.strong_induction_on generalizing s with
  | _ n ih =>
    subst hn
    obtain ⟨u, hstep, hru, hou, hless, hreports⟩ := h.step_turnsLeft hb hr ho
    have hu : u.Inv := everyStepKeepsTheControlInvariant s u h hstep
    cases hbu : u.BUSY with
    | true =>
      obtain ⟨m, t, hm, hrun, hend⟩ := ih u.turnsLeft hless hu hbu hru hou rfl
      exact ⟨m + 1, t, hm.trans_lt hless, (run_succ hstep).trans hrun, hend⟩
    | false =>
      have hidle := hu.idle hbu
      exact ⟨1, u, Nat.zero_lt_of_lt hless, run_succ hstep, hbu, hidle, hreports hidle⟩

/-- Settles O59: the turns left are at most those of the list and the micro-operations of a whole computation. -/
theorem everyComputationEnds : Obligations.EveryComputationEnds := by
  intro s h hb hr ho
  obtain ⟨n, t, hn, hrun, hend⟩ := h.exists_run_to_idle hb hr ho
  rw [← blockCount_eq]
  exact ⟨n, t, hn.trans (Nat.add_le_add_left h.onCourse.stepsLeft_le _), hrun, hend⟩

end Sys2Proof.Machine
end

section
/-! PROOFS. Reset (`70_reset_and_hazards.md` R260 to R262): what R260 lists, said once of the reset state and of every state
H.RESET leaves (`State.FreshlyReset`), and what follows from it. -/

namespace Sys2Proof.Machine

variable {s : State}

/-- What R260 lists. -/
structure State.FreshlyReset (s : State) : Prop where
  fsm : s.FSM = .idle
  busy : s.BUSY = false
  done : s.DONE = false
  err : s.ERR = false
  code : s.ERRCODE = 0
  pvalid : s.PVALID = false
  plen : s.PLEN = 0
  pad : s.P = []
  len : s.LEN = 0

theorem State.freshlyReset_reset : State.reset.FreshlyReset := by constructor <;> rfl

theorem State.freshlyReset_hardReset (s : State) : s.hardReset.FreshlyReset := by constructor <;> rfl

namespace State.FreshlyReset

theorem statusWord_eq (h : s.FreshlyReset) : statusWord s = 0 := by
  rw [statusWord, h.code, h.err, h.done, h.busy]
  rfl

/-- Nothing is computed, allocated or reported, so the control invariant asks only for the message's canonical form. -/
theorem inv (h : s.FreshlyReset) (hmsg : Memory.wf s.msg) : s.Inv := by
  obtain ⟨hfsm, hbusy, hdone, herr, hcode, hpvalid, hplen, hpad, -⟩ := h
  refine inv_iff.2 ⟨?flags, ?pad, onCourse_of_idle hfsm, ?hash, hmsg⟩
  case flags => constructor <;> simp [hfsm, hbusy, hdone, herr, hcode]
  case pad => constructor <;> simp [hfsm, hpvalid, hplen, hpad, Fsm.holdsPad, Memory.wf_nil]
  case hash => simp [State.HashSound, hfsm, hdone, Fsm.hashing]

end State.FreshlyReset

/-- Settles O9: the reads return what the registers hold, and in IDLE the block does nothing. -/
theorem resetLeavesTheBlockIdle : Obligations.ResetLeavesTheBlockIdle := by
  intro r hr
  have h : r.FreshlyReset := by
    obtain rfl | ⟨s, hs⟩ := hr
    · exact State.freshlyReset_reset
    · cases hs
      exact s.freshlyReset_hardReset
  have hlow : lenLow r.LEN = 0 := by rw [h.len]; rfl
  have hhigh : lenHighRead r.LEN = 0 := by rw [h.len]; rfl
  exact ⟨h.fsm, h.busy, h.done, h.err, h.code, h.pvalid, h.plen, fun i => by rw [h.pad]; rfl, h.len,
    congrArg (Host.Outcome.next ∘ r.respond) h.statusWord_eq, congrArg (Host.Outcome.next ∘ r.respond) hlow,
    congrArg (Host.Outcome.next ∘ r.respond) hhigh, rfl, fun hb => step_of_idle hb h.fsm⟩

/-- Settles O10: `State.hardReset`, which reads no data register, and the turns held back while reset is asserted. -/
theorem resetAbandonsEverything : Obligations.ResetAbandonsEverything := by
  refine ⟨fun s => ⟨s.hardReset, rfl, rfl⟩, fun s u t v hdraws ht hv => ?_, fun s hr hturn => ?_⟩
  · cases ht
    cases hv
    simp [hdraws]
  · obtain hb | ⟨hsel, data, rest, hi⟩ := hturn
    · exact step_of_rst hb hr
    · rw [step_eq_perform, fetch_access_of_rst hi hr, hi]
      rfl

/-- Settles O51: the control invariant by `State.FreshlyReset.inv`; no storage is held, so the data invariant asks nothing. -/
theorem resetStateIsSound : Obligations.ResetStateIsSound :=
  have h : State.reset.Inv := State.freshlyReset_reset.inv State.reset_memory_wf.2
  ⟨h, h.dataInv_of_free rfl⟩

end Sys2Proof.Machine
end

section
/-! PROOFS. The source's three digests (`95_test_vectors.md` section 2): each message fills a single block, whose sixteen
words are the ones section 3 lists, and one compression of it from the IV gives the digest. -/

namespace Sys2Proof.Contract

open Machine

/-- R191: the messages whose marker and length fit into the first block take one compression. -/
theorem digest_eq_compress_of_lt (M : Nat → Byte) {L : Nat} (h : L < 56) : digest M L = compress (block M L 0) iv := by
  have hone : blocks L = 1 := by unfold blocks; omega
  rw [digest, hone]
  rfl

/-- A short message's digest, from the sixteen words of its padded block (R144); those left out of the list are zero. -/
theorem digest_eq_compress_getD {M : Nat → Byte} {L : Nat} {words : List Word} (h : L < 56)
    (hpad : ∀ j, j < 16 → paddedWord M L j = words.getD j 0) : digest M L = compress (words.getD · 0) iv := by
  refine (digest_eq_compress_of_lt M h).trans (compress_congr (fun j hj => ?_) iv)
  rw [block, Nat.mul_zero, Nat.zero_add, hpad j hj]

/-- R134, R138 to R140: the empty message's block. -/
theorem paddedWord_empty : ∀ j, j < 16 → paddedWord (fun _ => 0) 0 j = [0x80000000].getD j 0 := by decide

/-- R136, R138 to R140: the block of a message of six bytes, its marker in the second word and `8 * 6` in the last. -/
theorem paddedWord_six (M : Nat → Byte) {j : Nat} (hj : j < 16) : paddedWord M 6 j =
    [messageWord (M 0) (M 1) (M 2) (M 3), messageWord (M 4) (M 5) 0x80 0,
      0, 0, 0, 0, 0, 0, 0, 0, 0, 0, 0, 0, 0, 0x30].getD j 0 := by
  obtain rfl | rfl | ⟨h2, h14⟩ | rfl | rfl : j = 0 ∨ j = 1 ∨ (2 ≤ j ∧ j < 14) ∨ j = 14 ∨ j = 15 := by omega
  · exact paddedWord_message (by decide)
  · rw [paddedWord_eq_messageWord, paddedByte_of_lt (by decide), paddedByte_of_lt (by decide), paddedByte_marker,
      paddedByte_zero (by decide) (by decide)]
    rfl
  · rw [paddedWord_zero (by omega) (show j + 2 < 16 by omega)]
    interval_cases j <;> rfl
  · exact paddedWord_lengthHigh (by decide) (by decide)
  · exact paddedWord_lengthLow (by decide) (by decide)

/-- Settles O56: each message is the one block of `paddedWord_empty` or `paddedWord_six`; what is left is to evaluate the
Compressor's contract (R160) on sixteen literal words. -/
theorem contractGivesTheSourcesDigests : Obligations.ContractGivesTheSourcesDigests := by
  refine ⟨?empty, ?ananas, ?passwd⟩
  case empty =>
    rw [digest_eq_compress_getD (by decide) paddedWord_empty]
    decide +kernel
  case ananas | passwd =>
    rw [digest_eq_compress_getD (by decide) fun _ => paddedWord_six _]
    decide +kernel

end Sys2Proof.Contract
end
